-- ==== Sys2Proof/Word.lean ====
section
/-! DEFINITION. The bit vectors of the core (00_scope.md R12, R13: every value is unsigned). -/

namespace Sys2Proof

/-- A byte of memory, a general register, a timer. -/
abbrev Byte := BitVec 8

/-- A 16-bit value: `I`, `pc`, a stack entry, an instruction word. -/
abbrev Word := BitVec 16

/-- A register index `x` or `y`: every value 0 to 15 is legal (30_encoding.md R94). -/
abbrev RegIdx := BitVec 4

/-- A 4-bit field that is no register index: `n1` and the row count `n`. -/
abbrev Nibble := BitVec 4

/-- A 12-bit address or immediate `nnn`. -/
abbrev Addr12 := BitVec 12

/-- `VF`, the flag register (10_state.md R21). -/
abbrev regF : RegIdx := 15

end Sys2Proof
end

