-- ==== Sys2Proof/Config.lean ====
section
/-! DEFINITION. What is fixed for a core: the constants of 00_scope.md R8, the open parameters of R9 as one record, and
the free values: the random byte of `Cxnn`, and the interleaving of the agents with its inputs. -/

namespace Sys2Proof

/-- `PROFILE` (00_scope.md R7): `min` is the six operations, `full` adds the 28 rows of 30_encoding.md R99. -/
inductive Profile where
  | min
  | full
  deriving DecidableEq, Repr

/-- `Q_SHIFT_SRC` (47_ext_flow_alu.md R200): the register `8xy6` and `8xyE` shift. -/
inductive ShiftSrc where
  | vy
  | vx
  deriving DecidableEq, Repr

/-- `Q_LOGIC_VF` (47_ext_flow_alu.md R200): whether `8xy1`, `8xy2`, `8xy3` write 0 to `VF`. -/
inductive LogicVF where
  | reset
  | keep
  deriving DecidableEq, Repr

/-- `Q_MEM_I` (47_ext_flow_alu.md R200): whether `Fx55` and `Fx65` advance `I`. -/
inductive MemI where
  | increment
  | keep
  deriving DecidableEq, Repr

/-- The open parameters of the step relation (00_scope.md R9, 10_state.md R45). DESIGN CHOICE (log 1): State carries
them as a record no step changes, so a statement about every state is about every value of them. -/
structure Params where
  profile : Profile
  shiftSrc : ShiftSrc
  logicVF : LogicVF
  memI : MemI
  /-- `CLK_HZ` (50_clock_and_timers.md R174). -/
  clkHz : Nat
  /-- `IPS` (50_clock_and_timers.md R176). -/
  ips : Nat
  /-- `FONT[0..79]` (10_state.md R33). -/
  font : Vector Byte 80
  deriving DecidableEq, Repr

/-- What R9, R33, R174 and R175 ask of the parameters. -/
def Params.wf (p : Params) : Bool :=
  decide (0 < p.clkHz ∧ p.clkHz % 60 = 0 ∧ 0 < p.ips ∧ p.clkHz % p.ips = 0 ∧ p.font[0] = 0xF0)

/-- `TICK_DIV` (50_clock_and_timers.md R174). -/
def Params.tickDiv (p : Params) : Nat := p.clkHz / 60

/-- `INSTR_DIV` (50_clock_and_timers.md R175). -/
def Params.instrDiv (p : Params) : Nat := p.clkHz / p.ips

/-- The 16 key lines, `true` = pressed: `KEYS` and `KEYS_IN` (10_state.md R36). -/
abbrev Keys := Vector Bool 16

/-- A move of the core's two agents or of its clock: one that is no reset request. The input lines stand in the move that
samples them. -/
inductive Beat where
  | instruction
  | tick (keysIn : Keys) (quitIn : Bool)
  | clockEdge (keysIn : Keys) (quitIn : Bool)
  deriving DecidableEq, Repr

/-- A stretch of moves in which both agents step: `before`, an instruction step, `between`, a timer tick with these inputs.
Every interleaving with unboundedly many steps of both agents is a sequence of rounds (50_clock_and_timers.md R173,
R179; log 5). -/
structure Round where
  before : List Beat
  between : List Beat
  keysIn : Keys
  quitIn : Bool
  deriving DecidableEq, Repr, Inhabited

namespace Config

/-- `MEM_SIZE` (00_scope.md R8). -/
def memSize : Nat := 4096

/-- `PROG_BASE` (00_scope.md R8). -/
def progBase : Nat := 0x200

/-- `MAX_IMAGE` (00_scope.md R8). -/
def maxImage : Nat := 3584

/-- `FONT_BASE` (00_scope.md R8). -/
def fontBase : Nat := 0x050

/-- `STACK_DEPTH` (00_scope.md R8). -/
def stackDepth : Nat := 16

/-- The random byte of the `k`-th execution of `Cxnn` (47_ext_flow_alu.md R217: "a free input of this step under no
law"). FREE VALUE (log 4): it has no body, so nothing can be proved of its values. -/
opaque randomByte : Nat → Byte

/-- The `k`-th round of the interleaving the schedule chooses (50_clock_and_timers.md R173: "in any order the schedule
chooses") with the inputs its ticks see (10_state.md R45). FREE VALUE (log 5): it has no body, so nothing can be proved
of which round it is. -/
opaque freeRound : Nat → Round

end Config

end Sys2Proof
end

