-- ==== Sys2Proof/Machine/ResetContents.lean ====
section
/-! DEFINITION. What reset leaves where the spec gives a default: the font, the memory bytes, and the values of the open
parameters in State.reset. -/

namespace Sys2Proof.Machine

/-- The default `FONT[0..79]`, 16 glyphs of 5 bytes (10_state.md R33). PRESUMED (log 3): of these bytes the source gives
only the first, the rest is the customary CHIP-8 font. -/
def defaultFont : Vector Byte 80 := #v[
  0xF0, 0x90, 0x90, 0x90, 0xF0,  0x20, 0x60, 0x20, 0x20, 0x70,
  0xF0, 0x10, 0xF0, 0x80, 0xF0,  0xF0, 0x10, 0xF0, 0x10, 0xF0,
  0x90, 0x90, 0xF0, 0x10, 0x10,  0xF0, 0x80, 0xF0, 0x10, 0xF0,
  0xF0, 0x80, 0xF0, 0x90, 0xF0,  0xF0, 0x10, 0x20, 0x40, 0x40,
  0xF0, 0x90, 0xF0, 0x90, 0xF0,  0xF0, 0x90, 0xF0, 0x10, 0xF0,
  0xF0, 0x90, 0xF0, 0x90, 0x90,  0xE0, 0x90, 0xE0, 0x90, 0xE0,
  0xF0, 0x80, 0x80, 0x80, 0xF0,  0xE0, 0x90, 0x90, 0x90, 0xE0,
  0xF0, 0x80, 0xF0, 0x80, 0xF0,  0xF0, 0x80, 0xF0, 0x80, 0x80]

/-- The parameters State.reset has. `PROFILE = MIN` is the spec's default (00_scope.md R7, R9). DESIGN CHOICE (log 2):
the quirks have the values 47_ext_flow_alu.md R200 suggests. DESIGN CHOICE (log 13): the two rates, on which no rule of
the functional model depends. -/
def defaultParams : Params where
  profile := .min
  shiftSrc := .vy
  logicVF := .reset
  memI := .increment
  clkHz := 6000
  ips := 600
  font := defaultFont

/-- What a memory byte that is not listed reads as: the reset contents for the empty image, zero but for the font
(10_state.md R32, R33; log 3). -/
def resetByte (a : Nat) : Byte :=
  if Config.fontBase ≤ a ∧ a < Config.fontBase + 80 then defaultFont.toList.getD (a - Config.fontBase) 0 else 0

end Sys2Proof.Machine
end

