-- ==== Sys2Proof/Machine/State.lean ====
section
/-! DEFINITION. The state of the core (10_state.md), the reasons a step stops, and the state after reset. -/

namespace Sys2Proof.Machine

/-- `MEM`: the bytes that differ from `resetByte`, addresses strictly rising (see `Mem.wf` in Ops.lean). -/
abbrev Mem := List Host.Cell

/-- `DISP[py][px]`: 32 rows of 64 pixels, `true` = on (10_state.md R31). -/
abbrev Display := Vector (Vector Bool 64) 32

/-- `RUN` (10_state.md R34). -/
inductive RunState where
  | running
  | faulted
  | stopped
  deriving DecidableEq, Repr

/-- `FAULT.cause` by name (10_state.md R35, 60_exceptions.md R265). -/
inductive FaultCause where
  | none
  | boundsFault
  | stackUnderflow
  | stackOverflow
  deriving DecidableEq, Repr

/-- `FAULT` (10_state.md R35); `instr` is `none` when the fetch itself faulted. -/
structure FaultRecord where
  cause : FaultCause
  addr : Nat
  pc : Word
  instr : Option Word
  deriving DecidableEq, Repr

/-- An entry `(pc, op)` of `DIAG` (10_state.md R40). -/
structure Report where
  pc : Word
  op : Word
  deriving DecidableEq, Repr

/-- What happens next, as the schedule of 50_clock_and_timers.md R173 chooses it (log 5). The input lines stand in the
move that samples them (10_state.md R45). -/
inductive Move where
  /-- One instruction step (40_step_cycle.md R120). -/
  | instruction
  /-- One timer tick (50_clock_and_timers.md R171). -/
  | tick (keysIn : Keys) (quitIn : Bool)
  /-- One rising edge of `clk` (50_clock_and_timers.md R174, R175). -/
  | clockEdge (keysIn : Keys) (quitIn : Bool)
  /-- `RESET_IN(IMAGE)` (70_reset_and_hazards.md R290). -/
  | reset (image : List Byte)
  deriving DecidableEq, Repr

/-- The rounds still to come once the schedule is used up (log 5). -/
inductive Rounds where
  /-- The free rounds from number `k` on: whatever interleaving there is. -/
  | free (k : Nat)
  /-- One round repeated, for a run in which every input is given. -/
  | same (r : Round)
  deriving DecidableEq, Repr

/-- Everything the spec gives the core, and the model's own `params`, `draws`, `schedule` and `rounds`. -/
structure State where
  /-- The open parameters (log 1); no step changes them. -/
  params : Params
  /-- `V[0..15]` (10_state.md R20). -/
  v : Vector Byte 16
  /-- The index register `I` (10_state.md R22). -/
  i : Word
  /-- The program counter (10_state.md R23). -/
  pc : Word
  /-- The delay timer `DT` (10_state.md R25). -/
  dt : Byte
  /-- The sound timer `ST` (10_state.md R26). -/
  st : Byte
  /-- `STACK[0 .. SP-1]`, the most recent entry last (10_state.md R27; log 10). -/
  stack : List Word
  /-- The display buffer (10_state.md R31). -/
  disp : Display
  /-- The memory (10_state.md R32). -/
  mem : Mem
  /-- The keypad latch (10_state.md R36). -/
  keys : Keys
  /-- The run state (10_state.md R34). -/
  run : RunState
  /-- The fault record (10_state.md R35). -/
  fault : FaultRecord
  /-- The frames handed out so far, in order (10_state.md R38). -/
  frames : List Display
  /-- The diagnostic log (10_state.md R40). -/
  diag : List Report
  /-- The divider of the timer tick (50_clock_and_timers.md R174). -/
  tdiv : Nat
  /-- The divider of the instruction clock (50_clock_and_timers.md R175). -/
  idiv : Nat
  /-- How many random bytes have been drawn (log 4). -/
  draws : Nat
  /-- The moves to come; when it is empty a new round begins (log 5). -/
  schedule : List Move
  /-- The rounds the clocks go on in after the schedule (log 5). -/
  rounds : Rounds
  deriving DecidableEq, Repr

/-- Why the machine has no step. Neither is raised by an instruction. -/
inductive Fault where
  /-- A step is asked of a core in FAULTED and no reset request is to come: neither agent has a step (10_state.md R34,
  40_step_cycle.md R126; log 7). Safe: nothing is claimed of a state after it. -/
  | coreFaulted
  /-- The same in STOPPED (10_state.md R34, 50_clock_and_timers.md R177; log 7). Safe. -/
  | coreStopped
  deriving DecidableEq, Repr

/-- What the model refuses. -/
inductive Refusal where
  /-- An instruction that has no meaning yet, named as the opcode table names it. Raised by no arm of exec. Safe. -/
  | notModelled (mnemonic : String)
  /-- A reset request with an image of more than 3584 bytes: the host refuses it and no engine state is constructed
  (70_reset_and_hazards.md R292; log 14). Safe. -/
  | imageTooLong (length : Nat)
  /-- A reset request with an image of odd length: the spec refuses it too (70_reset_and_hazards.md R292; log 14). Safe. -/
  | imageOddLength (length : Nat)
  deriving DecidableEq, Repr

/-- What a meaning and a step answer. -/
abbrev Result := Host.Outcome State Fault Refusal

/-- `FAULT` at reset: cause 0 (10_state.md R44); DESIGN CHOICE (log 9): the fields the spec leaves unspecified are 0. -/
def FaultRecord.clear : FaultRecord := ⟨.none, 0, 0, none⟩

/-- Every piece of state at its reset value (10_state.md R44), for given parameters and memory contents; `draws`,
`schedule` and `rounds` are the model's own and are handed in. -/
def State.resetWith (params : Params) (mem : Mem) (draws : Nat) (schedule : List Move) (rounds : Rounds) : State where
  params := params
  v := Vector.replicate 16 0
  i := 0
  pc := 0x200
  dt := 0
  st := 0
  stack := []
  disp := Vector.replicate 32 (Vector.replicate 64 false)
  mem := mem
  keys := Vector.replicate 16 false
  run := .running
  fault := FaultRecord.clear
  frames := []
  diag := []
  tdiv := params.tickDiv - 1
  idiv := params.instrDiv - 1
  draws := draws
  schedule := schedule
  rounds := rounds

/-- The machine right after a reset with the empty image and the default parameters (10_state.md R44,
70_reset_and_hazards.md R290, R292). -/
def State.reset : State := State.resetWith defaultParams [] 0 [] (.free 0)

end Sys2Proof.Machine
end

