-- ==== Sys2Proof/Machine/Ops.lean ====
section
/-! DEFINITION. The named operations over the state: registers, memory, call stack, display, log, and the entry into a
fatal fault, which nothing returns from (60_exceptions.md R269). -/

namespace Sys2Proof.Machine

/-! ### Registers and timers -/

/-- `V[r]` (00_scope.md R14). -/
def State.getV (s : State) (r : RegIdx) : Byte := s.v[r.toNat]

/-- `V[r] <- b` (00_scope.md R14). -/
def State.setV (s : State) (r : RegIdx) (b : Byte) : State := { s with v := s.v.set r.toNat b }

/-- `I <- a`. -/
def State.setI (s : State) (a : Word) : State := { s with i := a }

/-- `pc <- a`. -/
def State.setPc (s : State) (a : Word) : State := { s with pc := a }

/-- `pc <- pc + 2`, the update of every instruction that transfers no control (40_step_cycle.md R124; log 11). -/
def State.advance (s : State) : State := s.setPc (s.pc + 2)

/-- `if c: pc <- pc + 4 else: pc <- pc + 2` (47_ext_flow_alu.md R203). -/
def State.skipIf (s : State) (c : Bool) : State := s.setPc (if c then s.pc + 4 else s.pc + 2)

/-- `DT <- b`. -/
def State.setDT (s : State) (b : Byte) : State := { s with dt := b }

/-- `ST <- b`. -/
def State.setST (s : State) (b : Byte) : State := { s with st := b }

/-- The output `SOUND` (10_state.md R39; log 19). -/
def State.sound (s : State) : Bool := decide (s.st ≠ 0)

/-- The output line of one key of the latch (10_state.md R36). -/
def State.key (s : State) (k : Nibble) : Bool := s.keys[k.toNat]

/-- `SP` (10_state.md R27). -/
def State.sp (s : State) : Nat := s.stack.length

/-! ### Memory -/

/-- The byte at `a`: the listed one, or what an unlisted address reads as. -/
def Mem.read : Mem → Nat → Byte
  | [], a => resetByte a
  | c :: m, a => if c.1 = a then c.2 else Mem.read m a

/-- `m` without any entry for `a`. -/
def Mem.erase : Mem → Nat → Mem
  | [], _ => []
  | c :: m, a => if c.1 = a then Mem.erase m a else c :: Mem.erase m a

/-- `c` before the first entry of a higher address. -/
def Mem.insert : Mem → Host.Cell → Mem
  | [], c => [c]
  | d :: m, c => if c.1 < d.1 then c :: d :: m else d :: Mem.insert m c

/-- `m` with the byte `b` at `a`, in canonical form: a byte equal to what an unlisted address reads as is not listed. -/
def Mem.write (m : Mem) (a : Nat) (b : Byte) : Mem :=
  if b = resetByte a then m.erase a else (m.erase a).insert (a, b)

/-- The canonical form above an address bound: addresses strictly rising from `lo`, below `MEM_SIZE`, no entry equal to
what an unlisted address reads as. -/
def Mem.wfFrom : Nat → Mem → Bool
  | _, [] => true
  | lo, c :: m => decide (lo ≤ c.1 ∧ c.1 < Config.memSize ∧ c.2 ≠ resetByte c.1) && Mem.wfFrom (c.1 + 1) m

/-- The canonical form of memory. -/
def Mem.wf (m : Mem) : Bool := m.wfFrom 0

/-- `MEM[base + j] <- bytes[j]` for every `j`, in increasing order (70_reset_and_hazards.md R290). -/
def Mem.load (m : Mem) (base : Nat) : List Byte → Mem
  | [] => m
  | b :: bs => Mem.load (m.write base b) (base + 1) bs

/-- What `raise` records beside `FAULT.pc` and `FAULT.instr` (00_scope.md R14). -/
structure Raise where
  cause : FaultCause
  addr : Nat
  deriving DecidableEq, Repr

/-- `MemRead(addr, 1)` (20_memory.md R61). -/
def memRead (s : State) (a : Nat) : Except Raise Byte :=
  if 0xFFF < a then .error ⟨.boundsFault, a⟩ else .ok (s.mem.read a)

/-- `MemWrite(addr, 1, v)` (20_memory.md R62). -/
def memWrite (s : State) (a : Nat) (b : Byte) : Except Raise State :=
  if 0xFFF < a then .error ⟨.boundsFault, a⟩ else .ok { s with mem := s.mem.write a b }

/-! ### Call stack -/

/-- `StackPush(a)` (10_state.md R29). -/
def stackPush (s : State) (a : Word) : Except Raise State :=
  if Config.stackDepth ≤ s.stack.length then .error ⟨.stackOverflow, s.pc.toNat⟩
  else .ok { s with stack := s.stack ++ [a] }

/-- `StackPop()`: the entry that was most recent, and the state without it (10_state.md R30). -/
def stackPop (s : State) : Except Raise (Word × State) :=
  match s.stack.getLast? with
  | none => .error ⟨.stackUnderflow, s.pc.toNat⟩
  | some a => .ok (a, { s with stack := s.stack.dropLast })

/-! ### Display -/

/-- A display with every pixel off. -/
def blankDisplay : Display := Vector.replicate 32 (Vector.replicate 64 false)

/-- `DISP[py][px] = 1` (00_scope.md R14). -/
def State.pixel (s : State) (px : Fin 64) (py : Fin 32) : Bool := s.disp[py.val][px.val]

/-- `DISP[py][px] <- 0` for every pixel (41_clear_display.md R130). -/
def State.clearDisplay (s : State) : State := { s with disp := blankDisplay }

/-- `DISP[py][px] <- DISP[py][px] ^ 1` (44_draw_sprite.md R150). -/
def State.togglePixel (s : State) (px : Fin 64) (py : Fin 32) : State :=
  { s with disp := s.disp.set py.val (s.disp[py.val].set px.val (!s.disp[py.val][px.val])) }

/-! ### Reports and faults -/

/-- `report Unimplemented(pc, op)` (45_unimplemented.md R160). -/
def State.report (s : State) (op : Word) : State := { s with diag := s.diag ++ [⟨s.pc, op⟩] }

/-- The code of `FAULT.cause` (60_exceptions.md R265). -/
def FaultCause.code : FaultCause → BitVec 2
  | .none => 0
  | .boundsFault => 1
  | .stackUnderflow => 2
  | .stackOverflow => 3

/-- Entry into a fatal fault: `FAULT` is written, `RUN <- FAULTED`, nothing else changes and `pc` keeps the address of the
faulting instruction (60_exceptions.md R266). `op` is the instruction's word, or none for a fetch (40_step_cycle.md R121). -/
def State.takeFault (s : State) (op : Option Word) (f : Raise) : State :=
  { s with run := .faulted, fault := ⟨f.cause, f.addr, s.pc, op⟩ }

/-- The end of an instruction whose statements may raise: the state reached and the raise, or the state from which the
program counter is still to be updated by `next` (40_step_cycle.md R124, 60_exceptions.md R266, R267). -/
def conclude (op : Word) (next : State → State) : Except (State × Raise) State → Result
  | .error (s, f) => .next (s.takeFault (some op) f)
  | .ok s => .next (next s)

end Sys2Proof.Machine
end

