-- ==== Sys2Proof/Machine/Flags.lean ====
section
/-! DEFINITION. Every flag computation: `VF` is the only flag (10_state.md R21). -/

namespace Sys2Proof.Machine

/-- A flag as the byte `VF` holds. -/
def flagByte (f : Bool) : Byte := if f then 1 else 0

/-- `V[x] <- result` and then `VF <- flag`, so that for `x = 15` the flag stays (47_ext_flow_alu.md R219). -/
def State.setWithFlag (s : State) (x : RegIdx) (result : Byte) (flag : Bool) : State :=
  (s.setV x result).setV regF (flagByte flag)

/-- The carry out of bit 7: the sum exceeds 255 (47_ext_flow_alu.md R210). -/
def carry (a b : Byte) : Bool := decide (255 < a.toNat + b.toNat)

/-- No borrow in `a - b` (47_ext_flow_alu.md R211). -/
def noBorrow (a b : Byte) : Bool := decide (b.toNat ≤ a.toNat)

/-- The bit `SHR` shifts out (47_ext_flow_alu.md R212). -/
def bitOutRight (b : Byte) : Bool := b.getLsbD 0

/-- The bit `SHL` shifts out (47_ext_flow_alu.md R214). -/
def bitOutLeft (b : Byte) : Bool := b.getLsbD 7

/-- `if Q_LOGIC_VF == RESET: V[15] <- 0` (47_ext_flow_alu.md R207). -/
def State.logicFlag (s : State) : State :=
  match s.params.logicVF with
  | .reset => s.setV regF 0
  | .keep => s

/-- `V[15] <- 1` when a pixel about to be toggled is on (44_draw_sprite.md R150, R154). -/
def State.flagCollision (s : State) (px : Fin 64) (py : Fin 32) : State :=
  if s.pixel px py then s.setV regF 1 else s

end Sys2Proof.Machine
end

