-- ==== Sys2Proof/Machine/Operands.lean ====
section
/-! DEFINITION. The operand forms: immediates, key and glyph selection, sprite coordinates and bits, decimal digits,
shift source, random byte. -/

namespace Sys2Proof.Machine

/-- `zext_16(nnn)` (30_encoding.md R94). -/
def zext16 (nnn : Addr12) : Word := nnn.zeroExtend 16

/-- The key or glyph a byte selects: its low nibble (48_ext_mem_key_timer.md R230, R237). -/
def lowNibble (b : Byte) : Nibble := b.extractLsb' 0 4

/-- The start column `V[x] mod 64` (44_draw_sprite.md R150). -/
def startColumn (b : Byte) : Nat := b.toNat % 64

/-- The start row `V[y] mod 32` (44_draw_sprite.md R150). -/
def startRow (b : Byte) : Nat := b.toNat % 32

/-- `(byte >> (7 - c)) & 1` (44_draw_sprite.md R150). -/
def spriteBit (byte : Byte) (c : Nat) : Bool := byte.getLsbD (7 - c)

/-- `(x0 + c) mod 64` (44_draw_sprite.md R152). -/
def wrapColumn (x0 c : Nat) : Fin 64 := Fin.ofNat 64 (x0 + c)

/-- `(y0 + r) mod 32` (44_draw_sprite.md R152). -/
def wrapRow (y0 r : Nat) : Fin 32 := Fin.ofNat 32 (y0 + r)

/-- The address `I + k`, a natural number that is never reduced (00_scope.md R13, 48_ext_mem_key_timer.md R241). -/
def State.indexed (s : State) (k : Nat) : Nat := s.i.toNat + k

/-- `0x050 + 5 * (b & 0xF)` (48_ext_mem_key_timer.md R237). -/
def glyphAddress (b : Byte) : Word := BitVec.ofNat 16 (Config.fontBase + 5 * (lowNibble b).toNat)

/-- `v / 100` (48_ext_mem_key_timer.md R238). -/
def hundreds (b : Byte) : Byte := BitVec.ofNat 8 (b.toNat / 100)

/-- `(v / 10) mod 10` (48_ext_mem_key_timer.md R238). -/
def tens (b : Byte) : Byte := BitVec.ofNat 8 (b.toNat / 10 % 10)

/-- `v mod 10` (48_ext_mem_key_timer.md R238). -/
def ones (b : Byte) : Byte := BitVec.ofNat 8 (b.toNat % 10)

/-- The register `8xy6` and `8xyE` shift, by `Q_SHIFT_SRC` (47_ext_flow_alu.md R212, R214). -/
def State.shiftOperand (s : State) (x y : RegIdx) : Byte :=
  match s.params.shiftSrc with
  | .vy => s.getV y
  | .vx => s.getV x

/-- The register of loop index `k` of `Fx55` and `Fx65`. -/
def loopReg (k : Nat) : RegIdx := BitVec.ofNat 4 k

/-- `I <- (I + x + 1) mod 65536` when `Q_MEM_I = INCREMENT` (48_ext_mem_key_timer.md R239, R240). -/
def State.advanceI (s : State) (x : RegIdx) : State :=
  match s.params.memI with
  | .increment => s.setI (BitVec.ofNat 16 (s.i.toNat + x.toNat + 1))
  | .keep => s

/-- The least latched key, if any (48_ext_mem_key_timer.md R233). -/
def State.leastKey (s : State) : Option Nat := (List.range 16).find? (fun k => s.key (BitVec.ofNat 4 k))

/-- A random draw (47_ext_flow_alu.md R217; log 4): the byte, and the state whose next draw is another. -/
def State.draw (s : State) : Byte × State := (Config.randomByte s.draws, { s with draws := s.draws + 1 })

end Sys2Proof.Machine
end

