-- ==== Sys2Proof/Machine/Alu.lean ====
section
/-! DEFINITION. Register-to-register operations and the random byte (47_ext_flow_alu.md R207 to R214, R217). -/

namespace Sys2Proof.Machine

/-- `8xy1` OR Vx, Vy (47_ext_flow_alu.md R207). -/
def execOrReg (x y : RegIdx) (s : State) : Result :=
  .next (s.setV x (s.getV x ||| s.getV y)).logicFlag.advance

/-- `8xy2` AND Vx, Vy (47_ext_flow_alu.md R208). -/
def execAndReg (x y : RegIdx) (s : State) : Result :=
  .next (s.setV x (s.getV x &&& s.getV y)).logicFlag.advance

/-- `8xy3` XOR Vx, Vy (47_ext_flow_alu.md R209). -/
def execXorReg (x y : RegIdx) (s : State) : Result :=
  .next (s.setV x (s.getV x ^^^ s.getV y)).logicFlag.advance

/-- `8xy4` ADD Vx, Vy (47_ext_flow_alu.md R210). -/
def execAddReg (x y : RegIdx) (s : State) : Result :=
  .next (s.setWithFlag x (s.getV x + s.getV y) (carry (s.getV x) (s.getV y))).advance

/-- `8xy5` SUB Vx, Vy (47_ext_flow_alu.md R211). -/
def execSubReg (x y : RegIdx) (s : State) : Result :=
  .next (s.setWithFlag x (s.getV x - s.getV y) (noBorrow (s.getV x) (s.getV y))).advance

/-- `8xy6` SHR Vx, Vy (47_ext_flow_alu.md R212). -/
def execShrReg (x y : RegIdx) (s : State) : Result :=
  .next (s.setWithFlag x (s.shiftOperand x y >>> 1) (bitOutRight (s.shiftOperand x y))).advance

/-- `8xy7` SUBN Vx, Vy (47_ext_flow_alu.md R213). -/
def execSubnReg (x y : RegIdx) (s : State) : Result :=
  .next (s.setWithFlag x (s.getV y - s.getV x) (noBorrow (s.getV y) (s.getV x))).advance

/-- `8xyE` SHL Vx, Vy (47_ext_flow_alu.md R214). -/
def execShlReg (x y : RegIdx) (s : State) : Result :=
  .next (s.setWithFlag x (s.shiftOperand x y <<< 1) (bitOutLeft (s.shiftOperand x y))).advance

/-- `Cxnn` RND Vx, nn (47_ext_flow_alu.md R217). -/
def execRnd (x : RegIdx) (nn : Byte) (s : State) : Result :=
  .next (s.draw.2.setV x (s.draw.1 &&& nn)).advance

end Sys2Proof.Machine
end

