-- ==== Sys2Proof/WellFormed.lean ====
section
/-! DEFINITION. Well-formed instructions. Every operand has the type of its field, so no operand value can be
ill-formed (30_encoding.md R94); what remains to check is that the profile in force has the instruction's row
(30_encoding.md R95, R99). -/

namespace Sys2Proof

/-- The profile whose opcode map first has the instruction (column "profile" of spec/opcode_table.json). -/
def Instr.profile : Instr → Profile
  | .cls => .min
  | .jp _ => .min
  | .ldImm _ _ => .min
  | .addImm _ _ => .min
  | .ldI _ => .min
  | .drw _ _ _ => .min
  | .ret => .full
  | .call _ => .full
  | .seImm _ _ => .full
  | .sneImm _ _ => .full
  | .seReg _ _ => .full
  | .ldReg _ _ => .full
  | .orReg _ _ => .full
  | .andReg _ _ => .full
  | .xorReg _ _ => .full
  | .addReg _ _ => .full
  | .subReg _ _ => .full
  | .shrReg _ _ => .full
  | .subnReg _ _ => .full
  | .shlReg _ _ => .full
  | .sneReg _ _ => .full
  | .jpV0 _ => .full
  | .rnd _ _ => .full
  | .skp _ => .full
  | .sknp _ => .full
  | .ldVxDT _ => .full
  | .ldVxK _ => .full
  | .ldDTVx _ => .full
  | .ldSTVx _ => .full
  | .addIVx _ => .full
  | .ldFVx _ => .full
  | .ldBVx _ => .full
  | .storeRegs _ => .full
  | .loadRegs _ => .full

/-- A row of profile `r` is in the opcode map of profile `p`: `full` extends `min` (30_encoding.md R99). -/
def Profile.has (p r : Profile) : Bool := decide (r = .min ∨ p = .full)

/-- The instruction has a dispatcher entry under profile `p`. -/
def Instr.wf (p : Profile) (i : Instr) : Bool := p.has i.profile

end Sys2Proof
end

