-- ==== Sys2Proof/Decode.lean ====
section
/-! DEFINITION. The instruction decoder and encoder of 30_encoding.md: fields, opcode map, formats; and the layout of an
instruction word as the bytes the fetch reads. -/

namespace Sys2Proof

/-- `byte1 ++ byte2`, the first byte more significant (20_memory.md R65, 30_encoding.md R90). -/
def wordOfBytes (byte1 byte2 : Byte) : Word := byte1 ++ byte2

/-- `op[15:8]`, the byte at the lower address (20_memory.md R65). -/
def highByte (op : Word) : Byte := op.extractLsb' 8 8

/-- `op[7:0]`, the byte at the higher address (20_memory.md R65). -/
def lowByte (op : Word) : Byte := op.extractLsb' 0 8

/-- The fields the decoder produces for every word (30_encoding.md R91). -/
structure Fields where
  n1 : Nibble
  x : RegIdx
  y : RegIdx
  n : Nibble
  nn : Byte
  nnn : Addr12
  deriving DecidableEq, Repr

/-- Decoding into fields: pure and total (30_encoding.md R91, R92). -/
def fieldsOf (op : Word) : Fields where
  n1 := op.extractLsb' 12 4
  x := op.extractLsb' 8 4
  y := op.extractLsb' 4 4
  n := op.extractLsb' 0 4
  nn := op.extractLsb' 0 8
  nnn := op.extractLsb' 0 12

/-- One row of the opcode map; the row's `match` is called `pattern` here. -/
structure Row where
  mnemonic : String
  profile : Profile
  pattern : Word
  mask : Word
  build : Fields → Instr

/-- The opcode map of `PROFILE = MIN` (30_encoding.md R95). -/
def minRows : List Row := [
  ⟨"CLS", .min, 0x00E0, 0xFFFF, fun _ => .cls⟩,
  ⟨"JP_nnn", .min, 0x1000, 0xF000, fun f => .jp f.nnn⟩,
  ⟨"LD_Vx__nn", .min, 0x6000, 0xF000, fun f => .ldImm f.x f.nn⟩,
  ⟨"ADD_Vx__nn", .min, 0x7000, 0xF000, fun f => .addImm f.x f.nn⟩,
  ⟨"LD_I__nnn", .min, 0xA000, 0xF000, fun f => .ldI f.nnn⟩,
  ⟨"DRW_Vx__Vy__n", .min, 0xD000, 0xF000, fun f => .drw f.x f.y f.n⟩]

/-- The rows `PROFILE = FULL` adds in 47_ext_flow_alu.md (30_encoding.md R99). -/
def flowAluRows : List Row := [
  ⟨"RET", .full, 0x00EE, 0xFFFF, fun _ => .ret⟩,
  ⟨"CALL_nnn", .full, 0x2000, 0xF000, fun f => .call f.nnn⟩,
  ⟨"SE_Vx__nn", .full, 0x3000, 0xF000, fun f => .seImm f.x f.nn⟩,
  ⟨"SNE_Vx__nn", .full, 0x4000, 0xF000, fun f => .sneImm f.x f.nn⟩,
  ⟨"SE_Vx__Vy", .full, 0x5000, 0xF00F, fun f => .seReg f.x f.y⟩,
  ⟨"LD_Vx__Vy", .full, 0x8000, 0xF00F, fun f => .ldReg f.x f.y⟩,
  ⟨"OR_Vx__Vy", .full, 0x8001, 0xF00F, fun f => .orReg f.x f.y⟩,
  ⟨"AND_Vx__Vy", .full, 0x8002, 0xF00F, fun f => .andReg f.x f.y⟩,
  ⟨"XOR_Vx__Vy", .full, 0x8003, 0xF00F, fun f => .xorReg f.x f.y⟩,
  ⟨"ADD_Vx__Vy", .full, 0x8004, 0xF00F, fun f => .addReg f.x f.y⟩,
  ⟨"SUB_Vx__Vy", .full, 0x8005, 0xF00F, fun f => .subReg f.x f.y⟩,
  ⟨"SHR_Vx__Vy", .full, 0x8006, 0xF00F, fun f => .shrReg f.x f.y⟩,
  ⟨"SUBN_Vx__Vy", .full, 0x8007, 0xF00F, fun f => .subnReg f.x f.y⟩,
  ⟨"SHL_Vx__Vy", .full, 0x800E, 0xF00F, fun f => .shlReg f.x f.y⟩,
  ⟨"SNE_Vx__Vy", .full, 0x9000, 0xF00F, fun f => .sneReg f.x f.y⟩,
  ⟨"JP_V0__nnn", .full, 0xB000, 0xF000, fun f => .jpV0 f.nnn⟩,
  ⟨"RND_Vx__nn", .full, 0xC000, 0xF000, fun f => .rnd f.x f.nn⟩]

/-- The rows `PROFILE = FULL` adds in 48_ext_mem_key_timer.md (30_encoding.md R99). -/
def memKeyTimerRows : List Row := [
  ⟨"SKP_Vx", .full, 0xE09E, 0xF0FF, fun f => .skp f.x⟩,
  ⟨"SKNP_Vx", .full, 0xE0A1, 0xF0FF, fun f => .sknp f.x⟩,
  ⟨"LD_Vx__DT", .full, 0xF007, 0xF0FF, fun f => .ldVxDT f.x⟩,
  ⟨"LD_Vx__K", .full, 0xF00A, 0xF0FF, fun f => .ldVxK f.x⟩,
  ⟨"LD_DT__Vx", .full, 0xF015, 0xF0FF, fun f => .ldDTVx f.x⟩,
  ⟨"LD_ST__Vx", .full, 0xF018, 0xF0FF, fun f => .ldSTVx f.x⟩,
  ⟨"ADD_I__Vx", .full, 0xF01E, 0xF0FF, fun f => .addIVx f.x⟩,
  ⟨"LD_F__Vx", .full, 0xF029, 0xF0FF, fun f => .ldFVx f.x⟩,
  ⟨"LD_B__Vx", .full, 0xF033, 0xF0FF, fun f => .ldBVx f.x⟩,
  ⟨"LD__I___Vx", .full, 0xF055, 0xF0FF, fun f => .storeRegs f.x⟩,
  ⟨"LD_Vx___I", .full, 0xF065, 0xF0FF, fun f => .loadRegs f.x⟩]

/-- The opcode map, 6 + 28 rows (30_encoding.md R95, R99). -/
def opcodeTable : List Row := minRows ++ flowAluRows ++ memKeyTimerRows

/-- `op & mask = match` for a row the profile has (30_encoding.md R95). -/
def Row.selects (p : Profile) (op : Word) (r : Row) : Bool := p.has r.profile && decide (op &&& r.mask = r.pattern)

/-- What dispatch selects for a word (40_step_cycle.md R123): a defined operation, or the rule of 45_unimplemented.md. -/
inductive Decoded where
  | instr (i : Instr)
  | unimplemented (op : Word)
  deriving DecidableEq, Repr

/-- Decode and select, for every 16-bit word (30_encoding.md R92, R95, R96, R99). -/
def decode (p : Profile) (op : Word) : Decoded :=
  match opcodeTable.find? (Row.selects p op) with
  | some r => .instr (r.build (fieldsOf op))
  | none => .unimplemented op

/-- Why a byte string does not begin with an instruction: fewer than two bytes, or a word with no dispatcher entry. -/
inductive DecodeReject where
  | truncated
  | unimplemented (op : Word)
  deriving DecidableEq, Repr

/-- The instruction at the head of a byte string, and the bytes after it (30_encoding.md R90: always two bytes). -/
def decodeBytes (p : Profile) : List Byte → Except DecodeReject (Instr × List Byte)
  | b1 :: b2 :: rest =>
    match decode p (wordOfBytes b1 b2) with
    | .instr i => .ok (i, rest)
    | .unimplemented op => .error (.unimplemented op)
  | _ => .error .truncated

/-- Format `NNN` (30_encoding.md R93). -/
def formatNNN (n1 : Nibble) (nnn : Addr12) : Word := n1 ++ nnn

/-- Formats `XNN` and, with a fixed low byte, `X` (30_encoding.md R93). -/
def formatXNN (n1 : Nibble) (x : RegIdx) (nn : Byte) : Word := n1 ++ x ++ nn

/-- Formats `XYN` and, with a fixed low nibble, `XY` (30_encoding.md R93). -/
def formatXYN (n1 : Nibble) (x y : RegIdx) (n : Nibble) : Word := n1 ++ x ++ y ++ n

/-- The word of an instruction: its format with its fixed fields (30_encoding.md R93, R95, R99). -/
def encode : Instr → Word
  | .cls => 0x00E0
  | .jp nnn => formatNNN 0x1 nnn
  | .ldImm x nn => formatXNN 0x6 x nn
  | .addImm x nn => formatXNN 0x7 x nn
  | .ldI nnn => formatNNN 0xA nnn
  | .drw x y n => formatXYN 0xD x y n
  | .ret => 0x00EE
  | .call nnn => formatNNN 0x2 nnn
  | .seImm x nn => formatXNN 0x3 x nn
  | .sneImm x nn => formatXNN 0x4 x nn
  | .seReg x y => formatXYN 0x5 x y 0x0
  | .ldReg x y => formatXYN 0x8 x y 0x0
  | .orReg x y => formatXYN 0x8 x y 0x1
  | .andReg x y => formatXYN 0x8 x y 0x2
  | .xorReg x y => formatXYN 0x8 x y 0x3
  | .addReg x y => formatXYN 0x8 x y 0x4
  | .subReg x y => formatXYN 0x8 x y 0x5
  | .shrReg x y => formatXYN 0x8 x y 0x6
  | .subnReg x y => formatXYN 0x8 x y 0x7
  | .shlReg x y => formatXYN 0x8 x y 0xE
  | .sneReg x y => formatXYN 0x9 x y 0x0
  | .jpV0 nnn => formatNNN 0xB nnn
  | .rnd x nn => formatXNN 0xC x nn
  | .skp x => formatXNN 0xE x 0x9E
  | .sknp x => formatXNN 0xE x 0xA1
  | .ldVxDT x => formatXNN 0xF x 0x07
  | .ldVxK x => formatXNN 0xF x 0x0A
  | .ldDTVx x => formatXNN 0xF x 0x15
  | .ldSTVx x => formatXNN 0xF x 0x18
  | .addIVx x => formatXNN 0xF x 0x1E
  | .ldFVx x => formatXNN 0xF x 0x29
  | .ldBVx x => formatXNN 0xF x 0x33
  | .storeRegs x => formatXNN 0xF x 0x55
  | .loadRegs x => formatXNN 0xF x 0x65

/-- The two bytes of a word in address order (20_memory.md R65). -/
def bytesOfWord (op : Word) : List Byte := [highByte op, lowByte op]

/-- The word of an instruction given as a number, its bits numbered as spec/opcode_table.json numbers them; bits at and
above `nbits` are 0. -/
def tableWord (nbits w : Nat) : Word := BitVec.ofNat 16 (w % 2 ^ nbits)

/-- What the decoder of the whole opcode map reads from that word, laid out as its bytes stand in memory. -/
def decodeTableWord (nbits w : Nat) : Option Instr :=
  match decodeBytes .full (bytesOfWord (tableWord nbits w)) with
  | .ok (i, _) => some i
  | .error _ => none

end Sys2Proof
end

