-- ==== Sys2Proof/Machine/Draw.lean ====
section
/-! DEFINITION. The display instructions `00E0` and `Dxyn` (41_clear_display.md, 44_draw_sprite.md). -/

namespace Sys2Proof.Machine

/-- One sprite bit equal to 1: the collision flag, then the toggle (44_draw_sprite.md R150). -/
def State.drawPixel (s : State) (px : Fin 64) (py : Fin 32) : State := (s.flagCollision px py).togglePixel px py

/-- The columns of one sprite row, in order; a bit equal to 0 leaves its pixel untouched (44_draw_sprite.md R150). -/
def drawColumns (byte : Byte) (x0 : Nat) (py : Fin 32) : List Nat → State → State
  | [], s => s
  | c :: cs, s =>
    drawColumns byte x0 py cs (if spriteBit byte c then s.drawPixel (wrapColumn x0 c) py else s)

/-- The rows of a sprite, in order: each byte is read, then drawn; a bounds fault leaves the earlier rows drawn
(44_draw_sprite.md R150, R155). -/
def drawRows (x0 y0 : Nat) : List Nat → State → Except (State × Raise) State
  | [], s => .ok s
  | r :: rs, s =>
    match memRead s (s.indexed r) with
    | .error f => .error (s, f)
    | .ok byte => drawRows x0 y0 rs (drawColumns byte x0 (wrapRow y0 r) (List.range 8) s)

/-- `00E0` CLS (41_clear_display.md R130). -/
def execCls (s : State) : Result := .next s.clearDisplay.advance

/-- `Dxyn` DRW Vx, Vy, n (44_draw_sprite.md R150): the coordinates are read before `VF` is cleared (R151). -/
def execDrw (x y : RegIdx) (n : Nibble) (s : State) : Result :=
  conclude (encode (.drw x y n)) State.advance
    (drawRows (startColumn (s.getV x)) (startRow (s.getV y)) (List.range n.toNat) (s.setV regF 0))

end Sys2Proof.Machine
end

