-- ==== Sys2Proof/Machine/Flow.lean ====
section
/-! DEFINITION. Control flow: jumps, call, return, conditional skips (42_jump.md, 47_ext_flow_alu.md). -/

namespace Sys2Proof.Machine

/-- `1nnn` JP nnn (42_jump.md R135). -/
def execJp (nnn : Addr12) (s : State) : Result := .next (s.setPc (zext16 nnn))

/-- `2nnn` CALL nnn (47_ext_flow_alu.md R201). -/
def execCall (nnn : Addr12) (s : State) : Result :=
  match stackPush s (s.pc + 2) with
  | .error f => .next (s.takeFault (some (encode (.call nnn))) f)
  | .ok t => .next (t.setPc (zext16 nnn))

/-- `00EE` RET (47_ext_flow_alu.md R202). -/
def execRet (s : State) : Result :=
  match stackPop s with
  | .error f => .next (s.takeFault (some (encode .ret)) f)
  | .ok (a, t) => .next (t.setPc a)

/-- `3xnn` SE Vx, nn (47_ext_flow_alu.md R203). -/
def execSeImm (x : RegIdx) (nn : Byte) (s : State) : Result := .next (s.skipIf (decide (s.getV x = nn)))

/-- `4xnn` SNE Vx, nn (47_ext_flow_alu.md R204). -/
def execSneImm (x : RegIdx) (nn : Byte) (s : State) : Result := .next (s.skipIf (decide (s.getV x ≠ nn)))

/-- `5xy0` SE Vx, Vy (47_ext_flow_alu.md R205). -/
def execSeReg (x y : RegIdx) (s : State) : Result := .next (s.skipIf (decide (s.getV x = s.getV y)))

/-- `9xy0` SNE Vx, Vy (47_ext_flow_alu.md R215). -/
def execSneReg (x y : RegIdx) (s : State) : Result := .next (s.skipIf (decide (s.getV x ≠ s.getV y)))

/-- `Bnnn` JP V0, nnn (47_ext_flow_alu.md R216): the sum is at most 0x10FE and is not reduced modulo 4096. -/
def execJpV0 (nnn : Addr12) (s : State) : Result :=
  .next (s.setPc (BitVec.ofNat 16 (nnn.toNat + (s.getV 0).toNat)))

end Sys2Proof.Machine
end

