-- ==== Sys2Proof/Machine/IndexMem.lean ====
section
/-! DEFINITION. Index register and memory instructions (48_ext_mem_key_timer.md R236 to R241). -/

namespace Sys2Proof.Machine

/-- The bytes of a list to `MEM[I + k]`, `MEM[I + k + 1]`, ..; a bounds fault leaves the earlier bytes written
(48_ext_mem_key_timer.md R238, R239). -/
def storeBytes : Nat → List Byte → State → Except (State × Raise) State
  | _, [], s => .ok s
  | k, b :: bs, s =>
    match memWrite s (s.indexed k) b with
    | .error f => .error (s, f)
    | .ok t => storeBytes (k + 1) bs t

/-- `V[k] <- MemRead(I + k, 1)` for each `k` of a list, in order; a bounds fault leaves the earlier registers loaded
(48_ext_mem_key_timer.md R240). -/
def loadBytes : List Nat → State → Except (State × Raise) State
  | [], s => .ok s
  | k :: ks, s =>
    match memRead s (s.indexed k) with
    | .error f => .error (s, f)
    | .ok b => loadBytes ks (s.setV (loopReg k) b)

/-- `V[0], .., V[x]`. -/
def State.firstRegs (s : State) (x : RegIdx) : List Byte := (List.range (x.toNat + 1)).map (fun k => s.getV (loopReg k))

/-- `Fx1E` ADD I, Vx (48_ext_mem_key_timer.md R236). -/
def execAddIVx (x : RegIdx) (s : State) : Result :=
  .next (s.setI (s.i + (s.getV x).zeroExtend 16)).advance

/-- `Fx29` LD F, Vx (48_ext_mem_key_timer.md R237). -/
def execLdFVx (x : RegIdx) (s : State) : Result := .next (s.setI (glyphAddress (s.getV x))).advance

/-- `Fx33` LD B, Vx (48_ext_mem_key_timer.md R238). -/
def execLdBVx (x : RegIdx) (s : State) : Result :=
  conclude (encode (.ldBVx x)) State.advance
    (storeBytes 0 [hundreds (s.getV x), tens (s.getV x), ones (s.getV x)] s)

/-- `Fx55` LD [I], Vx (48_ext_mem_key_timer.md R239). -/
def execStoreRegs (x : RegIdx) (s : State) : Result :=
  conclude (encode (.storeRegs x)) (fun t => (t.advanceI x).advance) (storeBytes 0 (s.firstRegs x) s)

/-- `Fx65` LD Vx, [I] (48_ext_mem_key_timer.md R240). -/
def execLoadRegs (x : RegIdx) (s : State) : Result :=
  conclude (encode (.loadRegs x)) (fun t => (t.advanceI x).advance) (loadBytes (List.range (x.toNat + 1)) s)

end Sys2Proof.Machine
end

