-- ==== Sys2Proof/Machine/KeyTimer.lean ====
section
/-! DEFINITION. Keypad and timer instructions (48_ext_mem_key_timer.md R230 to R235). -/

namespace Sys2Proof.Machine

/-- `Ex9E` SKP Vx (48_ext_mem_key_timer.md R230). -/
def execSkp (x : RegIdx) (s : State) : Result := .next (s.skipIf (s.key (lowNibble (s.getV x))))

/-- `ExA1` SKNP Vx (48_ext_mem_key_timer.md R231). -/
def execSknp (x : RegIdx) (s : State) : Result := .next (s.skipIf (!s.key (lowNibble (s.getV x))))

/-- `Fx07` LD Vx, DT (48_ext_mem_key_timer.md R232). -/
def execLdVxDT (x : RegIdx) (s : State) : Result := .next (s.setV x s.dt).advance

/-- `Fx0A` LD Vx, K (48_ext_mem_key_timer.md R233): with no latched key `pc` is unchanged, and the same instruction is
fetched again (log 18). -/
def execLdVxK (x : RegIdx) (s : State) : Result :=
  match s.leastKey with
  | some k => .next (s.setV x (BitVec.ofNat 8 k)).advance
  | none => .next s

/-- `Fx15` LD DT, Vx (48_ext_mem_key_timer.md R234). -/
def execLdDTVx (x : RegIdx) (s : State) : Result := .next (s.setDT (s.getV x)).advance

/-- `Fx18` LD ST, Vx (48_ext_mem_key_timer.md R235). -/
def execLdSTVx (x : RegIdx) (s : State) : Result := .next (s.setST (s.getV x)).advance

end Sys2Proof.Machine
end

