-- ==== Sys2Proof/Machine/Load.lean ====
section
/-! DEFINITION. Loads of registers and the immediate add (43_load_add_immediate.md, 47_ext_flow_alu.md R206). -/

namespace Sys2Proof.Machine

/-- `6xnn` LD Vx, nn (43_load_add_immediate.md R140). -/
def execLdImm (x : RegIdx) (nn : Byte) (s : State) : Result := .next (s.setV x nn).advance

/-- `7xnn` ADD Vx, nn (43_load_add_immediate.md R141): wraps modulo 256, no flag. -/
def execAddImm (x : RegIdx) (nn : Byte) (s : State) : Result := .next (s.setV x (s.getV x + nn)).advance

/-- `Annn` LD I, nnn (43_load_add_immediate.md R142). -/
def execLdI (nnn : Addr12) (s : State) : Result := .next (s.setI (zext16 nnn)).advance

/-- `8xy0` LD Vx, Vy (47_ext_flow_alu.md R206). -/
def execLdReg (x y : RegIdx) (s : State) : Result := .next (s.setV x (s.getV y)).advance

end Sys2Proof.Machine
end

