-- ==== Sys2Proof/Machine/Fetch.lean ====
section
/-! DEFINITION. Instruction fetch (40_step_cycle.md R120, R121), and placing a word where the next fetch reads it. -/

namespace Sys2Proof.Machine

/-- `MEM[pc] ++ MEM[pc + 1]`, the first byte read first (40_step_cycle.md R120, R121). -/
def fetch (s : State) : Except Raise Word :=
  match memRead s s.pc.toNat with
  | .error f => .error f
  | .ok b1 =>
    match memRead s (s.pc.toNat + 1) with
    | .error f => .error f
    | .ok b2 => .ok (wordOfBytes b1 b2)

/-- The program counter when two bytes can be fetched from it, else the entry point: the address `placeWord` uses. -/
def placeAddress (s : State) : Word := if s.pc.toNat ≤ 0xFFE then s.pc else BitVec.ofNat 16 Config.progBase

/-- The profile under which a core runs `op`: its own, but `FULL` when only the map of `FULL` has a row for `op`, since
the rules of that row hold only in a core instantiated so (00_scope.md R7; log 15). -/
def placeProfile (p : Profile) (op : Word) : Profile :=
  match decode p op, decode .full op with
  | .unimplemented _, .instr _ => .full
  | _, _ => p

/-- The word `op` where the next step fetches, that step being an instruction step of a running core (log 15): `op` at the
program counter, the instruction step first in the schedule, `RUN = RUNNING`, the profile one that has the word's row. -/
def placeWord (s : State) (op : Word) : State :=
  { s with
    params := { s.params with profile := placeProfile s.params.profile op }
    mem := s.mem.load (placeAddress s).toNat (bytesOfWord op)
    pc := placeAddress s
    run := .running
    schedule := .instruction :: s.schedule }

end Sys2Proof.Machine
end

