-- ==== Sys2Proof/Machine/Agents.lean ====
section
/-! DEFINITION. The steps of the agents: the CPU's instruction step (40_step_cycle.md), the timer tick and the clock edge
(50_clock_and_timers.md), the reset request (70_reset_and_hazards.md), and which of them is next. -/

namespace Sys2Proof.Machine

/-- A word with no dispatcher entry: a report and `pc + 2`, nothing else (45_unimplemented.md R160). -/
def unimplemented (op : Word) (s : State) : Result := .next (s.report op).advance

/-- One instruction step (40_step_cycle.md R120). A fetch that faults records no word and changes nothing else (R121). -/
def instructionStep (s : State) : Result :=
  match fetch s with
  | .error f => .next (s.takeFault none f)
  | .ok op =>
    match decode s.params.profile op with
    | .instr i => exec i s
    | .unimplemented w => unimplemented w s

/-- A timer at 0 stays 0 (50_clock_and_timers.md R171, 10_state.md R25). -/
def countDown (b : Byte) : Byte := if b ≠ 0 then b - 1 else b

/-- One timer tick, in the order of 50_clock_and_timers.md R171: timers, frame, key sample, quit check. -/
def timerTick (keysIn : Keys) (quitIn : Bool) (s : State) : State :=
  { s with
    dt := countDown s.dt
    st := countDown s.st
    frames := s.frames ++ [s.disp]
    keys := keysIn
    run := if quitIn then .stopped else s.run }

/-- A divider that reloads at 0 and else counts down (50_clock_and_timers.md R174, R175). -/
def dividerNext (count divisor : Nat) : Nat := if count = 0 then divisor - 1 else count - 1

/-- One rising edge of `clk`: both dividers move, and the steps that are due become the next moves, the instruction step
before the tick (50_clock_and_timers.md R174, R175, R178; log 12). -/
def clockEdge (keysIn : Keys) (quitIn : Bool) (s : State) : State :=
  { s with
    tdiv := dividerNext s.tdiv s.params.tickDiv
    idiv := dividerNext s.idiv s.params.instrDiv
    schedule :=
      (if s.idiv = 0 then [.instruction] else []) ++ (if s.tdiv = 0 then [.tick keysIn quitIn] else []) ++ s.schedule }

/-- Memory after reset: zero, then the font, then the image (70_reset_and_hazards.md R290). Only the font's addresses read
as another byte than 0 when unlisted, so clearing those clears all. -/
def resetMem (font : Vector Byte 80) (image : List Byte) : Mem :=
  Mem.load (Mem.load (Mem.load [] Config.fontBase (List.replicate 80 0)) Config.fontBase font.toList)
    Config.progBase image

/-- `RESET_IN(IMAGE)` in any run state (70_reset_and_hazards.md R290): refused for an image outside R292, else every piece of
state takes its reset value; the parameters, the draws made, the moves and rounds still to come stay (log 14). -/
def resetRequest (image : List Byte) (s : State) : Result :=
  if Config.maxImage < image.length then .refused (.imageTooLong image.length)
  else if image.length % 2 = 1 then .refused (.imageOddLength image.length)
  else .next (State.resetWith s.params (resetMem s.params.font image) s.draws s.schedule s.rounds)

/-- In FAULTED and STOPPED only a reset request can happen (10_state.md R34, 70_reset_and_hazards.md R290): the moves of the
agents that have no step are passed over; with no request to come there is no step (log 7). -/
def haltedStep (why : Fault) (s : State) : List Move → Result
  | [] => .fault why
  | .reset image :: rest => resetRequest image { s with schedule := rest }
  | .instruction :: rest => haltedStep why s rest
  | .tick _ _ :: rest => haltedStep why s rest
  | .clockEdge _ _ :: rest => haltedStep why s rest

/-- A beat as a move of the schedule. -/
def Move.ofBeat : Beat → Move
  | .instruction => .instruction
  | .tick keysIn quitIn => .tick keysIn quitIn
  | .clockEdge keysIn quitIn => .clockEdge keysIn quitIn

/-- The moves of a round after its instruction step; the last is its tick. -/
def Move.afterInstruction (r : Round) : List Move := r.between.map Move.ofBeat ++ [.tick r.keysIn r.quitIn]

/-- The moves of a round. -/
def Move.ofRound (r : Round) : List Move := r.before.map Move.ofBeat ++ .instruction :: Move.afterInstruction r

/-- The `n`-th of the rounds to come. -/
def Rounds.nth : Rounds → Nat → Round
  | .free k, n => Config.freeRound (k + n)
  | .same r, _ => r

/-- The rounds after the first. -/
def Rounds.next : Rounds → Rounds
  | .free k => .free (k + 1)
  | .same r => .same r

/-- The next move of a running core, and the state without it (50_clock_and_timers.md R173): the head of the schedule, or,
when the schedule is empty, the first move of a new round (R179; log 5). -/
def State.nextMove (s : State) : Move × State :=
  match s.schedule with
  | m :: rest => (m, { s with schedule := rest })
  | [] =>
    match (s.rounds.nth 0).before with
    | [] => (.instruction, { s with schedule := Move.afterInstruction (s.rounds.nth 0), rounds := s.rounds.next })
    | b :: bs =>
      (.ofBeat b, { s with
        schedule := bs.map Move.ofBeat ++ .instruction :: Move.afterInstruction (s.rounds.nth 0)
        rounds := s.rounds.next })

/-- One move of a running core. -/
def runMove : Move → State → Result
  | .instruction, s => instructionStep s
  | .tick keysIn quitIn, s => .next (timerTick keysIn quitIn s)
  | .clockEdge keysIn quitIn, s => .next (clockEdge keysIn quitIn s)
  | .reset image, s => resetRequest image s

/-- The step of a running core. -/
def runningStep (s : State) : Result := runMove s.nextMove.1 s.nextMove.2

/-- The next step of the machine, by its run state (10_state.md R34). -/
def agentStep (s : State) : Result :=
  match s.run with
  | .running => runningStep s
  | .faulted => haltedStep .coreFaulted s s.schedule
  | .stopped => haltedStep .coreStopped s s.schedule

end Sys2Proof.Machine
end

