-- ==== Sys2Proof/Safety.lean ====
section
/-! DEFINITION. The terms claims are made in: what a transition may change, the invariants, a settled program, a run
without fault. -/

namespace Sys2Proof.Machine

/-! ### Frames -/

/-- The pieces of state a frame speaks of, down to one register, one pixel, one byte of memory. -/
inductive Part where
  | v (r : RegIdx)
  | i
  | pc
  | dt
  | st
  | stack
  | pixel (px : Fin 64) (py : Fin 32)
  | mem (a : Nat)
  | keys
  | run
  | fault
  | frames
  | diag
  | tdiv
  | idiv
  | params
  | draws
  | schedule
  | rounds
  deriving DecidableEq, Repr

/-- The piece of state reads the same in `t` as in `s`. -/
def Part.Same (s t : State) : Part → Prop
  | .v r => t.getV r = s.getV r
  | .i => t.i = s.i
  | .pc => t.pc = s.pc
  | .dt => t.dt = s.dt
  | .st => t.st = s.st
  | .stack => t.stack = s.stack
  | .pixel px py => t.pixel px py = s.pixel px py
  | .mem a => t.mem.read a = s.mem.read a
  | .keys => t.keys = s.keys
  | .run => t.run = s.run
  | .fault => t.fault = s.fault
  | .frames => t.frames = s.frames
  | .diag => t.diag = s.diag
  | .tdiv => t.tdiv = s.tdiv
  | .idiv => t.idiv = s.idiv
  | .params => t.params = s.params
  | .draws => t.draws = s.draws
  | .schedule => t.schedule = s.schedule
  | .rounds => t.rounds = s.rounds

/-- From `s` to `t` nothing changes but the pieces of state `may` admits. -/
def ChangesOnly (may : Part → Prop) (s t : State) : Prop := ∀ p, ¬ may p → p.Same s t

/-! ### Invariants -/

/-- Memory is canonical, the stack holds at most 16 entries, and a fault is recorded exactly in FAULTED (10_state.md R27,
R34, R35). -/
def State.Inv (s : State) : Prop :=
  s.mem.wf = true ∧ s.stack.length ≤ Config.stackDepth ∧ (s.run = .faulted ↔ s.fault.cause ≠ .none)

/-- The program counter and the return addresses stay far from the end of their 16 bits, so that no sum on them wraps
(40_step_cycle.md R124, 47_ext_flow_alu.md R216). -/
def State.PcInRange (s : State) : Prop := s.pc.toNat ≤ 0x10FE ∧ ∀ a ∈ s.stack, a.toNat ≤ 0x1000

/-- What holds throughout a run of `PROFILE = MIN` (10_state.md R22, R24, R28; 50_clock_and_timers.md R181;
60_exceptions.md R262, R263). -/
def State.MinInv (s : State) : Prop :=
  s.params.profile = .min ∧ s.i.toNat ≤ 0xFFF ∧ s.pc.toNat ≤ 0x1000 ∧ s.stack = [] ∧ s.dt = 0 ∧ s.st = 0 ∧
    s.fault.cause ≠ .stackUnderflow ∧ s.fault.cause ≠ .stackOverflow

/-- The dividers stay below their divisors (50_clock_and_timers.md R174, R175). -/
def State.DividersInRange (s : State) : Prop :=
  s.params.wf = true ∧ s.tdiv < s.params.tickDiv ∧ s.idiv < s.params.instrDiv

/-! ### Runs -/

/-- No fault is recorded (60_exceptions.md R270). -/
def State.NoFault (s : State) : Prop := s.fault.cause = .none

/-- The program has settled at `a`: a running core whose next instruction is a jump to itself (70_reset_and_hazards.md
R295). -/
def State.SettledAt (s : State) (a : Addr12) : Prop :=
  s.run = .running ∧ s.pc = a.zeroExtend 16 ∧ a.toNat ≤ 0xFFE ∧
    wordOfBytes (s.mem.read a.toNat) (s.mem.read (a.toNat + 1)) = 0x1000 ||| a.zeroExtend 16

/-- The core is running, its next move is `m`, and `u` is the state with that move taken: `s` but for the moves to come. -/
def State.NextMove (s : State) (m : Move) (u : State) : Prop := s.run = .running ∧ s.nextMove = (m, u)

/-- The next move of a running core is an instruction step. -/
def State.InstructionNext (s : State) : Prop := ∃ u, s.NextMove .instruction u

/-- The next move of a running core is a timer tick. -/
def State.TickNext (s : State) : Prop := ∃ keysIn quitIn u, s.NextMove (.tick keysIn quitIn) u

/-- A tick of this move sees `QUIT_IN = 1`, if the move has or makes due a tick at all. -/
def Move.quitHeld : Move → Bool
  | .instruction => true
  | .tick _ quitIn => quitIn
  | .clockEdge _ quitIn => quitIn
  | .reset _ => true

/-- `QUIT_IN` is 1 at every tick to come (50_clock_and_timers.md R179: "a quit request that stays high"). -/
def State.QuitHeld (s : State) : Prop :=
  (∀ m ∈ s.schedule, m.quitHeld = true) ∧ ∀ n, ∀ m ∈ Move.ofRound (s.rounds.nth n), m.quitHeld = true

/-- The word two bytes of memory make at `a` (20_memory.md R65). -/
def State.wordAt (s : State) (a : Nat) : Word := wordOfBytes (s.mem.read a) (s.mem.read (a + 1))

/-- An unbounded run: every step of it answers the next state. -/
def UnboundedRun (run : Nat → State) : Prop := ∀ n, step (run n) = .next (run (n + 1))

/-- `n` steps lead from `s` to `t`, each of them to a next state. -/
def Reaches : Nat → State → State → Prop
  | 0, s, t => t = s
  | n + 1, s, t => ∃ u, step s = .next u ∧ Reaches n u t

/-! ### Encodings, skips, sprites -/

/-- Under profile `p` every word of the row with this match and mask decodes to the instruction with these operands
(30_encoding.md R95, R99). -/
def RowDecodes (p : Profile) (pattern mask : Word) (i : Word → Instr) : Prop :=
  ∀ op : Word, op &&& mask = pattern → decode p op = .instr (i op)

/-- The instruction completes, adds 4 to `pc` when `c` holds and 2 when not, and changes nothing else. -/
def SkipsWhen (i : Instr) (s : State) (c : Prop) : Prop :=
  ∃ t, exec i s = .next t ∧ (c → t.pc = s.pc + 4) ∧ (¬c → t.pc = s.pc + 2) ∧ ChangesOnly (fun q => q = .pc) s t

/-- A sprite bit equal to 1 of one of the rows `r < k` has the pixel `(qx, qy)` as its target, the sprite starting at
column `x0` and row `y0` (44_draw_sprite.md R150, R152). -/
def SpriteHits (s : State) (x0 y0 k : Nat) (qx : Fin 64) (qy : Fin 32) : Prop :=
  ∃ r c, r < k ∧ c < 8 ∧ (s.mem.read (s.i.toNat + r)).getLsbD (7 - c) = true ∧
    qx.val = (x0 + c) % 64 ∧ qy.val = (y0 + r) % 32

/-- `t` shows `s` with the first `k` sprite rows drawn: the targets of 1-bits inverted, every other pixel as before, and
`VF` 1 when a target was on, else 0 (44_draw_sprite.md R150, R154). -/
def DrawnRows (s t : State) (x0 y0 k : Nat) : Prop :=
  (∀ qx qy, SpriteHits s x0 y0 k qx qy → t.pixel qx qy = !s.pixel qx qy) ∧
  (∀ qx qy, ¬SpriteHits s x0 y0 k qx qy → t.pixel qx qy = s.pixel qx qy) ∧
  ((∃ qx qy, SpriteHits s x0 y0 k qx qy ∧ s.pixel qx qy = true) → t.getV 15 = 1) ∧
  ((¬∃ qx qy, SpriteHits s x0 y0 k qx qy ∧ s.pixel qx qy = true) → t.getV 15 = 0)

/-- `t` is in FAULTED with this record, and `pc` still holds the address of the faulting instruction (60_exceptions.md
R266). -/
def FaultedWith (s t : State) (cause : FaultCause) (addr : Nat) (instr : Option Word) : Prop :=
  t.run = .faulted ∧ t.fault = ⟨cause, addr, s.pc, instr⟩ ∧ t.pc = s.pc

end Sys2Proof.Machine
end

