-- ==== Sys2Proof/Certificates/Slice0/Obligations.lean ====
section
/-! DEFINITION. The statements for the provers, one for each entry of OBLIGATIONS.json. -/

open Sys2Proof Sys2Proof.Machine

/-- A step runs the decoded instruction (40_step_cycle.md R120, 40_step_cycle.md R123). When the next move of a running
core is an instruction step, two bytes can be fetched at pc, and under the profile in force the big-endian word they
make decodes to an instruction i, then the step is exec of i on the state with that move taken, which differs from
the state before it in nothing but the moves to come (log 5); nothing else is done around exec. -/
def Obligations.StepRunsDecodedInstruction : Prop :=
  ∀ (s u : State) (i : Instr), s.NextMove .instruction u → s.pc.toNat ≤ 0xFFE →
    decode s.params.profile (s.wordAt s.pc.toNat) = .instr i →
    step s = exec i u ∧ u = { s with schedule := u.schedule, rounds := u.rounds }

/-- A word with no dispatcher entry is reported and passed over (R160). When the fetched word has no dispatcher entry
under the profile in force, the step answers a next state in which DIAG has gained (pc, op) at its end and pc has
grown by 2, and nothing else has changed (but for the move taken); such a word is one that is the word of no
instruction of the profile. -/
def Obligations.UnimplementedWordReported : Prop :=
  (∀ (p : Profile) (op : Word),
    decode p op = .unimplemented op ↔ ∀ i : Instr, i.wf p = true → encode i ≠ op) ∧
  ∀ s u : State, s.NextMove .instruction u → s.pc.toNat ≤ 0xFFE →
    decode s.params.profile (s.wordAt s.pc.toNat) = .unimplemented (s.wordAt s.pc.toNat) →
    ∃ t, step s = .next t ∧ t.diag = s.diag ++ [⟨s.pc, s.wordAt s.pc.toNat⟩] ∧ t.pc = s.pc + 2 ∧
      t.schedule = u.schedule ∧ t.rounds = u.rounds ∧
      ChangesOnly (fun q => q = .pc ∨ q = .diag ∨ q = .schedule ∨ q = .rounds) s t

/-- A fetch outside memory faults, records no word and changes nothing else (R121). When the next move of a running core
is an instruction step and pc is 0xFFF or above, the step answers a next state in FAULTED whose record has cause
BoundsFault, address 0x1000 for pc = 0xFFF (the first byte is read, the second faults) and pc itself above that,
FAULT.pc = pc and no instruction word; pc keeps its value and nothing else changes. At pc up to 0xFFE the fetch
gives the big-endian word of the bytes at pc and pc + 1. -/
def Obligations.FetchFaultRecord : Prop :=
  (∀ s : State, s.pc.toNat ≤ 0xFFE →
    fetch s = .ok (s.mem.read s.pc.toNat ++ s.mem.read (s.pc.toNat + 1))) ∧
  ∀ s u : State, s.NextMove .instruction u → 0xFFF ≤ s.pc.toNat →
    ∃ t, step s = .next t ∧
      FaultedWith s t .boundsFault (if s.pc.toNat = 0xFFF then 0x1000 else s.pc.toNat) none ∧
      t.schedule = u.schedule ∧ t.rounds = u.rounds ∧
      ChangesOnly (fun q => q = .run ∨ q = .fault ∨ q = .schedule ∨ q = .rounds) s t

/-- A store is seen by the next fetch (20_memory.md R74, 20_memory.md R65). After a successful MemWrite of byte b at
address a, a fetch at any pc up to 0xFFE combines, high byte first, b where the fetched address is a and the old
byte elsewhere. -/
def Obligations.StoreSeenByNextFetch : Prop :=
  ∀ (s t : State) (a : Nat) (b : Byte), memWrite s a b = .ok t → s.pc.toNat ≤ 0xFFE →
    fetch t = .ok ((if s.pc.toNat = a then b else s.mem.read s.pc.toNat) ++
      (if s.pc.toNat + 1 = a then b else s.mem.read (s.pc.toNat + 1)))

/-- Words written out in the spec decode to the instructions they stand for (30_encoding.md R95, 30_encoding.md R99,
47_ext_flow_alu.md R201, 47_ext_flow_alu.md R203, 47_ext_flow_alu.md R218, 48_ext_mem_key_timer.md R230,
48_ext_mem_key_timer.md R239, 95_test_vectors.md T1, 95_test_vectors.md T4, 95_test_vectors.md T5,
95_test_vectors.md T8, 95_test_vectors.md T11). Words of the spec's vectors and examples decode, by the rows of the
two opcode maps, to the instruction the spec names for them: all six rows of MIN, and under FULL at least one word
for each heading of its two files (calls and returns, conditional skips, register operations, indexed jump, random,
keypad, timers, index register, memory). Words with no row in the map in force are left to the unimplemented rule,
the words of FULL under MIN among them. -/
def Obligations.SpecWordsDecode : Prop :=
  decode .min 0x00E0 = .instr .cls ∧ decode .min 0x1234 = .instr (.jp 0x234) ∧
  decode .min 0x6005 = .instr (.ldImm 0 0x05) ∧ decode .min 0x7302 = .instr (.addImm 3 0x02) ∧
  decode .min 0xABCD = .instr (.ldI 0xBCD) ∧ decode .min 0xD015 = .instr (.drw 0 1 5) ∧
  decode .min 0x8AB4 = .unimplemented 0x8AB4 ∧ decode .full 0x8AB4 = .instr (.addReg 0xA 0xB) ∧
  decode .full 0x220A = .instr (.call 0x20A) ∧ decode .full 0x3210 = .instr (.seImm 2 0x10) ∧
  decode .full 0x9120 = .instr (.sneReg 1 2) ∧ decode .full 0xE19E = .instr (.skp 1) ∧
  decode .full 0xF155 = .instr (.storeRegs 1) ∧ decode .full 0x00EE = .instr .ret ∧
  decode .full 0x8124 = .instr (.addReg 1 2) ∧ decode .full 0xBFFF = .instr (.jpV0 0xFFF) ∧
  decode .full 0xC10F = .instr (.rnd 1 0x0F) ∧ decode .full 0xF107 = .instr (.ldVxDT 1) ∧
  decode .full 0xF11E = .instr (.addIVx 1) ∧ decode .full 0xF10A = .instr (.ldVxK 1) ∧
  decode .min 0xE19E = .unimplemented 0xE19E ∧ decode .min 0xF155 = .unimplemented 0xF155 ∧
  decode .min 0xE000 = .unimplemented 0xE000 ∧ decode .full 0xE000 = .unimplemented 0xE000 ∧
  decode .full 0xFFFF = .unimplemented 0xFFFF

/-- Decoding an encoded instruction gives it back, with every operand (30_encoding.md R91, 30_encoding.md R93,
30_encoding.md R95, 30_encoding.md R99). For every profile and every instruction that has a dispatcher entry under
it, with every operand at every value its field admits, decoding the instruction's word gives the instruction. -/
def Obligations.DecodeOfEncode : Prop :=
  ∀ (p : Profile) (i : Instr), i.wf p = true → decode p (encode i) = .instr i

/-- A word that decodes to an instruction is that instruction's word (30_encoding.md R95, 30_encoding.md R99). Whatever
word decodes under a profile to an instruction is the word the encoder gives for it, and the instruction has a
dispatcher entry under that profile: no two words have one meaning, and no other word falls to an instruction. -/
def Obligations.EncodeOfDecode : Prop :=
  ∀ (p : Profile) (op : Word) (i : Instr), decode p op = .instr i → encode i = op ∧ i.wf p = true

/-- Which words have no dispatcher entry under PROFILE = MIN (30_encoding.md R96). Under PROFILE = MIN a word has no
dispatcher entry exactly when its high nibble is 0 and it is not 00E0, or its high nibble is one of 2, 3, 4, 5, 8,
9, B, C, E, F. -/
def Obligations.MinUnimplementedWords : Prop :=
  ∀ op : Word, decode .min op = .unimplemented op ↔
    (op.extractLsb' 12 4 = 0x0#4 ∧ op ≠ 0x00E0) ∨
    op.extractLsb' 12 4 ∈ [0x2#4, 0x3#4, 0x4#4, 0x5#4, 0x8#4, 0x9#4, 0xB#4, 0xC#4, 0xE#4, 0xF#4]

/-- Which words have no dispatcher entry under PROFILE = FULL (47_ext_flow_alu.md R218). Under PROFILE = FULL a word has
no dispatcher entry exactly when it is one of 0nnn other than 00E0 and 00EE, 5xyN or 9xyN with N not 0, 8xyN with N
in 8, 9, A, B, C, D, F, Exkk with kk not 9E or A1, Fxkk with kk not 07, 0A, 15, 18, 1E, 29, 33, 55 or 65. -/
def Obligations.FullUnimplementedWords : Prop :=
  ∀ op : Word, decode .full op = .unimplemented op ↔
    (op.extractLsb' 12 4 = 0x0#4 ∧ op ≠ 0x00E0 ∧ op ≠ 0x00EE) ∨
    (op.extractLsb' 12 4 = 0x5#4 ∧ op.extractLsb' 0 4 ≠ 0x0#4) ∨
    (op.extractLsb' 12 4 = 0x8#4 ∧ op.extractLsb' 0 4 ∈ [0x8#4, 0x9#4, 0xA#4, 0xB#4, 0xC#4, 0xD#4, 0xF#4]) ∨
    (op.extractLsb' 12 4 = 0x9#4 ∧ op.extractLsb' 0 4 ≠ 0x0#4) ∨
    (op.extractLsb' 12 4 = 0xE#4 ∧ op.extractLsb' 0 8 ∉ [0x9E#8, 0xA1#8]) ∨
    (op.extractLsb' 12 4 = 0xF#4 ∧ op.extractLsb' 0 8 ∉
      [0x07#8, 0x0A#8, 0x15#8, 0x18#8, 0x1E#8, 0x29#8, 0x33#8, 0x55#8, 0x65#8])

/-- The values of State.reset (10_state.md R44, 10_state.md R33, 70_reset_and_hazards.md R291). In State.reset every
piece of state has the reset value of the spec's table, and every memory byte is zero outside the font region, whose
first byte is 0xF0. That State.reset is the reset with the empty image is the model's choice (log 15). -/
def Obligations.ResetStateValues : Prop :=
  (∀ r, State.reset.getV r = 0) ∧ State.reset.i = 0 ∧ State.reset.pc = 0x200 ∧ State.reset.dt = 0 ∧ State.reset.st = 0 ∧ State.reset.stack = [] ∧
    (∀ px py, State.reset.pixel px py = false) ∧ (∀ k, State.reset.key k = false) ∧ State.reset.run = .running ∧ State.reset.fault.cause = .none ∧
    State.reset.frames = [] ∧ State.reset.diag = [] ∧ State.reset.sound = false ∧ State.reset.tdiv = State.reset.params.tickDiv - 1 ∧
    State.reset.idiv = State.reset.params.instrDiv - 1 ∧
    State.reset.mem.read 0x050 = 0xF0 ∧ ∀ a, a < 0x050 ∨ 0x0A0 ≤ a → State.reset.mem.read a = 0

/-- A reset request in any run state rebuilds the whole state (70_reset_and_hazards.md R290, 10_state.md R44,
10_state.md R32, 70_reset_and_hazards.md R292). In any run state, when the next move is a reset request with an
image of even length up to 3584 bytes, the step answers a next state in which every piece of state has its reset
value and memory holds FONT at 0x050, the image from 0x200 and zero elsewhere. That the parameters, the number of
draws made and the moves and rounds to come stay is the model's own (log 14). -/
def Obligations.ResetRequestRebuildsState : Prop :=
  ∀ (s : State) (image : List Byte) (rest : List Move), s.schedule = .reset image :: rest →
    image.length ≤ 3584 → image.length % 2 = 0 →
    ∃ t, step s = .next t ∧
    (∀ r, t.getV r = 0) ∧ t.i = 0 ∧ t.pc = 0x200 ∧ t.dt = 0 ∧ t.st = 0 ∧ t.stack = [] ∧
    (∀ px py, t.pixel px py = false) ∧ (∀ k, t.key k = false) ∧ t.run = .running ∧ t.fault.cause = .none ∧
    t.frames = [] ∧ t.diag = [] ∧ t.sound = false ∧ t.tdiv = t.params.tickDiv - 1 ∧
    t.idiv = t.params.instrDiv - 1 ∧
    t.params = s.params ∧ t.draws = s.draws ∧ t.schedule = rest ∧ t.rounds = s.rounds ∧
    (∀ j (h : j < 80), t.mem.read (0x050 + j) = s.params.font[j]) ∧
    (∀ j (h : j < image.length), t.mem.read (0x200 + j) = image[j]) ∧
    ∀ a, a < 0x050 ∨ (0x0A0 ≤ a ∧ a < 0x200) ∨ 0x200 + image.length ≤ a → t.mem.read a = 0

/-- A reset request with an image that is too long or of odd length is refused by name (70_reset_and_hazards.md R292,
60_exceptions.md R279, 92_eei_decisions.md D18). When the next move is a reset request with an image of more than
3584 bytes, the step is refused as imageTooLong; with an image of odd length up to 3584 it is refused as
imageOddLength. The two names are the model's own (log 14). -/
def Obligations.ResetRefusesBadImage : Prop :=
  ∀ (s : State) (image : List Byte) (rest : List Move), s.schedule = .reset image :: rest →
    (3584 < image.length → step s = .refused (.imageTooLong image.length)) ∧
    (image.length ≤ 3584 → image.length % 2 = 1 → step s = .refused (.imageOddLength image.length))

/-- The invariants hold at reset (10_state.md R44, 00_scope.md R7, 50_clock_and_timers.md R174, 50_clock_and_timers.md
R175). State.reset, a core of PROFILE = MIN, meets all four invariants; that its dividers are below their divisors
rests on its rates CLK_HZ = 6000 and IPS = 600, which are the model's choice (log 13). A reset with any parameters
and canonical memory meets the two invariants of every profile; it meets the one of the dividers when the parameters
are well-formed, whatever the rates, and the one of PROFILE = MIN when that is the profile. That the parameters
stand in State is the model's choice (log 1). -/
def Obligations.InvariantsHoldAtReset : Prop :=
  (State.reset.Inv ∧ State.reset.PcInRange ∧ State.reset.DividersInRange ∧ State.reset.MinInv) ∧
  ∀ (p : Params) (m : Mem) (draws : Nat) (moves : List Move) (rounds : Rounds), m.wf = true →
    (State.resetWith p m draws moves rounds).Inv ∧ (State.resetWith p m draws moves rounds).PcInRange ∧
    (p.wf = true → (State.resetWith p m draws moves rounds).DividersInRange) ∧
    (p.profile = .min → (State.resetWith p m draws moves rounds).MinInv)

/-- Every step keeps memory canonical, the stack bounded and the fault record in accord with RUN (10_state.md R27,
10_state.md R34, 10_state.md R35, 60_exceptions.md R266). From every state in which memory is in canonical form, the
stack holds at most 16 entries, and a fault cause is recorded exactly when RUN = FAULTED, every step that answers a
next state answers one with the same three properties. -/
def Obligations.EveryStepKeepsInvariant : Prop :=
  ∀ s t : State, s.Inv → step s = .next t → t.Inv

/-- No step takes pc above 0x10FE or stacks a return address above 0x1000 (40_step_cycle.md R124, 47_ext_flow_alu.md
R203, 47_ext_flow_alu.md R216). From every state with pc at most 0x10FE and every stacked return address at most
0x1000, every step that answers a next state keeps both bounds, so no sum on pc ever wraps its 16 bits. -/
def Obligations.EveryStepKeepsPcInRange : Prop :=
  ∀ s t : State, s.PcInRange → step s = .next t → t.PcInRange

/-- Under PROFILE = MIN: I at most 0xFFF, pc at most 0x1000, stack empty, timers 0, no stack fault (10_state.md R22,
10_state.md R24, 10_state.md R28, 50_clock_and_timers.md R181, 60_exceptions.md R262, 60_exceptions.md R263). From
every state of PROFILE = MIN with I at most 0xFFF, pc at most 0x1000, an empty stack, both timers 0 and no stack
fault recorded, every step that answers a next state (instruction step, tick, clock edge or reset) keeps all of
these. -/
def Obligations.EveryStepKeepsMinInvariant : Prop :=
  ∀ s t : State, s.MinInv → step s = .next t → t.MinInv

/-- Under PROFILE = MIN no step but a reset changes memory (10_state.md R32, 20_memory.md R68). From every state of
PROFILE = MIN with no reset request to come, every step that answers a next state leaves every byte of memory as it
was. -/
def Obligations.MinProfileNeverWritesMemory : Prop :=
  ∀ s t : State, s.params.profile = .min → (∀ image, .reset image ∉ s.schedule) → step s = .next t →
    ∀ a, t.mem.read a = s.mem.read a

/-- The dividers stay below their divisors (50_clock_and_timers.md R174, 50_clock_and_timers.md R175). From every state
with well-formed parameters, TDIV below TICK_DIV and IDIV below INSTR_DIV, every step that answers a next state
keeps these. -/
def Obligations.EveryStepKeepsDividersInRange : Prop :=
  ∀ s t : State, s.DividersInRange → step s = .next t → t.DividersInRange

/-- 00E0 turns every pixel off and advances pc by 2, changing nothing else (R130). The word 00E0, and no other, decodes
to CLS under both profiles; CLS completes in every state with every pixel off, pc + 2 and nothing else changed, VF
included. -/
def Obligations.ClearDisplay : Prop :=
  (∀ (p : Profile) (op : Word), decode p op = .instr .cls ↔ op = 0x00E0) ∧
  ∀ s : State, ∃ t, exec .cls s = .next t ∧ (∀ px py, t.pixel px py = false) ∧ t.pc = s.pc + 2 ∧
    ChangesOnly (fun q => q = .pc ∨ ∃ px py, q = .pixel px py) s t

/-- 1nnn sets pc to nnn exactly and changes nothing else (R135). Every word 1nnn decodes to JP with its low 12 bits; JP
nnn completes in every state with pc = nnn zero-extended, whatever the parity or range of nnn, and nothing else
changed. -/
def Obligations.JumpSetsPcExactly : Prop :=
  (∀ p, RowDecodes p 0x1000 0xF000 fun op => .jp (op.extractLsb' 0 12)) ∧
  ∀ (s : State) (nnn : Addr12), ∃ t, exec (.jp nnn) s = .next t ∧ t.pc.toNat = nnn.toNat ∧
    ChangesOnly (fun q => q = .pc) s t

/-- 6xnn loads nn into V[x] (R140). Every word 6xnn decodes to LD Vx, nn with its fields; it completes in every state
with V[x] = nn, pc + 2 and nothing else changed; x = 15 writes VF as an ordinary register. -/
def Obligations.LoadImmediate : Prop :=
  (∀ p, RowDecodes p 0x6000 0xF000 fun op => .ldImm (op.extractLsb' 8 4) (op.extractLsb' 0 8)) ∧
  ∀ (s : State) (x : RegIdx) (nn : Byte), ∃ t, exec (.ldImm x nn) s = .next t ∧ t.getV x = nn ∧
    t.pc = s.pc + 2 ∧ ChangesOnly (fun q => q = .v x ∨ q = .pc) s t

/-- 7xnn adds nn to V[x] modulo 256 and sets no flag (R141). Every word 7xnn decodes to ADD Vx, nn with its fields; it
completes in every state with V[x] the sum modulo 256, pc + 2 and nothing else changed: VF keeps its value unless x
= 15, when it receives the sum. -/
def Obligations.AddImmediateWraps : Prop :=
  (∀ p, RowDecodes p 0x7000 0xF000 fun op => .addImm (op.extractLsb' 8 4) (op.extractLsb' 0 8)) ∧
  ∀ (s : State) (x : RegIdx) (nn : Byte), ∃ t, exec (.addImm x nn) s = .next t ∧
    (t.getV x).toNat = ((s.getV x).toNat + nn.toNat) % 256 ∧ t.pc = s.pc + 2 ∧
    ChangesOnly (fun q => q = .v x ∨ q = .pc) s t

/-- Annn loads nnn, zero-extended, into I (R142). Every word Annn decodes to LD I, nnn with its low 12 bits; it
completes in every state with I = nnn (upper four bits 0), pc + 2 and nothing else changed. -/
def Obligations.LoadIndex : Prop :=
  (∀ p, RowDecodes p 0xA000 0xF000 fun op => .ldI (op.extractLsb' 0 12)) ∧
  ∀ (s : State) (nnn : Addr12), ∃ t, exec (.ldI nnn) s = .next t ∧ t.i.toNat = nnn.toNat ∧
    t.pc = s.pc + 2 ∧ ChangesOnly (fun q => q = .i ∨ q = .pc) s t

/-- Dxyn inverts exactly the targets of 1-bits, with wraparound, and VF tells a collision (44_draw_sprite.md R150,
44_draw_sprite.md R151, 44_draw_sprite.md R152, 44_draw_sprite.md R154). Every word Dxyn decodes to DRW with its
fields. When no row lies above 0xFFF (or n = 0), DRW completes: with start column V[x] mod 64 and start row V[y] mod
32 read before VF is cleared, each pixel that is the wrapped target of a sprite bit equal to 1 is inverted, every
other pixel stays, VF is 1 when one of the targets was on and 0 otherwise, pc grows by 2 and nothing else changes. -/
def Obligations.DrawSprite : Prop :=
  (∀ p, RowDecodes p 0xD000 0xF000 fun op => .drw (op.extractLsb' 8 4) (op.extractLsb' 4 4) (op.extractLsb' 0 4)) ∧
  ∀ (s : State) (x y : RegIdx) (n : Nibble), n = 0 ∨ s.i.toNat + n.toNat ≤ 0x1000 →
    ∃ t, exec (.drw x y n) s = .next t ∧
      DrawnRows s t ((s.getV x).toNat % 64) ((s.getV y).toNat % 32) n.toNat ∧ t.pc = s.pc + 2 ∧
      ChangesOnly (fun q => q = .pc ∨ q = .v 15 ∨ ∃ px py, q = .pixel px py ∧
        SpriteHits s ((s.getV x).toNat % 64) ((s.getV y).toNat % 32) n.toNat px py) s t

/-- Dxyn faults at the first row outside memory, with the earlier rows drawn (44_draw_sprite.md R155). When n is not 0
and I + n is above 0x1000, the draw ends in FAULTED with the rows at addresses up to 0xFFF drawn and VF telling
their collisions; the record has cause BoundsFault, the first address outside memory (0x1000, or I when I is above
it), FAULT.pc = pc and the instruction's word; pc is not advanced and nothing else changes. That DISP and VF hold
this literal partial result is the model's choice (log 8) between the two treatments R155 and entry U5 accept. -/
def Obligations.DrawBoundsFault : Prop :=
  ∀ (s : State) (x y : RegIdx) (n : Nibble) (p : Profile) (op : Word), decode p op = .instr (.drw x y n) →
    n ≠ 0 → 0x1000 < s.i.toNat + n.toNat →
    ∃ t, exec (.drw x y n) s = .next t ∧
      FaultedWith s t .boundsFault (max 0x1000 s.i.toNat) (some op) ∧
      DrawnRows s t ((s.getV x).toNat % 64) ((s.getV y).toNat % 32) (0x1000 - s.i.toNat) ∧
      ChangesOnly (fun q => q = .run ∨ q = .fault ∨ q = .v 15 ∨ ∃ px py, q = .pixel px py ∧
        SpriteHits s ((s.getV x).toNat % 64) ((s.getV y).toNat % 32) (0x1000 - s.i.toNat) px py) s t

/-- Drawing the same sprite twice restores the display (44_draw_sprite.md R156, 44_draw_sprite.md R154). When neither
coordinate register is VF and every row lies inside memory, drawing the same sprite twice in a row gives back every
pixel, and VF ends as 1 exactly when some sprite bit equal to 1 had an off target before the first draw. -/
def Obligations.DrawTwiceRestoresDisplay : Prop :=
  ∀ (s t u : State) (x y : RegIdx) (n : Nibble), x ≠ 15 → y ≠ 15 → n = 0 ∨ s.i.toNat + n.toNat ≤ 0x1000 →
    exec (.drw x y n) s = .next t → exec (.drw x y n) t = .next u →
    (∀ px py, u.pixel px py = s.pixel px py) ∧
    ((∃ px py, SpriteHits s ((s.getV x).toNat % 64) ((s.getV y).toNat % 32) n.toNat px py ∧
      s.pixel px py = false) → u.getV 15 = 1) ∧
    ((¬∃ px py, SpriteHits s ((s.getV x).toNat % 64) ((s.getV y).toNat % 32) n.toNat px py ∧
      s.pixel px py = false) → u.getV 15 = 0)

/-- 2nnn pushes pc + 2 and jumps, or overflows at 16 entries with nothing written (R201). Every word 2nnn decodes, under
PROFILE = FULL, to CALL with its low 12 bits. With fewer than 16 entries CALL completes with pc + 2 pushed and pc =
nnn. With 16 entries (or more, in states no run reaches) it ends in FAULTED with cause StackOverflow, address and
FAULT.pc = pc and the instruction's word, pc unchanged. Nothing else changes. -/
def Obligations.CallPushesReturnAddress : Prop :=
  RowDecodes .full 0x2000 0xF000 (fun op => .call (op.extractLsb' 0 12)) ∧
  FaultCause.stackOverflow.code = 3 ∧
  (∀ (s : State) (nnn : Addr12), s.stack.length < 16 → ∃ t, exec (.call nnn) s = .next t ∧
    t.stack = s.stack ++ [s.pc + 2] ∧ t.pc.toNat = nnn.toNat ∧
    ChangesOnly (fun q => q = .pc ∨ q = .stack) s t) ∧
  ∀ (s : State) (nnn : Addr12) (p : Profile) (op : Word), decode p op = .instr (.call nnn) →
    16 ≤ s.stack.length → ∃ t, exec (.call nnn) s = .next t ∧
    FaultedWith s t .stackOverflow s.pc.toNat (some op) ∧ ChangesOnly (fun q => q = .run ∨ q = .fault) s t

/-- 00EE pops pc, or underflows on an empty stack with nothing written (R202). The word 00EE decodes to RET under
PROFILE = FULL and to nothing under MIN. With a most recent entry a, RET completes with that entry popped and pc =
a, nothing added. With an empty stack it ends in FAULTED with cause StackUnderflow, address and FAULT.pc = pc and
the word 00EE, pc unchanged. Nothing else changes. -/
def Obligations.ReturnPopsReturnAddress : Prop :=
  decode .full 0x00EE = .instr .ret ∧ decode .min 0x00EE = .unimplemented 0x00EE ∧
  FaultCause.stackUnderflow.code = 2 ∧
  (∀ (s : State) (rest : List Word) (a : Word), s.stack = rest ++ [a] → ∃ t, exec .ret s = .next t ∧
    t.stack = rest ∧ t.pc = a ∧ ChangesOnly (fun q => q = .pc ∨ q = .stack) s t) ∧
  ∀ s : State, s.stack = [] → ∃ t, exec .ret s = .next t ∧
    FaultedWith s t .stackUnderflow s.pc.toNat (some 0x00EE) ∧ ChangesOnly (fun q => q = .run ∨ q = .fault) s t

/-- A return after a call goes to the instruction after the call, with the stack as before it (47_ext_flow_alu.md R201,
47_ext_flow_alu.md R202, 10_state.md R29, 10_state.md R30). When a call is made with fewer than 16 entries stacked,
RET in any state whose stack is the one the call left completes with pc = the call's pc + 2 and the stack as it was
before the call. -/
def Obligations.CallThenReturn : Prop :=
  ∀ (s t u : State) (nnn : Addr12), s.stack.length < 16 → exec (.call nnn) s = .next t → u.stack = t.stack →
    ∃ w, exec .ret u = .next w ∧ w.pc = s.pc + 2 ∧ w.stack = s.stack

/-- 3xnn, 4xnn, 5xy0, 9xy0 skip on equality and inequality (R203, R204, R205, R215). Under PROFILE = FULL every word
3xnn, 4xnn, 5xy0, 9xy0 decodes to its skip with its fields. Each completes in every state: pc grows by 4 when V[x]
equals (4xnn, 9xy0: differs from) nn or V[y], else by 2; nothing else changes. -/
def Obligations.ConditionalSkips : Prop :=
  RowDecodes .full 0x3000 0xF000 (fun op => .seImm (op.extractLsb' 8 4) (op.extractLsb' 0 8)) ∧
  RowDecodes .full 0x4000 0xF000 (fun op => .sneImm (op.extractLsb' 8 4) (op.extractLsb' 0 8)) ∧
  RowDecodes .full 0x5000 0xF00F (fun op => .seReg (op.extractLsb' 8 4) (op.extractLsb' 4 4)) ∧
  RowDecodes .full 0x9000 0xF00F (fun op => .sneReg (op.extractLsb' 8 4) (op.extractLsb' 4 4)) ∧
  (∀ op : Word, op.extractLsb' 0 4 ≠ 0x0#4 → op.extractLsb' 12 4 = 0x5#4 ∨ op.extractLsb' 12 4 = 0x9#4 →
    decode .full op = .unimplemented op) ∧
  (∀ (s : State) (x : RegIdx) (nn : Byte), SkipsWhen (.seImm x nn) s (s.getV x = nn) ∧
    SkipsWhen (.sneImm x nn) s (s.getV x ≠ nn)) ∧
  ∀ (s : State) (x y : RegIdx), SkipsWhen (.seReg x y) s (s.getV x = s.getV y) ∧
    SkipsWhen (.sneReg x y) s (s.getV x ≠ s.getV y)

/-- Bnnn jumps to nnn + V0, unreduced (R216). Under PROFILE = FULL every word Bnnn decodes to JP V0, nnn with its low 12
bits; it completes in every state with pc = nnn + V0 as natural numbers (at most 0x10FE) and nothing else changed. -/
def Obligations.IndexedJump : Prop :=
  RowDecodes .full 0xB000 0xF000 (fun op => .jpV0 (op.extractLsb' 0 12)) ∧
  ∀ (s : State) (nnn : Addr12), ∃ t, exec (.jpV0 nnn) s = .next t ∧
    t.pc.toNat = nnn.toNat + (s.getV 0).toNat ∧ t.pc.toNat ≤ 0x10FE ∧ ChangesOnly (fun q => q = .pc) s t

/-- 8xy0 copies V[y] to V[x] (R206). Under PROFILE = FULL every word 8xy0 decodes to LD Vx, Vy with its fields; it
completes in every state with V[x] the old V[y], pc + 2 and nothing else changed. -/
def Obligations.CopyRegister : Prop :=
  RowDecodes .full 0x8000 0xF00F (fun op => .ldReg (op.extractLsb' 8 4) (op.extractLsb' 4 4)) ∧
  ∀ (s : State) (x y : RegIdx), ∃ t, exec (.ldReg x y) s = .next t ∧ t.getV x = s.getV y ∧ t.pc = s.pc + 2 ∧
    ChangesOnly (fun q => q = .v x ∨ q = .pc) s t

/-- 8xy1, 8xy2, 8xy3: bitwise or, and, xor, with VF by Q_LOGIC_VF (R207, R208, R209). Under PROFILE = FULL every word
8xy1, 8xy2, 8xy3 decodes to OR, AND, XOR Vx, Vy with its fields. Each completes in every state with V[x] the bitwise
result and pc + 2; under Q_LOGIC_VF = RESET VF is then 0 (also when x = 15), under KEEP nothing but V[x] and pc
changes. -/
def Obligations.BitwiseOperations : Prop :=
  RowDecodes .full 0x8001 0xF00F (fun op => .orReg (op.extractLsb' 8 4) (op.extractLsb' 4 4)) ∧
  RowDecodes .full 0x8002 0xF00F (fun op => .andReg (op.extractLsb' 8 4) (op.extractLsb' 4 4)) ∧
  RowDecodes .full 0x8003 0xF00F (fun op => .xorReg (op.extractLsb' 8 4) (op.extractLsb' 4 4)) ∧
  ∀ (s : State) (x y : RegIdx),
    (∃ t, exec (.orReg x y) s = .next t ∧
      (s.params.logicVF = .reset → t.getV 15 = 0 ∧ (x ≠ 15 → t.getV x = s.getV x ||| s.getV y) ∧
        ChangesOnly (fun q => q = .v x ∨ q = .v 15 ∨ q = .pc) s t) ∧
      (s.params.logicVF = .keep → t.getV x = s.getV x ||| s.getV y ∧
        ChangesOnly (fun q => q = .v x ∨ q = .pc) s t) ∧ t.pc = s.pc + 2) ∧
    (∃ t, exec (.andReg x y) s = .next t ∧
      (s.params.logicVF = .reset → t.getV 15 = 0 ∧ (x ≠ 15 → t.getV x = s.getV x &&& s.getV y) ∧
        ChangesOnly (fun q => q = .v x ∨ q = .v 15 ∨ q = .pc) s t) ∧
      (s.params.logicVF = .keep → t.getV x = s.getV x &&& s.getV y ∧
        ChangesOnly (fun q => q = .v x ∨ q = .pc) s t) ∧ t.pc = s.pc + 2) ∧
    (∃ t, exec (.xorReg x y) s = .next t ∧
      (s.params.logicVF = .reset → t.getV 15 = 0 ∧ (x ≠ 15 → t.getV x = s.getV x ^^^ s.getV y) ∧
        ChangesOnly (fun q => q = .v x ∨ q = .v 15 ∨ q = .pc) s t) ∧
      (s.params.logicVF = .keep → t.getV x = s.getV x ^^^ s.getV y ∧
        ChangesOnly (fun q => q = .v x ∨ q = .pc) s t) ∧ t.pc = s.pc + 2)

/-- 8xy4 adds modulo 256 and then sets VF to the carry (R210). Under PROFILE = FULL every word 8xy4 decodes to ADD Vx,
Vy with its fields; it completes in every state with V[x] the sum modulo 256 of the old values, then VF 1 when the
sum exceeds 255 and 0 otherwise (so with x = 15 the flag stays), pc + 2 and nothing else changed. -/
def Obligations.AddRegisterSetsCarry : Prop :=
  RowDecodes .full 0x8004 0xF00F (fun op => .addReg (op.extractLsb' 8 4) (op.extractLsb' 4 4)) ∧
  ∀ (s : State) (x y : RegIdx),
    (∃ t, exec (.addReg x y) s = .next t ∧
      (x ≠ 15 → (t.getV x).toNat = ((s.getV x).toNat + (s.getV y).toNat) % 256) ∧
      t.getV 15 = (if 255 < (s.getV x).toNat + (s.getV y).toNat then 1 else 0) ∧
      t.pc = s.pc + 2 ∧ ChangesOnly (fun q => q = .v x ∨ q = .v 15 ∨ q = .pc) s t)

/-- 8xy5 and 8xy7 subtract modulo 256 and then set VF to not-borrow (R211, R213). Under PROFILE = FULL every word 8xy5,
8xy7 decodes to SUB, SUBN Vx, Vy with its fields. SUB completes in every state with V[x] = (V[x] - V[y]) mod 256 and
then VF 1 when V[x] was at least V[y], SUBN with (V[y] - V[x]) mod 256 and VF 1 when V[y] was at least V[x]; pc + 2
and nothing else changed. -/
def Obligations.SubtractSetsNoBorrow : Prop :=
  RowDecodes .full 0x8005 0xF00F (fun op => .subReg (op.extractLsb' 8 4) (op.extractLsb' 4 4)) ∧
  RowDecodes .full 0x8007 0xF00F (fun op => .subnReg (op.extractLsb' 8 4) (op.extractLsb' 4 4)) ∧
  ∀ (s : State) (x y : RegIdx),
    (∃ t, exec (.subReg x y) s = .next t ∧
      (x ≠ 15 → (t.getV x).toNat = ((s.getV x).toNat + 256 - (s.getV y).toNat) % 256) ∧
      t.getV 15 = (if (s.getV y).toNat ≤ (s.getV x).toNat then 1 else 0) ∧
      t.pc = s.pc + 2 ∧ ChangesOnly (fun q => q = .v x ∨ q = .v 15 ∨ q = .pc) s t) ∧
    (∃ t, exec (.subnReg x y) s = .next t ∧
      (x ≠ 15 → (t.getV x).toNat = ((s.getV y).toNat + 256 - (s.getV x).toNat) % 256) ∧
      t.getV 15 = (if (s.getV x).toNat ≤ (s.getV y).toNat then 1 else 0) ∧
      t.pc = s.pc + 2 ∧ ChangesOnly (fun q => q = .v x ∨ q = .v 15 ∨ q = .pc) s t)

/-- 8xy6 and 8xyE shift the register Q_SHIFT_SRC names by one and set VF to the bit shifted out (R212, R214). Under
PROFILE = FULL every word 8xy6, 8xyE decodes to SHR, SHL Vx, Vy with its fields. With b the old V[y] under
Q_SHIFT_SRC = VY and the old V[x] under VX, SHR completes in every state with V[x] = b / 2 and then VF = b mod 2,
SHL with V[x] = 2 b mod 256 and then VF = b / 128; pc + 2 and nothing else changed. -/
def Obligations.ShiftsByOne : Prop :=
  RowDecodes .full 0x8006 0xF00F (fun op => .shrReg (op.extractLsb' 8 4) (op.extractLsb' 4 4)) ∧
  RowDecodes .full 0x800E 0xF00F (fun op => .shlReg (op.extractLsb' 8 4) (op.extractLsb' 4 4)) ∧
  ∀ (s : State) (x y : RegIdx) (b : Byte),
    (s.params.shiftSrc = .vy ∧ b = s.getV y) ∨ (s.params.shiftSrc = .vx ∧ b = s.getV x) →
    (∃ t, exec (.shrReg x y) s = .next t ∧
      (x ≠ 15 → (t.getV x).toNat = b.toNat / 2) ∧
      (t.getV 15).toNat = b.toNat % 2 ∧
      t.pc = s.pc + 2 ∧ ChangesOnly (fun q => q = .v x ∨ q = .v 15 ∨ q = .pc) s t) ∧
    (∃ t, exec (.shlReg x y) s = .next t ∧
      (x ≠ 15 → (t.getV x).toNat = 2 * b.toNat % 256) ∧
      (t.getV 15).toNat = b.toNat / 128 ∧
      t.pc = s.pc + 2 ∧ ChangesOnly (fun q => q = .v x ∨ q = .v 15 ∨ q = .pc) s t)

/-- Cxnn puts a random draw AND nn into V[x] (R217). Under PROFILE = FULL every word Cxnn decodes to RND Vx, nn with its
fields; it completes in every state with V[x] = the draw AND nn, pc + 2 and nothing else changed but the model's
count of draws. The draw is the model's free value (log 4): the statement holds whatever its values. -/
def Obligations.RandomMasked : Prop :=
  RowDecodes .full 0xC000 0xF000 (fun op => .rnd (op.extractLsb' 8 4) (op.extractLsb' 0 8)) ∧
  ∀ (s : State) (x : RegIdx) (nn : Byte), ∃ t, exec (.rnd x nn) s = .next t ∧
    t.getV x = Config.randomByte s.draws &&& nn ∧ t.draws = s.draws + 1 ∧ t.pc = s.pc + 2 ∧
    ChangesOnly (fun q => q = .v x ∨ q = .pc ∨ q = .draws) s t

/-- Ex9E and ExA1 skip by the latched key the low nibble of V[x] selects (R230, R231). Under PROFILE = FULL every word
Ex9E, ExA1 decodes to SKP, SKNP Vx. Each completes in every state: pc grows by 4 when the latch of key V[x] mod 16
is 1 (ExA1: 0), else by 2; nothing else changes. -/
def Obligations.KeySkips : Prop :=
  RowDecodes .full 0xE09E 0xF0FF (fun op => .skp (op.extractLsb' 8 4)) ∧
  RowDecodes .full 0xE0A1 0xF0FF (fun op => .sknp (op.extractLsb' 8 4)) ∧
  ∀ (s : State) (x : RegIdx),
    SkipsWhen (.skp x) s (s.keys[(s.getV x).toNat % 16]'(Nat.mod_lt _ (by decide)) = true) ∧
    SkipsWhen (.sknp x) s (s.keys[(s.getV x).toNat % 16]'(Nat.mod_lt _ (by decide)) = false)

/-- Fx0A takes the least latched key, or repeats (R233). Under PROFILE = FULL every word Fx0A decodes to LD Vx, K. When
k is the least latched key it completes with V[x] = k, pc + 2 and nothing else changed; when no key is latched it
answers the very same state, so the same instruction is fetched again. -/
def Obligations.WaitForKey : Prop :=
  RowDecodes .full 0xF00A 0xF0FF (fun op => .ldVxK (op.extractLsb' 8 4)) ∧
  (∀ (s : State) (x : RegIdx) (k : Nibble), s.key k = true → (∀ j : Nibble, j < k → s.key j = false) →
    ∃ t, exec (.ldVxK x) s = .next t ∧ (t.getV x).toNat = k.toNat ∧ t.pc = s.pc + 2 ∧
      ChangesOnly (fun q => q = .v x ∨ q = .pc) s t) ∧
  ∀ (s : State) (x : RegIdx), (∀ k : Nibble, s.key k = false) → exec (.ldVxK x) s = .next s

/-- Fx07 reads DT, Fx15 writes DT, Fx18 writes ST and SOUND follows at once (R232, R234, R235). Under PROFILE = FULL
every word Fx07, Fx15, Fx18 decodes to its instruction. Each completes in every state: V[x] = DT, DT = V[x], ST =
V[x] (SOUND is then 1 exactly when V[x] is not 0), pc + 2 and nothing else changed. -/
def Obligations.TimerInstructions : Prop :=
  RowDecodes .full 0xF007 0xF0FF (fun op => .ldVxDT (op.extractLsb' 8 4)) ∧
  RowDecodes .full 0xF015 0xF0FF (fun op => .ldDTVx (op.extractLsb' 8 4)) ∧
  RowDecodes .full 0xF018 0xF0FF (fun op => .ldSTVx (op.extractLsb' 8 4)) ∧
  ∀ (s : State) (x : RegIdx),
    (∃ t, exec (.ldVxDT x) s = .next t ∧ t.getV x = s.dt ∧ t.pc = s.pc + 2 ∧
      ChangesOnly (fun q => q = .v x ∨ q = .pc) s t) ∧
    (∃ t, exec (.ldDTVx x) s = .next t ∧ t.dt = s.getV x ∧ t.pc = s.pc + 2 ∧
      ChangesOnly (fun q => q = .dt ∨ q = .pc) s t) ∧
    (∃ t, exec (.ldSTVx x) s = .next t ∧ t.st = s.getV x ∧ (t.sound = true ↔ s.getV x ≠ 0) ∧ t.pc = s.pc + 2 ∧
      ChangesOnly (fun q => q = .st ∨ q = .pc) s t)

/-- Fx1E adds V[x] to I modulo 65536 with no flag; Fx29 points I at a glyph (R236, R237). Under PROFILE = FULL every
word Fx1E, Fx29 decodes to ADD I, Vx and LD F, Vx. Each completes in every state: I becomes (I + V[x]) modulo 65536,
respectively 0x050 + 5 * (V[x] mod 16), pc grows by 2 and nothing else changes, VF included. -/
def Obligations.IndexInstructions : Prop :=
  RowDecodes .full 0xF01E 0xF0FF (fun op => .addIVx (op.extractLsb' 8 4)) ∧
  RowDecodes .full 0xF029 0xF0FF (fun op => .ldFVx (op.extractLsb' 8 4)) ∧
  ∀ (s : State) (x : RegIdx),
    (∃ t, exec (.addIVx x) s = .next t ∧ t.i.toNat = (s.i.toNat + (s.getV x).toNat) % 65536 ∧ t.pc = s.pc + 2 ∧
      ChangesOnly (fun q => q = .i ∨ q = .pc) s t) ∧
    (∃ t, exec (.ldFVx x) s = .next t ∧ t.i.toNat = 0x050 + 5 * ((s.getV x).toNat % 16) ∧ t.pc = s.pc + 2 ∧
      ChangesOnly (fun q => q = .i ∨ q = .pc) s t)

/-- Fx33 stores the three decimal digits of V[x] at I, I + 1, I + 2 (48_ext_mem_key_timer.md R238). Under PROFILE = FULL
every word Fx33 decodes to LD B, Vx. When I + 2 is at most 0xFFF it completes with the bytes at I, I + 1, I + 2 the
hundreds, tens and ones of V[x], pc + 2, I unchanged and nothing else changed. -/
def Obligations.StoreDecimalDigits : Prop :=
  RowDecodes .full 0xF033 0xF0FF (fun op => .ldBVx (op.extractLsb' 8 4)) ∧
  ∀ (s : State) (x : RegIdx), s.i.toNat + 2 ≤ 0xFFF → ∃ t, exec (.ldBVx x) s = .next t ∧
    (t.mem.read (s.indexed 0)).toNat = (s.getV x).toNat / 100 ∧
    (t.mem.read (s.indexed 1)).toNat = (s.getV x).toNat / 10 % 10 ∧
    (t.mem.read (s.indexed 2)).toNat = (s.getV x).toNat % 10 ∧ t.pc = s.pc + 2 ∧
    ChangesOnly (fun q => q = .pc ∨ ∃ k, k < 3 ∧ q = .mem (s.indexed k)) s t

/-- Fx55 stores V0 to Vx from I on, and advances I by Q_MEM_I (48_ext_mem_key_timer.md R239). Under PROFILE = FULL every
word Fx55 decodes to LD [I], Vx. When I + x is at most 0xFFF it completes with MEM[I + k] = V[k] for k = 0 to x, I
advanced by x + 1 modulo 65536 under Q_MEM_I = INCREMENT and unchanged under KEEP, pc + 2 and nothing else changed. -/
def Obligations.StoreRegisters : Prop :=
  RowDecodes .full 0xF055 0xF0FF (fun op => .storeRegs (op.extractLsb' 8 4)) ∧
  ∀ (s : State) (x : RegIdx), s.i.toNat + x.toNat ≤ 0xFFF → ∃ t, exec (.storeRegs x) s = .next t ∧
    (∀ k : RegIdx, k ≤ x → t.mem.read (s.indexed k.toNat) = s.getV k) ∧
    (s.params.memI = .increment → t.i.toNat = (s.i.toNat + x.toNat + 1) % 65536) ∧
    (s.params.memI = .keep → t.i = s.i) ∧ t.pc = s.pc + 2 ∧
    ChangesOnly (fun q => q = .pc ∨ q = .i ∨ ∃ k : RegIdx, k ≤ x ∧ q = .mem (s.indexed k.toNat)) s t

/-- Fx65 loads V0 to Vx from I on, and advances I by Q_MEM_I (48_ext_mem_key_timer.md R240). Under PROFILE = FULL every
word Fx65 decodes to LD Vx, [I]. When I + x is at most 0xFFF it completes with V[k] = MEM[I + k] for k = 0 to x, I
advanced by x + 1 modulo 65536 under Q_MEM_I = INCREMENT and unchanged under KEEP, pc + 2 and nothing else changed. -/
def Obligations.LoadRegisters : Prop :=
  RowDecodes .full 0xF065 0xF0FF (fun op => .loadRegs (op.extractLsb' 8 4)) ∧
  ∀ (s : State) (x : RegIdx), s.i.toNat + x.toNat ≤ 0xFFF → ∃ t, exec (.loadRegs x) s = .next t ∧
    (∀ k : RegIdx, k ≤ x → t.getV k = s.mem.read (s.indexed k.toNat)) ∧
    (s.params.memI = .increment → t.i.toNat = (s.i.toNat + x.toNat + 1) % 65536) ∧
    (s.params.memI = .keep → t.i = s.i) ∧ t.pc = s.pc + 2 ∧
    ChangesOnly (fun q => q = .pc ∨ q = .i ∨ ∃ k : RegIdx, k ≤ x ∧ q = .v k) s t

/-- Fx33, Fx55, Fx65 fault at the first address outside memory, after the earlier bytes were moved
(48_ext_mem_key_timer.md R238, 48_ext_mem_key_timer.md R239, 48_ext_mem_key_timer.md R240, 60_exceptions.md R267).
When the last address is above 0xFFF, each of the three ends in FAULTED with cause BoundsFault, the first address
outside memory (0x1000, or I when I is above it), FAULT.pc = pc and the instruction's word. The bytes (for Fx65 the
registers) of the addresses up to 0xFFF have been moved, I and pc are unchanged, and nothing else changes. That MEM
and V hold this literal partial result is the model's choice (log 8) between the two treatments D10 and entry U5
accept. -/
def Obligations.BlockBoundsFaults : Prop :=
  ∀ (s : State) (x : RegIdx) (p : Profile) (op : Word),
    (decode p op = .instr (.ldBVx x) → 0xFFF < s.i.toNat + 2 → ∃ t, exec (.ldBVx x) s = .next t ∧
      FaultedWith s t .boundsFault (max 0x1000 s.i.toNat) (some op) ∧
      (s.indexed 0 ≤ 0xFFF → (t.mem.read (s.indexed 0)).toNat = (s.getV x).toNat / 100) ∧
      (s.indexed 1 ≤ 0xFFF → (t.mem.read (s.indexed 1)).toNat = (s.getV x).toNat / 10 % 10) ∧
      ChangesOnly (fun q => q = .run ∨ q = .fault ∨
        ∃ k, k < 2 ∧ s.indexed k ≤ 0xFFF ∧ q = .mem (s.indexed k)) s t) ∧
    (decode p op = .instr (.storeRegs x) → 0xFFF < s.i.toNat + x.toNat → ∃ t, exec (.storeRegs x) s = .next t ∧
      FaultedWith s t .boundsFault (max 0x1000 s.i.toNat) (some op) ∧
      (∀ k : RegIdx, s.indexed k.toNat ≤ 0xFFF → t.mem.read (s.indexed k.toNat) = s.getV k) ∧
      ChangesOnly (fun q => q = .run ∨ q = .fault ∨
        ∃ k : RegIdx, s.indexed k.toNat ≤ 0xFFF ∧ q = .mem (s.indexed k.toNat)) s t) ∧
    (decode p op = .instr (.loadRegs x) → 0xFFF < s.i.toNat + x.toNat → ∃ t, exec (.loadRegs x) s = .next t ∧
      FaultedWith s t .boundsFault (max 0x1000 s.i.toNat) (some op) ∧
      (∀ k : RegIdx, s.indexed k.toNat ≤ 0xFFF → t.getV k = s.mem.read (s.indexed k.toNat)) ∧
      ChangesOnly (fun q => q = .run ∨ q = .fault ∨ ∃ k : RegIdx, s.indexed k.toNat ≤ 0xFFF ∧ q = .v k) s t)

/-- MemRead after MemWrite, and the bounds fault of both (20_memory.md R61, 20_memory.md R62, 20_memory.md R69,
20_memory.md R71). At an address up to 0xFFF MemWrite succeeds, MemRead of that address then gives the byte written,
of every other address what it gave before, and nothing but that byte changes. At an address above 0xFFF both raise
BoundsFault with that address, unreduced. -/
def Obligations.MemoryAccessLaws : Prop :=
  ∀ (s : State) (a : Nat) (b : Byte),
    (a ≤ 0xFFF → ∃ t, memWrite s a b = .ok t ∧ memRead t a = .ok b ∧
      (∀ c, c ≠ a → memRead t c = memRead s c) ∧ ChangesOnly (fun q => q = .mem a) s t) ∧
    (0xFFF < a → memRead s a = .error ⟨.boundsFault, a⟩ ∧ memWrite s a b = .error ⟨.boundsFault, a⟩)

/-- No instruction is refused or stops the machine without a next state (00_scope.md R11, 60_exceptions.md R266). For
every instruction, with every operand, and every state, exec answers a next state (a fatal fault is a next state in
FAULTED, log 7). -/
def Obligations.EveryInstructionAnswersNext : Prop :=
  ∀ (i : Instr) (s : State), ∃ t, exec i s = .next t

/-- Which instructions raise which fault (60_exceptions.md R265, 60_exceptions.md R260). When an instruction takes a
core that is not FAULTED into FAULTED, the cause is BoundsFault and the instruction is Dxyn, Fx33, Fx55 or Fx65, or
the cause is StackUnderflow and it is 00EE, or the cause is StackOverflow and it is 2nnn. -/
def Obligations.FaultsOnlyWhereTheTableSays : Prop :=
  ∀ (i : Instr) (s t : State), exec i s = .next t → s.run ≠ .faulted → t.run = .faulted →
    (t.fault.cause = .boundsFault ∧ ((∃ x y n, i = .drw x y n) ∨ ∃ x, i = .ldBVx x ∨ i = .storeRegs x ∨
      i = .loadRegs x)) ∨
    (t.fault.cause = .stackUnderflow ∧ i = .ret) ∨
    (t.fault.cause = .stackOverflow ∧ ∃ nnn, i = .call nnn)

/-- A step that faults keeps pc and records it; a step that does not leaves the record alone (60_exceptions.md R266,
60_exceptions.md R267, 10_state.md R35). When an instruction step of a running core answers a next state in FAULTED,
pc is unchanged, FAULT.pc is that pc, a cause is recorded, and FAULT.instr is the fetched word, or none exactly when
no word can be fetched at pc. When it answers one that is not in FAULTED, RUN is still RUNNING and the record is
unchanged. -/
def Obligations.FaultKeepsPc : Prop :=
  ∀ s t : State, s.InstructionNext → step s = .next t →
    (t.run = .faulted → t.pc = s.pc ∧ t.fault.pc = s.pc ∧ t.fault.cause ≠ .none ∧
      t.fault.instr = if s.pc.toNat ≤ 0xFFE then some (s.wordAt s.pc.toNat) else none) ∧
    (t.run ≠ .faulted → t.run = .running ∧ t.fault = s.fault)

/-- In FAULTED and STOPPED there is no step but a reset (10_state.md R34, 40_step_cycle.md R126, 50_clock_and_timers.md
R171, 60_exceptions.md R269). In FAULTED or STOPPED, with no reset request to come, the step answers no next state
but the fault coreFaulted or coreStopped (the names are the model's, log 7). Any next state a step of such a core
answers is the reset state for an admissible image. -/
def Obligations.NoStepWhenHalted : Prop :=
  (∀ s : State, (∀ image, .reset image ∉ s.schedule) →
    (s.run = .faulted → step s = .fault .coreFaulted) ∧ (s.run = .stopped → step s = .fault .coreStopped)) ∧
  ∀ s t : State, s.run ≠ .running → step s = .next t →
    ∃ image rest, .reset image ∈ s.schedule ∧ image.length ≤ 3584 ∧ image.length % 2 = 0 ∧
      t = State.resetWith s.params (resetMem s.params.font image) s.draws rest s.rounds

/-- Only 00E0 and Dxyn change the display (10_state.md R31, 44_draw_sprite.md R157). When an instruction answers a next
state in which some pixel differs, the instruction is 00E0 or Dxyn; and Dxyn changes neither a byte of memory nor I. -/
def Obligations.DisplayWriters : Prop :=
  ∀ (i : Instr) (s t : State), exec i s = .next t →
    ((∃ px py, t.pixel px py ≠ s.pixel px py) → i = .cls ∨ ∃ x y n, i = .drw x y n) ∧
    ((∃ x y n, i = .drw x y n) → t.i = s.i ∧ ∀ a, t.mem.read a = s.mem.read a)

/-- Only Fx33 and Fx55 change memory; only five instructions change I (20_memory.md R62, 10_state.md R22,
48_ext_mem_key_timer.md R238, 48_ext_mem_key_timer.md R239). When an instruction answers a next state in which some
byte of memory differs, it is Fx33 or Fx55; when I differs, it is Annn, Fx1E, Fx29, Fx55 or Fx65. -/
def Obligations.MemoryAndIndexWriters : Prop :=
  ∀ (i : Instr) (s t : State), exec i s = .next t →
    ((∃ a, t.mem.read a ≠ s.mem.read a) → ∃ x, i = .ldBVx x ∨ i = .storeRegs x) ∧
    (t.i ≠ s.i → (∃ nnn, i = .ldI nnn) ∨ ∃ x, i = .addIVx x ∨ i = .ldFVx x ∨ i = .storeRegs x ∨ i = .loadRegs x)

/-- Who writes DT, ST and the stack; no instruction writes the latch, the frames, the log or the dividers (10_state.md
R25, 10_state.md R26, 10_state.md R28, 10_state.md R36, 10_state.md R43). When an instruction answers a next state:
DT differs only for Fx15, ST only for Fx18, the stack only for 2nnn and 00EE; the key latch, the frames handed out,
the log, the dividers, the parameters, the schedule and the rounds to come are unchanged. -/
def Obligations.TimerStackAndLatchWriters : Prop :=
  ∀ (i : Instr) (s t : State), exec i s = .next t →
    (t.dt ≠ s.dt → ∃ x, i = .ldDTVx x) ∧ (t.st ≠ s.st → ∃ x, i = .ldSTVx x) ∧
    (t.stack ≠ s.stack → i = .ret ∨ ∃ nnn, i = .call nnn) ∧
    t.keys = s.keys ∧ t.frames = s.frames ∧ t.diag = s.diag ∧ t.tdiv = s.tdiv ∧ t.idiv = s.idiv ∧
    t.params = s.params ∧ t.schedule = s.schedule ∧ t.rounds = s.rounds

/-- Nothing the core does depends on the diagnostic log (45_unimplemented.md R162, 10_state.md R40). Two states that
differ at most in DIAG take the same step: when one answers a next state, the other answers a next state that
differs from it at most in DIAG, and a fault or refusal of one is the same fault or refusal of the other. -/
def Obligations.DiagnosticLogUnobservable : Prop :=
  ∀ (s : State) (d : List Report),
    (∀ t, step s = .next t → ∃ d', step { s with diag := d } = .next { t with diag := d' }) ∧
    (∀ f, step s = .fault f → step { s with diag := d } = .fault f) ∧
    ∀ r, step s = .refused r → step { s with diag := d } = .refused r

/-- Under PROFILE = MIN no instruction can observe a tick (50_clock_and_timers.md R183, 50_clock_and_timers.md R181,
10_state.md R36). Under PROFILE = MIN an instruction step does the same whatever DT, ST, the key latch and the
frames handed out are: changing them before the step changes the next state in nothing else, and leaves them as they
were set. -/
def Obligations.MinProfileCannotObserveTicks : Prop :=
  ∀ (s t : State) (dt st : Byte) (keys : Keys) (frames : List Display),
    s.params.profile = .min → s.InstructionNext → step s = .next t →
    step { s with dt := dt, st := st, keys := keys, frames := frames } =
      .next { t with dt := dt, st := st, keys := keys, frames := frames }

/-- The timer tick: timers, frame, key sample, quit check, and nothing else (R171). When the next move of a running core
is a timer tick, the step answers a next state in which each nonzero timer is one less and a timer at 0 stays 0, a
copy of DISP is the last frame, KEYS is the sampled KEYS_IN, RUN is STOPPED when QUIT_IN is 1 and RUNNING otherwise,
and nothing else changed (but for the move taken). -/
def Obligations.TimerTick : Prop :=
  ∀ (s u : State) (keysIn : Keys) (quitIn : Bool), s.NextMove (.tick keysIn quitIn) u → ∃ t, step s = .next t ∧
      t.dt.toNat = s.dt.toNat - 1 ∧ t.st.toNat = s.st.toNat - 1 ∧ t.frames = s.frames ++ [s.disp] ∧
      t.keys = keysIn ∧ t.run = (if quitIn then .stopped else .running) ∧
      t.schedule = u.schedule ∧ t.rounds = u.rounds ∧
      ChangesOnly (fun q => q = .dt ∨ q = .st ∨ q = .frames ∨ q = .keys ∨ q = .run ∨ q = .schedule ∨
        q = .rounds) s t

/-- Both clocks run for as long as the core does: timers run out and a quit request is seen (50_clock_and_timers.md
R179, 50_clock_and_timers.md R171, 50_clock_and_timers.md R177, 10_state.md R25). After any n timer ticks without a
quit request, with any key inputs, each timer holds its former value minus n, or 0 when that is below 0. In every
unbounded run there are unboundedly many instruction steps and unboundedly many timer ticks: after every step an
instruction step and a tick are still to come. From every running core with no reset request to come, each timer
eventually is 0, unless the core halts first or the next step raises the timer; and when QUIT_IN is 1 at every tick
to come, the core is eventually STOPPED, unless it faults first. That moves beyond the schedule come in rounds is
the model's way, and which rounds they are is free (log 5). -/
def Obligations.ClocksNeverCease : Prop :=
  (∀ (s : State) (inputs : List Keys),
    (inputs.foldl (fun u k => timerTick k false u) s).dt.toNat = s.dt.toNat - inputs.length ∧
    (inputs.foldl (fun u k => timerTick k false u) s).st.toNat = s.st.toNat - inputs.length) ∧
  (∀ run : Nat → State, UnboundedRun run →
    ∀ n, (∃ m, n ≤ m ∧ (run m).InstructionNext) ∧ ∃ m, n ≤ m ∧ (run m).TickNext) ∧
  ∀ s : State, s.run = .running → (∀ image, .reset image ∉ s.schedule) →
    (∃ n t, Reaches n s t ∧ (t.run ≠ .running ∨ t.dt = 0 ∨ ∃ u, step t = .next u ∧ t.dt < u.dt)) ∧
    (∃ n t, Reaches n s t ∧ (t.run ≠ .running ∨ t.st = 0 ∨ ∃ u, step t = .next u ∧ t.st < u.st)) ∧
    (s.QuitHeld → ∃ n t, Reaches n s t ∧ (t.run = .faulted ∨ t.run = .stopped))

/-- A clock edge counts both dividers and makes due steps the next moves, the instruction step first
(50_clock_and_timers.md R174, 50_clock_and_timers.md R175, 50_clock_and_timers.md R178). When the next move of a
running core is a clock edge, the step answers a next state in which each divider at 0 is reloaded and else is one
less, and the due steps stand at the head of the schedule, an instruction step when IDIV was 0 and then a tick when
TDIV was 0; nothing else changes (but for the move taken). That the due steps are carried out as the following steps
of the machine is the model's way (log 12). -/
def Obligations.ClockEdgeDividers : Prop :=
  ∀ (s u : State) (keysIn : Keys) (quitIn : Bool), s.NextMove (.clockEdge keysIn quitIn) u → ∃ t, step s = .next t ∧
      t.tdiv = (if s.tdiv = 0 then s.params.tickDiv - 1 else s.tdiv - 1) ∧
      t.idiv = (if s.idiv = 0 then s.params.instrDiv - 1 else s.idiv - 1) ∧
      (s.idiv = 0 → s.tdiv = 0 → t.schedule = .instruction :: .tick keysIn quitIn :: u.schedule) ∧
      (s.idiv = 0 → s.tdiv ≠ 0 → t.schedule = .instruction :: u.schedule) ∧
      (s.idiv ≠ 0 → s.tdiv = 0 → t.schedule = .tick keysIn quitIn :: u.schedule) ∧
      (s.idiv ≠ 0 → s.tdiv ≠ 0 → t.schedule = u.schedule) ∧ t.rounds = u.rounds ∧
      ChangesOnly (fun q => q = .tdiv ∨ q = .idiv ∨ q = .schedule ∨ q = .rounds) s t

/-- n clock edges after reset make n / TICK_DIV ticks and n / INSTR_DIV instruction steps due (50_clock_and_timers.md
R174, 50_clock_and_timers.md R175). From a state with both dividers at their reload values, an empty schedule and
positive divisors, n clock edges make exactly n / TICK_DIV timer ticks and n / INSTR_DIV instruction steps due: the
first tick comes TICK_DIV edges after reset and ticks are TICK_DIV edges apart, and so for the instruction clock.
That due steps are moves gathered in the schedule, here not yet carried out, is the model's way (log 12). -/
def Obligations.ClockEdgesSpaceTheSteps : Prop :=
  ∀ (s : State) (keysIn : Keys) (quitIn : Bool) (n : Nat), s.schedule = [] →
    0 < s.params.tickDiv → 0 < s.params.instrDiv → s.tdiv = s.params.tickDiv - 1 →
    s.idiv = s.params.instrDiv - 1 →
    ((clockEdge keysIn quitIn)^[n] s).schedule.count (.tick keysIn quitIn) = n / s.params.tickDiv ∧
    ((clockEdge keysIn quitIn)^[n] s).schedule.count .instruction = n / s.params.instrDiv

/-- A settled program stays settled under every interleaving (70_reset_and_hazards.md R295, 42_jump.md R135,
50_clock_and_timers.md R173). Under either profile, from a state settled at an address (a running core whose next
word is a jump to itself) with no reset request to come, after any number of steps in any interleaving of
instruction steps, ticks and clock edges, V, I, pc, memory, the display, the stack, the log and the fault record are
unchanged, and the core is still settled there or has been stopped by a quit request. -/
def Obligations.SettledProgramStaysSettled : Prop :=
  ∀ (n : Nat) (s t : State) (a : Addr12), s.SettledAt a → (∀ image, .reset image ∉ s.schedule) → Reaches n s t →
    t.v = s.v ∧ t.i = s.i ∧ t.pc = s.pc ∧ t.mem = s.mem ∧ t.disp = s.disp ∧ t.stack = s.stack ∧
    t.diag = s.diag ∧ t.fault = s.fault ∧ (t.SettledAt a ∨ t.run = .stopped)
end

