-- ==== Sys2Proof/Laws/Memory.lean ====
section
/-! SUPPORT. The laws of memory: a read after a write, and that every memory operation keeps the canonical form. -/

namespace Sys2Proof.Machine

theorem Mem.read_erase_self (m : Mem) (a : Nat) : (m.erase a).read a = resetByte a := by
  induction m with
  | nil => rfl
  | cons c m ih =>
    unfold Mem.erase
    split
    · exact ih
    · next h => simp [Mem.read, h, ih]

theorem Mem.read_erase_of_ne (m : Mem) {a b : Nat} (h : b ≠ a) : (m.erase a).read b = m.read b := by
  induction m with
  | nil => rfl
  | cons c m ih =>
    unfold Mem.erase
    split
    · next hc => rw [ih, Mem.read, if_neg]; omega
    · simp [Mem.read, ih]

theorem Mem.read_insert (m : Mem) (c : Host.Cell) (b : Nat) (h : ∀ d ∈ m, d.1 ≠ c.1) :
    (m.insert c).read b = if b = c.1 then c.2 else m.read b := by
  induction m with
  | nil => by_cases hb : b = c.1 <;> simp [Mem.insert, Mem.read, hb, eq_comm]
  | cons d m ih =>
    have hd := h d (by simp)
    have ihm := ih (fun e he => h e (by simp [he]))
    unfold Mem.insert
    split
    · by_cases hb : b = c.1 <;> simp [Mem.read, hb, eq_comm]
    · simp only [Mem.read, ihm]
      by_cases hb : b = c.1
      · subst hb; simp [hd]
      · simp [hb]

theorem Mem.erase_no_entry (m : Mem) (a : Nat) : ∀ d ∈ m.erase a, d.1 ≠ a := by
  induction m with
  | nil => simp [Mem.erase]
  | cons c m ih =>
    unfold Mem.erase
    split
    · exact ih
    · next h => simpa [h] using ih

/-- A read after a write: the byte written at its address, every other byte as before (20_memory.md R69). -/
theorem Mem.read_write (m : Mem) (a b : Nat) (v : Byte) :
    (m.write a v).read b = if b = a then v else m.read b := by
  unfold Mem.write
  split
  · next hv =>
    split
    · next h => subst h; rw [Mem.read_erase_self, hv]
    · next h => exact Mem.read_erase_of_ne m h
  · rw [Mem.read_insert _ _ _ (Mem.erase_no_entry m a)]
    by_cases h : b = a
    · simp [h]
    · simp [h, Mem.read_erase_of_ne m h]

@[simp] theorem Mem.read_write_self (m : Mem) (a : Nat) (v : Byte) : (m.write a v).read a = v := by
  simp [Mem.read_write]

theorem Mem.read_write_of_ne (m : Mem) {a b : Nat} (h : b ≠ a) (v : Byte) : (m.write a v).read b = m.read b := by
  simp [Mem.read_write, h]

/-- Loading bytes: the loaded ones at their addresses, every other byte as before. -/
theorem Mem.read_load (m : Mem) (base : Nat) (bs : List Byte) (a : Nat) :
    (m.load base bs).read a = if base ≤ a ∧ a < base + bs.length then bs.getD (a - base) 0 else m.read a := by
  induction bs generalizing m base with
  | nil => simp [Mem.load]
  | cons b bs ih =>
    rw [Mem.load, ih, Mem.read_write]
    by_cases h : base + 1 ≤ a ∧ a < base + 1 + bs.length
    · have e : a - base = (a - (base + 1)) + 1 := by omega
      rw [if_pos h, if_pos (by simp only [List.length_cons]; omega), e, List.getD_cons_succ]
    · rw [if_neg h]
      by_cases h0 : a = base
      · subst h0; simp
      · rw [if_neg h0, if_neg (by simp only [List.length_cons]; omega)]

theorem Mem.wfFrom_mono {lo hi : Nat} (m : Mem) (hle : lo ≤ hi) (h : m.wfFrom hi = true) : m.wfFrom lo = true := by
  cases m with
  | nil => rfl
  | cons c m =>
    simp only [Mem.wfFrom, Bool.and_eq_true, decide_eq_true_eq] at h ⊢
    exact ⟨⟨by omega, h.1.2⟩, h.2⟩

theorem Mem.wfFrom_erase (m : Mem) (lo a : Nat) (h : m.wfFrom lo = true) : (m.erase a).wfFrom lo = true := by
  induction m generalizing lo with
  | nil => rfl
  | cons c m ih =>
    simp only [Mem.wfFrom, Bool.and_eq_true, decide_eq_true_eq] at h
    unfold Mem.erase
    split
    · exact Mem.wfFrom_mono _ (by omega) (ih _ h.2)
    · simp only [Mem.wfFrom, Bool.and_eq_true, decide_eq_true_eq]
      exact ⟨h.1, ih _ h.2⟩

theorem Mem.wfFrom_insert (m : Mem) (lo : Nat) (c : Host.Cell) (h : m.wfFrom lo = true) (hlo : lo ≤ c.1)
    (hmem : c.1 < Config.memSize) (hv : c.2 ≠ resetByte c.1) (hne : ∀ d ∈ m, d.1 ≠ c.1) :
    (m.insert c).wfFrom lo = true := by
  induction m generalizing lo with
  | nil => simp [Mem.insert, Mem.wfFrom, hlo, hmem, hv]
  | cons d m ih =>
    have hd := hne d (by simp)
    simp only [Mem.wfFrom, Bool.and_eq_true, decide_eq_true_eq] at h
    unfold Mem.insert
    split
    · next hlt =>
      simp only [Mem.wfFrom, Bool.and_eq_true, decide_eq_true_eq]
      exact ⟨⟨hlo, hmem, hv⟩, ⟨by omega, h.1.2⟩, h.2⟩
    · simp only [Mem.wfFrom, Bool.and_eq_true, decide_eq_true_eq]
      exact ⟨h.1, ih _ h.2 (by omega) (fun e he => hne e (by simp [he]))⟩

/-- A write inside the address space keeps the canonical form. -/
theorem Mem.wf_write (m : Mem) (a : Nat) (v : Byte) (h : m.wf = true) (ha : a < Config.memSize) :
    (m.write a v).wf = true := by
  unfold Mem.write
  split
  · exact Mem.wfFrom_erase m 0 a h
  · next hv =>
    exact Mem.wfFrom_insert _ 0 (a, v) (Mem.wfFrom_erase m 0 a h) (Nat.zero_le _) ha hv (Mem.erase_no_entry m a)

/-- Loading bytes inside the address space keeps the canonical form. -/
theorem Mem.wf_load (m : Mem) (base : Nat) (bs : List Byte) (h : m.wf = true)
    (hb : base + bs.length ≤ Config.memSize) : (m.load base bs).wf = true := by
  induction bs generalizing m base with
  | nil => exact h
  | cons b bs ih =>
    simp only [List.length_cons] at hb
    exact ih _ _ (Mem.wf_write m base b h (by omega)) (by omega)

theorem Mem.read_of_lt_bound (m : Mem) (lo a : Nat) (h : m.wfFrom lo = true) (ha : a < lo) :
    m.read a = resetByte a := by
  induction m generalizing lo with
  | nil => rfl
  | cons c m ih =>
    simp only [Mem.wfFrom, Bool.and_eq_true, decide_eq_true_eq] at h
    rw [Mem.read, if_neg (by omega)]
    exact ih _ h.2 (by omega)

theorem Mem.ext_from (m n : Mem) (lo : Nat) (hm : m.wfFrom lo = true) (hn : n.wfFrom lo = true)
    (h : ∀ a, m.read a = n.read a) : m = n := by
  induction m generalizing n lo with
  | nil =>
    cases n with
    | nil => rfl
    | cons d n =>
      simp only [Mem.wfFrom, Bool.and_eq_true, decide_eq_true_eq] at hn
      have := h d.1
      simp [Mem.read] at this
      exact absurd this.symm hn.1.2.2
  | cons c m ih =>
    cases n with
    | nil =>
      simp only [Mem.wfFrom, Bool.and_eq_true, decide_eq_true_eq] at hm
      have := h c.1
      simp [Mem.read] at this
      exact absurd this hm.1.2.2
    | cons d n =>
      simp only [Mem.wfFrom, Bool.and_eq_true, decide_eq_true_eq] at hm hn
      have hc := h c.1
      have hd := h d.1
      simp only [Mem.read, if_true] at hc hd
      rcases Nat.lt_trichotomy c.1 d.1 with hlt | heq | hgt
      · rw [if_neg (by omega), Mem.read_of_lt_bound n _ _ hn.2 (by omega)] at hc
        exact absurd hc hm.1.2.2
      · have hv : c.2 = d.2 := by simpa [heq] using hc
        have hcd : c = d := Prod.ext heq hv
        subst hcd
        refine congrArg _ (ih n (c.1 + 1) hm.2 hn.2 fun a => ?_)
        by_cases ha : c.1 = a
        · subst ha
          rw [Mem.read_of_lt_bound m _ _ hm.2 (by omega), Mem.read_of_lt_bound n _ _ hn.2 (by omega)]
        · simpa [Mem.read, ha] using h a
      · rw [if_neg (by omega), Mem.read_of_lt_bound m _ _ hm.2 (by omega)] at hd
        exact absurd hd.symm hn.1.2.2

/-- Two canonical memories that read alike are the same data. -/
theorem Mem.ext_of_wf {m n : Mem} (hm : m.wf = true) (hn : n.wf = true) (h : ∀ a, m.read a = n.read a) : m = n :=
  Mem.ext_from m n 0 hm hn h

end Sys2Proof.Machine
end

