-- ==== Sys2Proof/Laws/State.lean ====
section
/-! SUPPORT. What each update of the state does to each field, one lemma per field and update, and what the register,
pixel and key reads see of an update. -/

namespace Sys2Proof.Machine

variable (s : State)

@[simp] theorem State.setV_params (r : RegIdx) (b : Byte) : (s.setV r b).params = s.params := rfl
@[simp] theorem State.setV_v (r : RegIdx) (b : Byte) : (s.setV r b).v = s.v.set r.toNat b := rfl
@[simp] theorem State.setV_i (r : RegIdx) (b : Byte) : (s.setV r b).i = s.i := rfl
@[simp] theorem State.setV_pc (r : RegIdx) (b : Byte) : (s.setV r b).pc = s.pc := rfl
@[simp] theorem State.setV_dt (r : RegIdx) (b : Byte) : (s.setV r b).dt = s.dt := rfl
@[simp] theorem State.setV_st (r : RegIdx) (b : Byte) : (s.setV r b).st = s.st := rfl
@[simp] theorem State.setV_stack (r : RegIdx) (b : Byte) : (s.setV r b).stack = s.stack := rfl
@[simp] theorem State.setV_disp (r : RegIdx) (b : Byte) : (s.setV r b).disp = s.disp := rfl
@[simp] theorem State.setV_mem (r : RegIdx) (b : Byte) : (s.setV r b).mem = s.mem := rfl
@[simp] theorem State.setV_keys (r : RegIdx) (b : Byte) : (s.setV r b).keys = s.keys := rfl
@[simp] theorem State.setV_run (r : RegIdx) (b : Byte) : (s.setV r b).run = s.run := rfl
@[simp] theorem State.setV_fault (r : RegIdx) (b : Byte) : (s.setV r b).fault = s.fault := rfl
@[simp] theorem State.setV_frames (r : RegIdx) (b : Byte) : (s.setV r b).frames = s.frames := rfl
@[simp] theorem State.setV_diag (r : RegIdx) (b : Byte) : (s.setV r b).diag = s.diag := rfl
@[simp] theorem State.setV_tdiv (r : RegIdx) (b : Byte) : (s.setV r b).tdiv = s.tdiv := rfl
@[simp] theorem State.setV_idiv (r : RegIdx) (b : Byte) : (s.setV r b).idiv = s.idiv := rfl
@[simp] theorem State.setV_draws (r : RegIdx) (b : Byte) : (s.setV r b).draws = s.draws := rfl
@[simp] theorem State.setV_schedule (r : RegIdx) (b : Byte) : (s.setV r b).schedule = s.schedule := rfl
@[simp] theorem State.setV_rounds (r : RegIdx) (b : Byte) : (s.setV r b).rounds = s.rounds := rfl

@[simp] theorem State.setI_params (a : Word) : (s.setI a).params = s.params := rfl
@[simp] theorem State.setI_v (a : Word) : (s.setI a).v = s.v := rfl
@[simp] theorem State.setI_i (a : Word) : (s.setI a).i = a := rfl
@[simp] theorem State.setI_pc (a : Word) : (s.setI a).pc = s.pc := rfl
@[simp] theorem State.setI_dt (a : Word) : (s.setI a).dt = s.dt := rfl
@[simp] theorem State.setI_st (a : Word) : (s.setI a).st = s.st := rfl
@[simp] theorem State.setI_stack (a : Word) : (s.setI a).stack = s.stack := rfl
@[simp] theorem State.setI_disp (a : Word) : (s.setI a).disp = s.disp := rfl
@[simp] theorem State.setI_mem (a : Word) : (s.setI a).mem = s.mem := rfl
@[simp] theorem State.setI_keys (a : Word) : (s.setI a).keys = s.keys := rfl
@[simp] theorem State.setI_run (a : Word) : (s.setI a).run = s.run := rfl
@[simp] theorem State.setI_fault (a : Word) : (s.setI a).fault = s.fault := rfl
@[simp] theorem State.setI_frames (a : Word) : (s.setI a).frames = s.frames := rfl
@[simp] theorem State.setI_diag (a : Word) : (s.setI a).diag = s.diag := rfl
@[simp] theorem State.setI_tdiv (a : Word) : (s.setI a).tdiv = s.tdiv := rfl
@[simp] theorem State.setI_idiv (a : Word) : (s.setI a).idiv = s.idiv := rfl
@[simp] theorem State.setI_draws (a : Word) : (s.setI a).draws = s.draws := rfl
@[simp] theorem State.setI_schedule (a : Word) : (s.setI a).schedule = s.schedule := rfl
@[simp] theorem State.setI_rounds (a : Word) : (s.setI a).rounds = s.rounds := rfl

@[simp] theorem State.setPc_params (a : Word) : (s.setPc a).params = s.params := rfl
@[simp] theorem State.setPc_v (a : Word) : (s.setPc a).v = s.v := rfl
@[simp] theorem State.setPc_i (a : Word) : (s.setPc a).i = s.i := rfl
@[simp] theorem State.setPc_pc (a : Word) : (s.setPc a).pc = a := rfl
@[simp] theorem State.setPc_dt (a : Word) : (s.setPc a).dt = s.dt := rfl
@[simp] theorem State.setPc_st (a : Word) : (s.setPc a).st = s.st := rfl
@[simp] theorem State.setPc_stack (a : Word) : (s.setPc a).stack = s.stack := rfl
@[simp] theorem State.setPc_disp (a : Word) : (s.setPc a).disp = s.disp := rfl
@[simp] theorem State.setPc_mem (a : Word) : (s.setPc a).mem = s.mem := rfl
@[simp] theorem State.setPc_keys (a : Word) : (s.setPc a).keys = s.keys := rfl
@[simp] theorem State.setPc_run (a : Word) : (s.setPc a).run = s.run := rfl
@[simp] theorem State.setPc_fault (a : Word) : (s.setPc a).fault = s.fault := rfl
@[simp] theorem State.setPc_frames (a : Word) : (s.setPc a).frames = s.frames := rfl
@[simp] theorem State.setPc_diag (a : Word) : (s.setPc a).diag = s.diag := rfl
@[simp] theorem State.setPc_tdiv (a : Word) : (s.setPc a).tdiv = s.tdiv := rfl
@[simp] theorem State.setPc_idiv (a : Word) : (s.setPc a).idiv = s.idiv := rfl
@[simp] theorem State.setPc_draws (a : Word) : (s.setPc a).draws = s.draws := rfl
@[simp] theorem State.setPc_schedule (a : Word) : (s.setPc a).schedule = s.schedule := rfl
@[simp] theorem State.setPc_rounds (a : Word) : (s.setPc a).rounds = s.rounds := rfl

@[simp] theorem State.advance_params : (s.advance).params = s.params := rfl
@[simp] theorem State.advance_v : (s.advance).v = s.v := rfl
@[simp] theorem State.advance_i : (s.advance).i = s.i := rfl
@[simp] theorem State.advance_pc : (s.advance).pc = s.pc + 2 := rfl
@[simp] theorem State.advance_dt : (s.advance).dt = s.dt := rfl
@[simp] theorem State.advance_st : (s.advance).st = s.st := rfl
@[simp] theorem State.advance_stack : (s.advance).stack = s.stack := rfl
@[simp] theorem State.advance_disp : (s.advance).disp = s.disp := rfl
@[simp] theorem State.advance_mem : (s.advance).mem = s.mem := rfl
@[simp] theorem State.advance_keys : (s.advance).keys = s.keys := rfl
@[simp] theorem State.advance_run : (s.advance).run = s.run := rfl
@[simp] theorem State.advance_fault : (s.advance).fault = s.fault := rfl
@[simp] theorem State.advance_frames : (s.advance).frames = s.frames := rfl
@[simp] theorem State.advance_diag : (s.advance).diag = s.diag := rfl
@[simp] theorem State.advance_tdiv : (s.advance).tdiv = s.tdiv := rfl
@[simp] theorem State.advance_idiv : (s.advance).idiv = s.idiv := rfl
@[simp] theorem State.advance_draws : (s.advance).draws = s.draws := rfl
@[simp] theorem State.advance_schedule : (s.advance).schedule = s.schedule := rfl
@[simp] theorem State.advance_rounds : (s.advance).rounds = s.rounds := rfl

@[simp] theorem State.skipIf_params (c : Bool) : (s.skipIf c).params = s.params := rfl
@[simp] theorem State.skipIf_v (c : Bool) : (s.skipIf c).v = s.v := rfl
@[simp] theorem State.skipIf_i (c : Bool) : (s.skipIf c).i = s.i := rfl
@[simp] theorem State.skipIf_pc (c : Bool) : (s.skipIf c).pc = if c then s.pc + 4 else s.pc + 2 := rfl
@[simp] theorem State.skipIf_dt (c : Bool) : (s.skipIf c).dt = s.dt := rfl
@[simp] theorem State.skipIf_st (c : Bool) : (s.skipIf c).st = s.st := rfl
@[simp] theorem State.skipIf_stack (c : Bool) : (s.skipIf c).stack = s.stack := rfl
@[simp] theorem State.skipIf_disp (c : Bool) : (s.skipIf c).disp = s.disp := rfl
@[simp] theorem State.skipIf_mem (c : Bool) : (s.skipIf c).mem = s.mem := rfl
@[simp] theorem State.skipIf_keys (c : Bool) : (s.skipIf c).keys = s.keys := rfl
@[simp] theorem State.skipIf_run (c : Bool) : (s.skipIf c).run = s.run := rfl
@[simp] theorem State.skipIf_fault (c : Bool) : (s.skipIf c).fault = s.fault := rfl
@[simp] theorem State.skipIf_frames (c : Bool) : (s.skipIf c).frames = s.frames := rfl
@[simp] theorem State.skipIf_diag (c : Bool) : (s.skipIf c).diag = s.diag := rfl
@[simp] theorem State.skipIf_tdiv (c : Bool) : (s.skipIf c).tdiv = s.tdiv := rfl
@[simp] theorem State.skipIf_idiv (c : Bool) : (s.skipIf c).idiv = s.idiv := rfl
@[simp] theorem State.skipIf_draws (c : Bool) : (s.skipIf c).draws = s.draws := rfl
@[simp] theorem State.skipIf_schedule (c : Bool) : (s.skipIf c).schedule = s.schedule := rfl
@[simp] theorem State.skipIf_rounds (c : Bool) : (s.skipIf c).rounds = s.rounds := rfl

@[simp] theorem State.setDT_params (b : Byte) : (s.setDT b).params = s.params := rfl
@[simp] theorem State.setDT_v (b : Byte) : (s.setDT b).v = s.v := rfl
@[simp] theorem State.setDT_i (b : Byte) : (s.setDT b).i = s.i := rfl
@[simp] theorem State.setDT_pc (b : Byte) : (s.setDT b).pc = s.pc := rfl
@[simp] theorem State.setDT_dt (b : Byte) : (s.setDT b).dt = b := rfl
@[simp] theorem State.setDT_st (b : Byte) : (s.setDT b).st = s.st := rfl
@[simp] theorem State.setDT_stack (b : Byte) : (s.setDT b).stack = s.stack := rfl
@[simp] theorem State.setDT_disp (b : Byte) : (s.setDT b).disp = s.disp := rfl
@[simp] theorem State.setDT_mem (b : Byte) : (s.setDT b).mem = s.mem := rfl
@[simp] theorem State.setDT_keys (b : Byte) : (s.setDT b).keys = s.keys := rfl
@[simp] theorem State.setDT_run (b : Byte) : (s.setDT b).run = s.run := rfl
@[simp] theorem State.setDT_fault (b : Byte) : (s.setDT b).fault = s.fault := rfl
@[simp] theorem State.setDT_frames (b : Byte) : (s.setDT b).frames = s.frames := rfl
@[simp] theorem State.setDT_diag (b : Byte) : (s.setDT b).diag = s.diag := rfl
@[simp] theorem State.setDT_tdiv (b : Byte) : (s.setDT b).tdiv = s.tdiv := rfl
@[simp] theorem State.setDT_idiv (b : Byte) : (s.setDT b).idiv = s.idiv := rfl
@[simp] theorem State.setDT_draws (b : Byte) : (s.setDT b).draws = s.draws := rfl
@[simp] theorem State.setDT_schedule (b : Byte) : (s.setDT b).schedule = s.schedule := rfl
@[simp] theorem State.setDT_rounds (b : Byte) : (s.setDT b).rounds = s.rounds := rfl

@[simp] theorem State.setST_params (b : Byte) : (s.setST b).params = s.params := rfl
@[simp] theorem State.setST_v (b : Byte) : (s.setST b).v = s.v := rfl
@[simp] theorem State.setST_i (b : Byte) : (s.setST b).i = s.i := rfl
@[simp] theorem State.setST_pc (b : Byte) : (s.setST b).pc = s.pc := rfl
@[simp] theorem State.setST_dt (b : Byte) : (s.setST b).dt = s.dt := rfl
@[simp] theorem State.setST_st (b : Byte) : (s.setST b).st = b := rfl
@[simp] theorem State.setST_stack (b : Byte) : (s.setST b).stack = s.stack := rfl
@[simp] theorem State.setST_disp (b : Byte) : (s.setST b).disp = s.disp := rfl
@[simp] theorem State.setST_mem (b : Byte) : (s.setST b).mem = s.mem := rfl
@[simp] theorem State.setST_keys (b : Byte) : (s.setST b).keys = s.keys := rfl
@[simp] theorem State.setST_run (b : Byte) : (s.setST b).run = s.run := rfl
@[simp] theorem State.setST_fault (b : Byte) : (s.setST b).fault = s.fault := rfl
@[simp] theorem State.setST_frames (b : Byte) : (s.setST b).frames = s.frames := rfl
@[simp] theorem State.setST_diag (b : Byte) : (s.setST b).diag = s.diag := rfl
@[simp] theorem State.setST_tdiv (b : Byte) : (s.setST b).tdiv = s.tdiv := rfl
@[simp] theorem State.setST_idiv (b : Byte) : (s.setST b).idiv = s.idiv := rfl
@[simp] theorem State.setST_draws (b : Byte) : (s.setST b).draws = s.draws := rfl
@[simp] theorem State.setST_schedule (b : Byte) : (s.setST b).schedule = s.schedule := rfl
@[simp] theorem State.setST_rounds (b : Byte) : (s.setST b).rounds = s.rounds := rfl

@[simp] theorem State.setWithFlag_params (x : RegIdx) (b : Byte) (f : Bool) : (s.setWithFlag x b f).params = s.params := rfl
@[simp] theorem State.setWithFlag_v (x : RegIdx) (b : Byte) (f : Bool) : (s.setWithFlag x b f).v = (s.v.set x.toNat b).set regF.toNat (flagByte f) := rfl
@[simp] theorem State.setWithFlag_i (x : RegIdx) (b : Byte) (f : Bool) : (s.setWithFlag x b f).i = s.i := rfl
@[simp] theorem State.setWithFlag_pc (x : RegIdx) (b : Byte) (f : Bool) : (s.setWithFlag x b f).pc = s.pc := rfl
@[simp] theorem State.setWithFlag_dt (x : RegIdx) (b : Byte) (f : Bool) : (s.setWithFlag x b f).dt = s.dt := rfl
@[simp] theorem State.setWithFlag_st (x : RegIdx) (b : Byte) (f : Bool) : (s.setWithFlag x b f).st = s.st := rfl
@[simp] theorem State.setWithFlag_stack (x : RegIdx) (b : Byte) (f : Bool) : (s.setWithFlag x b f).stack = s.stack := rfl
@[simp] theorem State.setWithFlag_disp (x : RegIdx) (b : Byte) (f : Bool) : (s.setWithFlag x b f).disp = s.disp := rfl
@[simp] theorem State.setWithFlag_mem (x : RegIdx) (b : Byte) (f : Bool) : (s.setWithFlag x b f).mem = s.mem := rfl
@[simp] theorem State.setWithFlag_keys (x : RegIdx) (b : Byte) (f : Bool) : (s.setWithFlag x b f).keys = s.keys := rfl
@[simp] theorem State.setWithFlag_run (x : RegIdx) (b : Byte) (f : Bool) : (s.setWithFlag x b f).run = s.run := rfl
@[simp] theorem State.setWithFlag_fault (x : RegIdx) (b : Byte) (f : Bool) : (s.setWithFlag x b f).fault = s.fault := rfl
@[simp] theorem State.setWithFlag_frames (x : RegIdx) (b : Byte) (f : Bool) : (s.setWithFlag x b f).frames = s.frames := rfl
@[simp] theorem State.setWithFlag_diag (x : RegIdx) (b : Byte) (f : Bool) : (s.setWithFlag x b f).diag = s.diag := rfl
@[simp] theorem State.setWithFlag_tdiv (x : RegIdx) (b : Byte) (f : Bool) : (s.setWithFlag x b f).tdiv = s.tdiv := rfl
@[simp] theorem State.setWithFlag_idiv (x : RegIdx) (b : Byte) (f : Bool) : (s.setWithFlag x b f).idiv = s.idiv := rfl
@[simp] theorem State.setWithFlag_draws (x : RegIdx) (b : Byte) (f : Bool) : (s.setWithFlag x b f).draws = s.draws := rfl
@[simp] theorem State.setWithFlag_schedule (x : RegIdx) (b : Byte) (f : Bool) : (s.setWithFlag x b f).schedule = s.schedule := rfl
@[simp] theorem State.setWithFlag_rounds (x : RegIdx) (b : Byte) (f : Bool) : (s.setWithFlag x b f).rounds = s.rounds := rfl

@[simp] theorem State.clearDisplay_params : (s.clearDisplay).params = s.params := rfl
@[simp] theorem State.clearDisplay_v : (s.clearDisplay).v = s.v := rfl
@[simp] theorem State.clearDisplay_i : (s.clearDisplay).i = s.i := rfl
@[simp] theorem State.clearDisplay_pc : (s.clearDisplay).pc = s.pc := rfl
@[simp] theorem State.clearDisplay_dt : (s.clearDisplay).dt = s.dt := rfl
@[simp] theorem State.clearDisplay_st : (s.clearDisplay).st = s.st := rfl
@[simp] theorem State.clearDisplay_stack : (s.clearDisplay).stack = s.stack := rfl
@[simp] theorem State.clearDisplay_disp : (s.clearDisplay).disp = blankDisplay := rfl
@[simp] theorem State.clearDisplay_mem : (s.clearDisplay).mem = s.mem := rfl
@[simp] theorem State.clearDisplay_keys : (s.clearDisplay).keys = s.keys := rfl
@[simp] theorem State.clearDisplay_run : (s.clearDisplay).run = s.run := rfl
@[simp] theorem State.clearDisplay_fault : (s.clearDisplay).fault = s.fault := rfl
@[simp] theorem State.clearDisplay_frames : (s.clearDisplay).frames = s.frames := rfl
@[simp] theorem State.clearDisplay_diag : (s.clearDisplay).diag = s.diag := rfl
@[simp] theorem State.clearDisplay_tdiv : (s.clearDisplay).tdiv = s.tdiv := rfl
@[simp] theorem State.clearDisplay_idiv : (s.clearDisplay).idiv = s.idiv := rfl
@[simp] theorem State.clearDisplay_draws : (s.clearDisplay).draws = s.draws := rfl
@[simp] theorem State.clearDisplay_schedule : (s.clearDisplay).schedule = s.schedule := rfl
@[simp] theorem State.clearDisplay_rounds : (s.clearDisplay).rounds = s.rounds := rfl

@[simp] theorem State.togglePixel_params (px : Fin 64) (py : Fin 32) : (s.togglePixel px py).params = s.params := rfl
@[simp] theorem State.togglePixel_v (px : Fin 64) (py : Fin 32) : (s.togglePixel px py).v = s.v := rfl
@[simp] theorem State.togglePixel_i (px : Fin 64) (py : Fin 32) : (s.togglePixel px py).i = s.i := rfl
@[simp] theorem State.togglePixel_pc (px : Fin 64) (py : Fin 32) : (s.togglePixel px py).pc = s.pc := rfl
@[simp] theorem State.togglePixel_dt (px : Fin 64) (py : Fin 32) : (s.togglePixel px py).dt = s.dt := rfl
@[simp] theorem State.togglePixel_st (px : Fin 64) (py : Fin 32) : (s.togglePixel px py).st = s.st := rfl
@[simp] theorem State.togglePixel_stack (px : Fin 64) (py : Fin 32) : (s.togglePixel px py).stack = s.stack := rfl
@[simp] theorem State.togglePixel_mem (px : Fin 64) (py : Fin 32) : (s.togglePixel px py).mem = s.mem := rfl
@[simp] theorem State.togglePixel_keys (px : Fin 64) (py : Fin 32) : (s.togglePixel px py).keys = s.keys := rfl
@[simp] theorem State.togglePixel_run (px : Fin 64) (py : Fin 32) : (s.togglePixel px py).run = s.run := rfl
@[simp] theorem State.togglePixel_fault (px : Fin 64) (py : Fin 32) : (s.togglePixel px py).fault = s.fault := rfl
@[simp] theorem State.togglePixel_frames (px : Fin 64) (py : Fin 32) : (s.togglePixel px py).frames = s.frames := rfl
@[simp] theorem State.togglePixel_diag (px : Fin 64) (py : Fin 32) : (s.togglePixel px py).diag = s.diag := rfl
@[simp] theorem State.togglePixel_tdiv (px : Fin 64) (py : Fin 32) : (s.togglePixel px py).tdiv = s.tdiv := rfl
@[simp] theorem State.togglePixel_idiv (px : Fin 64) (py : Fin 32) : (s.togglePixel px py).idiv = s.idiv := rfl
@[simp] theorem State.togglePixel_draws (px : Fin 64) (py : Fin 32) : (s.togglePixel px py).draws = s.draws := rfl
@[simp] theorem State.togglePixel_schedule (px : Fin 64) (py : Fin 32) : (s.togglePixel px py).schedule = s.schedule := rfl
@[simp] theorem State.togglePixel_rounds (px : Fin 64) (py : Fin 32) : (s.togglePixel px py).rounds = s.rounds := rfl

@[simp] theorem State.report_params (op : Word) : (s.report op).params = s.params := rfl
@[simp] theorem State.report_v (op : Word) : (s.report op).v = s.v := rfl
@[simp] theorem State.report_i (op : Word) : (s.report op).i = s.i := rfl
@[simp] theorem State.report_pc (op : Word) : (s.report op).pc = s.pc := rfl
@[simp] theorem State.report_dt (op : Word) : (s.report op).dt = s.dt := rfl
@[simp] theorem State.report_st (op : Word) : (s.report op).st = s.st := rfl
@[simp] theorem State.report_stack (op : Word) : (s.report op).stack = s.stack := rfl
@[simp] theorem State.report_disp (op : Word) : (s.report op).disp = s.disp := rfl
@[simp] theorem State.report_mem (op : Word) : (s.report op).mem = s.mem := rfl
@[simp] theorem State.report_keys (op : Word) : (s.report op).keys = s.keys := rfl
@[simp] theorem State.report_run (op : Word) : (s.report op).run = s.run := rfl
@[simp] theorem State.report_fault (op : Word) : (s.report op).fault = s.fault := rfl
@[simp] theorem State.report_frames (op : Word) : (s.report op).frames = s.frames := rfl
@[simp] theorem State.report_diag (op : Word) : (s.report op).diag = s.diag ++ [⟨s.pc, op⟩] := rfl
@[simp] theorem State.report_tdiv (op : Word) : (s.report op).tdiv = s.tdiv := rfl
@[simp] theorem State.report_idiv (op : Word) : (s.report op).idiv = s.idiv := rfl
@[simp] theorem State.report_draws (op : Word) : (s.report op).draws = s.draws := rfl
@[simp] theorem State.report_schedule (op : Word) : (s.report op).schedule = s.schedule := rfl
@[simp] theorem State.report_rounds (op : Word) : (s.report op).rounds = s.rounds := rfl

@[simp] theorem State.takeFault_params (op : Option Word) (f : Raise) : (s.takeFault op f).params = s.params := rfl
@[simp] theorem State.takeFault_v (op : Option Word) (f : Raise) : (s.takeFault op f).v = s.v := rfl
@[simp] theorem State.takeFault_i (op : Option Word) (f : Raise) : (s.takeFault op f).i = s.i := rfl
@[simp] theorem State.takeFault_pc (op : Option Word) (f : Raise) : (s.takeFault op f).pc = s.pc := rfl
@[simp] theorem State.takeFault_dt (op : Option Word) (f : Raise) : (s.takeFault op f).dt = s.dt := rfl
@[simp] theorem State.takeFault_st (op : Option Word) (f : Raise) : (s.takeFault op f).st = s.st := rfl
@[simp] theorem State.takeFault_stack (op : Option Word) (f : Raise) : (s.takeFault op f).stack = s.stack := rfl
@[simp] theorem State.takeFault_disp (op : Option Word) (f : Raise) : (s.takeFault op f).disp = s.disp := rfl
@[simp] theorem State.takeFault_mem (op : Option Word) (f : Raise) : (s.takeFault op f).mem = s.mem := rfl
@[simp] theorem State.takeFault_keys (op : Option Word) (f : Raise) : (s.takeFault op f).keys = s.keys := rfl
@[simp] theorem State.takeFault_run (op : Option Word) (f : Raise) : (s.takeFault op f).run = .faulted := rfl
@[simp] theorem State.takeFault_fault (op : Option Word) (f : Raise) : (s.takeFault op f).fault = ⟨f.cause, f.addr, s.pc, op⟩ := rfl
@[simp] theorem State.takeFault_frames (op : Option Word) (f : Raise) : (s.takeFault op f).frames = s.frames := rfl
@[simp] theorem State.takeFault_diag (op : Option Word) (f : Raise) : (s.takeFault op f).diag = s.diag := rfl
@[simp] theorem State.takeFault_tdiv (op : Option Word) (f : Raise) : (s.takeFault op f).tdiv = s.tdiv := rfl
@[simp] theorem State.takeFault_idiv (op : Option Word) (f : Raise) : (s.takeFault op f).idiv = s.idiv := rfl
@[simp] theorem State.takeFault_draws (op : Option Word) (f : Raise) : (s.takeFault op f).draws = s.draws := rfl
@[simp] theorem State.takeFault_schedule (op : Option Word) (f : Raise) : (s.takeFault op f).schedule = s.schedule := rfl
@[simp] theorem State.takeFault_rounds (op : Option Word) (f : Raise) : (s.takeFault op f).rounds = s.rounds := rfl

@[simp] theorem State.logicFlag_params : (s.logicFlag).params = s.params := by
  unfold State.logicFlag; split <;> rfl
@[simp] theorem State.logicFlag_i : (s.logicFlag).i = s.i := by
  unfold State.logicFlag; split <;> rfl
@[simp] theorem State.logicFlag_pc : (s.logicFlag).pc = s.pc := by
  unfold State.logicFlag; split <;> rfl
@[simp] theorem State.logicFlag_dt : (s.logicFlag).dt = s.dt := by
  unfold State.logicFlag; split <;> rfl
@[simp] theorem State.logicFlag_st : (s.logicFlag).st = s.st := by
  unfold State.logicFlag; split <;> rfl
@[simp] theorem State.logicFlag_stack : (s.logicFlag).stack = s.stack := by
  unfold State.logicFlag; split <;> rfl
@[simp] theorem State.logicFlag_disp : (s.logicFlag).disp = s.disp := by
  unfold State.logicFlag; split <;> rfl
@[simp] theorem State.logicFlag_mem : (s.logicFlag).mem = s.mem := by
  unfold State.logicFlag; split <;> rfl
@[simp] theorem State.logicFlag_keys : (s.logicFlag).keys = s.keys := by
  unfold State.logicFlag; split <;> rfl
@[simp] theorem State.logicFlag_run : (s.logicFlag).run = s.run := by
  unfold State.logicFlag; split <;> rfl
@[simp] theorem State.logicFlag_fault : (s.logicFlag).fault = s.fault := by
  unfold State.logicFlag; split <;> rfl
@[simp] theorem State.logicFlag_frames : (s.logicFlag).frames = s.frames := by
  unfold State.logicFlag; split <;> rfl
@[simp] theorem State.logicFlag_diag : (s.logicFlag).diag = s.diag := by
  unfold State.logicFlag; split <;> rfl
@[simp] theorem State.logicFlag_tdiv : (s.logicFlag).tdiv = s.tdiv := by
  unfold State.logicFlag; split <;> rfl
@[simp] theorem State.logicFlag_idiv : (s.logicFlag).idiv = s.idiv := by
  unfold State.logicFlag; split <;> rfl
@[simp] theorem State.logicFlag_draws : (s.logicFlag).draws = s.draws := by
  unfold State.logicFlag; split <;> rfl
@[simp] theorem State.logicFlag_schedule : (s.logicFlag).schedule = s.schedule := by
  unfold State.logicFlag; split <;> rfl
@[simp] theorem State.logicFlag_rounds : (s.logicFlag).rounds = s.rounds := by
  unfold State.logicFlag; split <;> rfl

@[simp] theorem State.advanceI_params (x : RegIdx) : (s.advanceI x).params = s.params := by
  unfold State.advanceI; split <;> rfl
@[simp] theorem State.advanceI_v (x : RegIdx) : (s.advanceI x).v = s.v := by
  unfold State.advanceI; split <;> rfl
@[simp] theorem State.advanceI_pc (x : RegIdx) : (s.advanceI x).pc = s.pc := by
  unfold State.advanceI; split <;> rfl
@[simp] theorem State.advanceI_dt (x : RegIdx) : (s.advanceI x).dt = s.dt := by
  unfold State.advanceI; split <;> rfl
@[simp] theorem State.advanceI_st (x : RegIdx) : (s.advanceI x).st = s.st := by
  unfold State.advanceI; split <;> rfl
@[simp] theorem State.advanceI_stack (x : RegIdx) : (s.advanceI x).stack = s.stack := by
  unfold State.advanceI; split <;> rfl
@[simp] theorem State.advanceI_disp (x : RegIdx) : (s.advanceI x).disp = s.disp := by
  unfold State.advanceI; split <;> rfl
@[simp] theorem State.advanceI_mem (x : RegIdx) : (s.advanceI x).mem = s.mem := by
  unfold State.advanceI; split <;> rfl
@[simp] theorem State.advanceI_keys (x : RegIdx) : (s.advanceI x).keys = s.keys := by
  unfold State.advanceI; split <;> rfl
@[simp] theorem State.advanceI_run (x : RegIdx) : (s.advanceI x).run = s.run := by
  unfold State.advanceI; split <;> rfl
@[simp] theorem State.advanceI_fault (x : RegIdx) : (s.advanceI x).fault = s.fault := by
  unfold State.advanceI; split <;> rfl
@[simp] theorem State.advanceI_frames (x : RegIdx) : (s.advanceI x).frames = s.frames := by
  unfold State.advanceI; split <;> rfl
@[simp] theorem State.advanceI_diag (x : RegIdx) : (s.advanceI x).diag = s.diag := by
  unfold State.advanceI; split <;> rfl
@[simp] theorem State.advanceI_tdiv (x : RegIdx) : (s.advanceI x).tdiv = s.tdiv := by
  unfold State.advanceI; split <;> rfl
@[simp] theorem State.advanceI_idiv (x : RegIdx) : (s.advanceI x).idiv = s.idiv := by
  unfold State.advanceI; split <;> rfl
@[simp] theorem State.advanceI_draws (x : RegIdx) : (s.advanceI x).draws = s.draws := by
  unfold State.advanceI; split <;> rfl
@[simp] theorem State.advanceI_schedule (x : RegIdx) : (s.advanceI x).schedule = s.schedule := by
  unfold State.advanceI; split <;> rfl
@[simp] theorem State.advanceI_rounds (x : RegIdx) : (s.advanceI x).rounds = s.rounds := by
  unfold State.advanceI; split <;> rfl

@[simp] theorem State.flagCollision_params (px : Fin 64) (py : Fin 32) : (s.flagCollision px py).params = s.params := by
  unfold State.flagCollision; split <;> rfl
@[simp] theorem State.flagCollision_i (px : Fin 64) (py : Fin 32) : (s.flagCollision px py).i = s.i := by
  unfold State.flagCollision; split <;> rfl
@[simp] theorem State.flagCollision_pc (px : Fin 64) (py : Fin 32) : (s.flagCollision px py).pc = s.pc := by
  unfold State.flagCollision; split <;> rfl
@[simp] theorem State.flagCollision_dt (px : Fin 64) (py : Fin 32) : (s.flagCollision px py).dt = s.dt := by
  unfold State.flagCollision; split <;> rfl
@[simp] theorem State.flagCollision_st (px : Fin 64) (py : Fin 32) : (s.flagCollision px py).st = s.st := by
  unfold State.flagCollision; split <;> rfl
@[simp] theorem State.flagCollision_stack (px : Fin 64) (py : Fin 32) : (s.flagCollision px py).stack = s.stack := by
  unfold State.flagCollision; split <;> rfl
@[simp] theorem State.flagCollision_disp (px : Fin 64) (py : Fin 32) : (s.flagCollision px py).disp = s.disp := by
  unfold State.flagCollision; split <;> rfl
@[simp] theorem State.flagCollision_mem (px : Fin 64) (py : Fin 32) : (s.flagCollision px py).mem = s.mem := by
  unfold State.flagCollision; split <;> rfl
@[simp] theorem State.flagCollision_keys (px : Fin 64) (py : Fin 32) : (s.flagCollision px py).keys = s.keys := by
  unfold State.flagCollision; split <;> rfl
@[simp] theorem State.flagCollision_run (px : Fin 64) (py : Fin 32) : (s.flagCollision px py).run = s.run := by
  unfold State.flagCollision; split <;> rfl
@[simp] theorem State.flagCollision_fault (px : Fin 64) (py : Fin 32) : (s.flagCollision px py).fault = s.fault := by
  unfold State.flagCollision; split <;> rfl
@[simp] theorem State.flagCollision_frames (px : Fin 64) (py : Fin 32) : (s.flagCollision px py).frames = s.frames := by
  unfold State.flagCollision; split <;> rfl
@[simp] theorem State.flagCollision_diag (px : Fin 64) (py : Fin 32) : (s.flagCollision px py).diag = s.diag := by
  unfold State.flagCollision; split <;> rfl
@[simp] theorem State.flagCollision_tdiv (px : Fin 64) (py : Fin 32) : (s.flagCollision px py).tdiv = s.tdiv := by
  unfold State.flagCollision; split <;> rfl
@[simp] theorem State.flagCollision_idiv (px : Fin 64) (py : Fin 32) : (s.flagCollision px py).idiv = s.idiv := by
  unfold State.flagCollision; split <;> rfl
@[simp] theorem State.flagCollision_draws (px : Fin 64) (py : Fin 32) : (s.flagCollision px py).draws = s.draws := by
  unfold State.flagCollision; split <;> rfl
@[simp] theorem State.flagCollision_schedule (px : Fin 64) (py : Fin 32) : (s.flagCollision px py).schedule = s.schedule := by
  unfold State.flagCollision; split <;> rfl
@[simp] theorem State.flagCollision_rounds (px : Fin 64) (py : Fin 32) : (s.flagCollision px py).rounds = s.rounds := by
  unfold State.flagCollision; split <;> rfl

/-! ### Register reads -/

@[simp] theorem State.getV_setV_self (r : RegIdx) (b : Byte) : (s.setV r b).getV r = b := by
  simp [State.getV]

theorem State.getV_setV_of_ne {r q : RegIdx} (h : q ≠ r) (b : Byte) : (s.setV r b).getV q = s.getV q := by
  have : r.toNat ≠ q.toNat := fun e => h (BitVec.eq_of_toNat_eq e).symm
  simp [State.getV, Vector.getElem_set_ne _ _ this]

theorem State.getV_setV (r q : RegIdx) (b : Byte) : (s.setV r b).getV q = if q = r then b else s.getV q := by
  split
  · next h => subst h; simp
  · next h => exact s.getV_setV_of_ne h b

/-- A register read sees only the field `v`. -/
theorem State.getV_congr {s t : State} (h : t.v = s.v) (r : RegIdx) : t.getV r = s.getV r := by
  simp [State.getV, h]

@[simp] theorem State.getV_setI (a : Word) (q : RegIdx) : (s.setI a).getV q = s.getV q := rfl
@[simp] theorem State.getV_setPc (a : Word) (q : RegIdx) : (s.setPc a).getV q = s.getV q := rfl
@[simp] theorem State.getV_advance (q : RegIdx) : (s.advance).getV q = s.getV q := rfl
@[simp] theorem State.getV_skipIf (c : Bool) (q : RegIdx) : (s.skipIf c).getV q = s.getV q := rfl
@[simp] theorem State.getV_setDT (b : Byte) (q : RegIdx) : (s.setDT b).getV q = s.getV q := rfl
@[simp] theorem State.getV_setST (b : Byte) (q : RegIdx) : (s.setST b).getV q = s.getV q := rfl
@[simp] theorem State.getV_clearDisplay (q : RegIdx) : (s.clearDisplay).getV q = s.getV q := rfl
@[simp] theorem State.getV_togglePixel (px : Fin 64) (py : Fin 32) (q : RegIdx) : (s.togglePixel px py).getV q = s.getV q := rfl
@[simp] theorem State.getV_report (op : Word) (q : RegIdx) : (s.report op).getV q = s.getV q := rfl
@[simp] theorem State.getV_takeFault (op : Option Word) (f : Raise) (q : RegIdx) : (s.takeFault op f).getV q = s.getV q := rfl
@[simp] theorem State.getV_advanceI (x q : RegIdx) : (s.advanceI x).getV q = s.getV q := State.getV_congr (by simp) q

theorem State.getV_setWithFlag (x q : RegIdx) (b : Byte) (f : Bool) :
    (s.setWithFlag x b f).getV q = if q = regF then flagByte f else if q = x then b else s.getV q := by
  simp only [State.setWithFlag, State.getV_setV]

@[simp] theorem State.getV_setWithFlag_flag (x : RegIdx) (b : Byte) (f : Bool) :
    (s.setWithFlag x b f).getV regF = flagByte f := by
  rw [State.getV_setWithFlag, if_pos rfl]

theorem State.getV_setWithFlag_result {x : RegIdx} (h : x ≠ regF) (b : Byte) (f : Bool) :
    (s.setWithFlag x b f).getV x = b := by
  rw [State.getV_setWithFlag, if_neg h, if_pos rfl]

theorem State.getV_logicFlag (q : RegIdx) :
    s.logicFlag.getV q = if s.params.logicVF = .reset ∧ q = regF then 0 else s.getV q := by
  unfold State.logicFlag
  cases h : s.params.logicVF <;> simp [State.getV_setV]

/-! ### Pixel and key reads -/

/-- A pixel read sees only the field `disp`. -/
theorem State.pixel_congr {s t : State} (h : t.disp = s.disp) (px : Fin 64) (py : Fin 32) :
    t.pixel px py = s.pixel px py := by
  simp [State.pixel, h]

@[simp] theorem State.pixel_clearDisplay (px : Fin 64) (py : Fin 32) : s.clearDisplay.pixel px py = false := by
  simp [State.pixel, blankDisplay]

/-- A toggle inverts its own pixel and leaves every other one. -/
theorem State.pixel_togglePixel (px qx : Fin 64) (py qy : Fin 32) :
    (s.togglePixel px py).pixel qx qy = if qx = px ∧ qy = py then !s.pixel px py else s.pixel qx qy := by
  simp only [State.pixel, State.togglePixel]
  by_cases hy : qy = py
  · subst hy
    by_cases hx : qx = px
    · subst hx; simp
    · have : px.val ≠ qx.val := fun e => hx (Fin.ext e).symm
      simp [hx, Vector.getElem_set_ne _ _ this]
  · have : py.val ≠ qy.val := fun e => hy (Fin.ext e).symm
    simp [hy, Vector.getElem_set_ne _ _ this]

/-- A key read sees only the field `keys`. -/
theorem State.key_congr {s t : State} (h : t.keys = s.keys) (k : Nibble) : t.key k = s.key k := by
  simp [State.key, h]

end Sys2Proof.Machine
end

