-- ==== Sys2Proof/Laws/Ops.lean ====
section
/-! SUPPORT. One lemma for each shared operation that says everything it can do. -/

namespace Sys2Proof.Machine

/-! ### Memory accesses and the stack -/

theorem memRead_of_le (s : State) {a : Nat} (h : a ≤ 0xFFF) : memRead s a = .ok (s.mem.read a) := by
  unfold memRead; rw [if_neg (by omega)]

theorem memRead_of_gt (s : State) {a : Nat} (h : 0xFFF < a) : memRead s a = .error ⟨.boundsFault, a⟩ := by
  unfold memRead; rw [if_pos h]

/-- The two outcomes of `MemRead`. -/
theorem memRead_cases (s : State) (a : Nat) :
    (a ≤ 0xFFF ∧ memRead s a = .ok (s.mem.read a)) ∨ (0xFFF < a ∧ memRead s a = .error ⟨.boundsFault, a⟩) := by
  rcases Nat.lt_or_ge 0xFFF a with h | h
  · exact .inr ⟨h, memRead_of_gt s h⟩
  · exact .inl ⟨h, memRead_of_le s h⟩

theorem memWrite_of_le (s : State) {a : Nat} (h : a ≤ 0xFFF) (b : Byte) :
    memWrite s a b = .ok { s with mem := s.mem.write a b } := by
  unfold memWrite; rw [if_neg (by omega)]

theorem memWrite_of_gt (s : State) {a : Nat} (h : 0xFFF < a) (b : Byte) :
    memWrite s a b = .error ⟨.boundsFault, a⟩ := by
  unfold memWrite; rw [if_pos h]

/-- The two outcomes of `MemWrite`. -/
theorem memWrite_cases (s : State) (a : Nat) (b : Byte) :
    (a ≤ 0xFFF ∧ memWrite s a b = .ok { s with mem := s.mem.write a b }) ∨
      (0xFFF < a ∧ memWrite s a b = .error ⟨.boundsFault, a⟩) := by
  rcases Nat.lt_or_ge 0xFFF a with h | h
  · exact .inr ⟨h, memWrite_of_gt s h b⟩
  · exact .inl ⟨h, memWrite_of_le s h b⟩

/-- The two outcomes of `StackPush`. -/
theorem stackPush_cases (s : State) (a : Word) :
    (s.stack.length < 16 ∧ stackPush s a = .ok { s with stack := s.stack ++ [a] }) ∨
      (16 ≤ s.stack.length ∧ stackPush s a = .error ⟨.stackOverflow, s.pc.toNat⟩) := by
  unfold stackPush Config.stackDepth
  rcases Nat.lt_or_ge s.stack.length 16 with h | h
  · exact .inl ⟨h, if_neg (by omega)⟩
  · exact .inr ⟨h, if_pos h⟩

/-- The two outcomes of `StackPop`. -/
theorem stackPop_cases (s : State) :
    (s.stack = [] ∧ stackPop s = .error ⟨.stackUnderflow, s.pc.toNat⟩) ∨
      (∃ rest a, s.stack = rest ++ [a] ∧ stackPop s = .ok (a, { s with stack := rest })) := by
  unfold stackPop
  rcases List.eq_nil_or_concat s.stack with h | ⟨rest, a, h⟩
  · exact .inl ⟨h, by simp [h]⟩
  · exact .inr ⟨rest, a, by simpa using h, by simp [h]⟩

/-! ### Fetch -/

/-- The three outcomes of the fetch (40_step_cycle.md R121). -/
theorem fetch_cases (s : State) :
    (s.pc.toNat ≤ 0xFFE ∧ fetch s = .ok (s.wordAt s.pc.toNat)) ∨
      (s.pc.toNat = 0xFFF ∧ fetch s = .error ⟨.boundsFault, 0x1000⟩) ∨
      (0xFFF < s.pc.toNat ∧ fetch s = .error ⟨.boundsFault, s.pc.toNat⟩) := by
  unfold fetch State.wordAt
  rcases Nat.lt_or_ge 0xFFF s.pc.toNat with h | h
  · exact .inr (.inr ⟨h, by rw [memRead_of_gt s h]⟩)
  · rw [memRead_of_le s h]
    rcases Nat.lt_or_ge 0xFFE s.pc.toNat with h1 | h1
    · have e : s.pc.toNat = 0xFFF := by omega
      exact .inr (.inl ⟨e, by rw [memRead_of_gt s (by omega), e]⟩)
    · exact .inl ⟨h1, by rw [memRead_of_le s (by omega)]⟩

/-! ### Drawing -/

/-- Only `VF` and `DISP` may differ: what every drawing operation keeps. -/
structure DrawFrame (s t : State) : Prop where
  regs : ∀ r, r ≠ regF → t.getV r = s.getV r
  rest : t = { s with v := t.v, disp := t.disp }

theorem DrawFrame.refl (s : State) : DrawFrame s s := ⟨fun _ _ => rfl, rfl⟩

theorem DrawFrame.trans {s t u : State} (h : DrawFrame s t) (g : DrawFrame t u) : DrawFrame s u :=
  ⟨fun r hr => (g.regs r hr).trans (h.regs r hr), by rw [g.rest, h.rest]⟩

theorem DrawFrame.params {s t : State} (h : DrawFrame s t) : t.params = s.params := by rw [h.rest]
theorem DrawFrame.i {s t : State} (h : DrawFrame s t) : t.i = s.i := by rw [h.rest]
theorem DrawFrame.pc {s t : State} (h : DrawFrame s t) : t.pc = s.pc := by rw [h.rest]
theorem DrawFrame.dt {s t : State} (h : DrawFrame s t) : t.dt = s.dt := by rw [h.rest]
theorem DrawFrame.st {s t : State} (h : DrawFrame s t) : t.st = s.st := by rw [h.rest]
theorem DrawFrame.stack {s t : State} (h : DrawFrame s t) : t.stack = s.stack := by rw [h.rest]
theorem DrawFrame.mem {s t : State} (h : DrawFrame s t) : t.mem = s.mem := by rw [h.rest]
theorem DrawFrame.keys {s t : State} (h : DrawFrame s t) : t.keys = s.keys := by rw [h.rest]
theorem DrawFrame.run {s t : State} (h : DrawFrame s t) : t.run = s.run := by rw [h.rest]
theorem DrawFrame.fault {s t : State} (h : DrawFrame s t) : t.fault = s.fault := by rw [h.rest]
theorem DrawFrame.frames {s t : State} (h : DrawFrame s t) : t.frames = s.frames := by rw [h.rest]
theorem DrawFrame.diag {s t : State} (h : DrawFrame s t) : t.diag = s.diag := by rw [h.rest]
theorem DrawFrame.tdiv {s t : State} (h : DrawFrame s t) : t.tdiv = s.tdiv := by rw [h.rest]
theorem DrawFrame.idiv {s t : State} (h : DrawFrame s t) : t.idiv = s.idiv := by rw [h.rest]
theorem DrawFrame.draws {s t : State} (h : DrawFrame s t) : t.draws = s.draws := by rw [h.rest]
theorem DrawFrame.schedule {s t : State} (h : DrawFrame s t) : t.schedule = s.schedule := by rw [h.rest]
theorem DrawFrame.rounds {s t : State} (h : DrawFrame s t) : t.rounds = s.rounds := by rw [h.rest]

theorem DrawFrame.indexed {s t : State} (h : DrawFrame s t) (k : Nat) : t.indexed k = s.indexed k := by
  rw [State.indexed, State.indexed, h.i]

theorem drawPixel_frame (s : State) (px : Fin 64) (py : Fin 32) : DrawFrame s (s.drawPixel px py) := by
  unfold State.drawPixel State.flagCollision
  split
  · exact ⟨fun r hr => State.getV_setV_of_ne s hr 1, rfl⟩
  · exact ⟨fun r hr => rfl, rfl⟩

theorem drawColumns_frame (byte : Byte) (x0 : Nat) (py : Fin 32) (cs : List Nat) (s : State) :
    DrawFrame s (drawColumns byte x0 py cs s) := by
  induction cs generalizing s with
  | nil => exact .refl s
  | cons c cs ih =>
    unfold drawColumns
    split
    · exact (drawPixel_frame s _ _).trans (ih _)
    · exact ih s

/-- Whether row drawing stops at a bounds fault or not, it has changed only `VF` and `DISP`. -/
theorem drawRows_frame (x0 y0 : Nat) (rs : List Nat) (s : State) :
    (∀ t, drawRows x0 y0 rs s = .ok t → DrawFrame s t) ∧
      ∀ t f, drawRows x0 y0 rs s = .error (t, f) → DrawFrame s t := by
  induction rs generalizing s with
  | nil => simp [drawRows, DrawFrame.refl]
  | cons r rs ih =>
    unfold drawRows
    rcases memRead_cases s (s.indexed r) with ⟨_, h⟩ | ⟨_, h⟩ <;> rw [h]
    · have fr := drawColumns_frame (s.mem.read (s.indexed r)) x0 (wrapRow y0 r) (List.range 8) s
      exact ⟨fun t ht => fr.trans ((ih _).1 t ht), fun t f ht => fr.trans ((ih _).2 t f ht)⟩
    · simp only [reduceCtorEq, false_implies, implies_true, true_and, Except.error.injEq, Prod.mk.injEq, and_imp]
      rintro t f rfl -
      exact .refl s

/-! ### Stores and loads of a block -/

/-- `storeBytes` inside memory: the bytes are there, everything else is as before. -/
theorem storeBytes_ok (k : Nat) (bs : List Byte) (s : State) (h : s.i.toNat + k + bs.length ≤ 0x1000) :
    storeBytes k bs s = .ok { s with mem := s.mem.load (s.i.toNat + k) bs } := by
  induction bs generalizing k s with
  | nil => rfl
  | cons b bs ih =>
    simp only [List.length_cons] at h
    unfold storeBytes
    rw [memWrite_of_le s (by unfold State.indexed; omega)]
    exact ih (k + 1) _ (by simpa using by omega)

/-- `storeBytes` past the end of memory: the bytes up to 0xFFF are written, then 0x1000 or the first address faults. -/
theorem storeBytes_error (k : Nat) (bs : List Byte) (s : State) (h : 0x1000 < s.i.toNat + k + bs.length)
    (hne : bs ≠ []) :
    storeBytes k bs s = .error ({ s with mem := s.mem.load (s.i.toNat + k) (bs.take (0x1000 - (s.i.toNat + k))) },
      ⟨.boundsFault, max 0x1000 (s.i.toNat + k)⟩) := by
  induction bs generalizing k s with
  | nil => exact absurd rfl hne
  | cons b bs ih =>
    simp only [List.length_cons] at h
    unfold storeBytes
    rcases Nat.lt_or_ge 0xFFF (s.i.toNat + k) with hk | hk
    · rw [memWrite_of_gt s (show 0xFFF < s.indexed k from hk)]
      have e : 0x1000 - (s.i.toNat + k) = 0 := by omega
      have m : max 0x1000 (s.i.toNat + k) = s.i.toNat + k := by omega
      simp [e, m, Mem.load, State.indexed]
    · rw [memWrite_of_le s (show s.indexed k ≤ 0xFFF from hk)]
      have hb : bs ≠ [] := by rintro rfl; simp at h; omega
      have e : 0x1000 - (s.i.toNat + k) = (0x1000 - (s.i.toNat + (k + 1))) + 1 := by omega
      have m : max 0x1000 (s.i.toNat + (k + 1)) = max 0x1000 (s.i.toNat + k) := by omega
      have ih' := ih (k + 1) { s with mem := s.mem.write (s.i.toNat + k) b } (by simpa using by omega) hb
      simp only [State.indexed] at ih' ⊢
      rw [ih', e, List.take_succ_cons, Mem.load, m]
      rfl

/-- `storeBytes` changes memory only, keeps its canonical form, and its only fault is a bounds fault. -/
theorem storeBytes_cases (k : Nat) (bs : List Byte) (s : State) :
    (∃ m, storeBytes k bs s = .ok { s with mem := m } ∧ (s.mem.wf = true → m.wf = true)) ∨
    ∃ m a, storeBytes k bs s = .error ({ s with mem := m }, ⟨.boundsFault, a⟩) ∧ (s.mem.wf = true → m.wf = true) := by
  induction bs generalizing k s with
  | nil => exact .inl ⟨s.mem, rfl, id⟩
  | cons b bs ih =>
    unfold storeBytes
    rcases memWrite_cases s (s.indexed k) b with ⟨h, e⟩ | ⟨h, e⟩ <;> rw [e]
    · have keep : s.mem.wf = true → (s.mem.write (s.indexed k) b).wf = true := fun hw =>
        Mem.wf_write _ _ _ hw (by unfold Config.memSize; omega)
      rcases ih (k + 1) { s with mem := s.mem.write (s.indexed k) b } with ⟨m, h1, h2⟩ | ⟨m, a, h1, h2⟩
      · exact .inl ⟨m, h1, fun hw => h2 (keep hw)⟩
      · exact .inr ⟨m, a, h1, fun hw => h2 (keep hw)⟩
    · exact .inr ⟨s.mem, _, rfl, id⟩

/-- The only fault of `drawRows` is a bounds fault. -/
theorem drawRows_cause {x0 y0 : Nat} {rs : List Nat} {s t : State} {f : Raise}
    (h : drawRows x0 y0 rs s = .error (t, f)) : f.cause = .boundsFault := by
  induction rs generalizing s with
  | nil => cases h
  | cons r rs ih =>
    unfold drawRows at h
    rcases memRead_cases s (s.indexed r) with ⟨_, e⟩ | ⟨_, e⟩ <;> rw [e] at h
    · exact ih h
    · cases h; rfl

end Sys2Proof.Machine
end

