-- ==== Sys2Proof/Laws/Block.lean ====
section
/-! SUPPORT. What `Fx65`'s loop loads, inside memory and past its end. -/

namespace Sys2Proof.Machine

/-- Only general registers may differ. -/
theorem loadBytes_frame (ks : List Nat) (s : State) :
    (∀ t, loadBytes ks s = .ok t → t = { s with v := t.v }) ∧
      ∀ t f, loadBytes ks s = .error (t, f) → t = { s with v := t.v } := by
  induction ks generalizing s with
  | nil =>
    simp only [loadBytes, Except.ok.injEq, reduceCtorEq, false_implies, implies_true, and_true]
    rintro t rfl
    rfl
  | cons k ks ih =>
    unfold loadBytes
    rcases memRead_cases s (s.indexed k) with ⟨_, h⟩ | ⟨_, h⟩ <;> rw [h]
    · exact ⟨fun t ht => (ih (s.setV (loopReg k) (s.mem.read (s.indexed k)))).1 t ht,
        fun t f ht => (ih (s.setV (loopReg k) (s.mem.read (s.indexed k)))).2 t f ht⟩
    · simp only [reduceCtorEq, false_implies, implies_true, true_and, Except.error.injEq, Prod.mk.injEq, and_imp]
      rintro t f rfl -
      rfl

theorem loopReg_inj {a b : Nat} (ha : a < 16) (hb : b < 16) (h : loopReg a = loopReg b) : a = b := by
  have := congrArg BitVec.toNat h
  simp only [loopReg, BitVec.toNat_ofNat] at this
  omega

/-- Inside memory every register of the list is loaded and every other one is as before. -/
theorem loadBytes_ok (ks : List Nat) (s : State) (hnd : ks.Nodup) (hlt : ∀ k ∈ ks, k < 16)
    (hin : ∀ k ∈ ks, s.indexed k ≤ 0xFFF) :
    ∃ t, loadBytes ks s = .ok t ∧ (∀ k ∈ ks, t.getV (loopReg k) = s.mem.read (s.indexed k)) ∧
      ∀ q, (∀ k ∈ ks, q ≠ loopReg k) → t.getV q = s.getV q := by
  induction ks generalizing s with
  | nil => exact ⟨s, rfl, by simp, by simp⟩
  | cons k ks ih =>
    rw [List.nodup_cons] at hnd
    obtain ⟨t, ht, h1, h2⟩ := ih (s.setV (loopReg k) (s.mem.read (s.indexed k))) hnd.2
      (fun j hj => hlt j (by simp [hj])) (fun j hj => hin j (by simp [hj]))
    refine ⟨t, by unfold loadBytes; rw [memRead_of_le s (hin k (by simp))]; exact ht, ?_, ?_⟩
    · intro j hj
      rcases List.mem_cons.mp hj with rfl | hj
      · have hne : ∀ i ∈ ks, loopReg j ≠ loopReg i := fun i hi e =>
          hnd.1 (loopReg_inj (hlt j hj) (hlt i (by simp [hi])) e ▸ hi)
        rw [h2 _ hne, State.getV_setV_self]
      · exact h1 j hj
    · intro q hq
      rw [h2 q (fun j hj => hq j (by simp [hj])), State.getV_setV_of_ne _ (hq k (by simp))]

/-- The registers before the first address outside memory are loaded, then that address faults. -/
theorem loadBytes_error (ks js : List Nat) (k : Nat) (s t : State) (h : loadBytes ks s = .ok t)
    (hk : 0xFFF < s.indexed k) :
    loadBytes (ks ++ k :: js) s = .error (t, ⟨.boundsFault, s.indexed k⟩) := by
  induction ks generalizing s with
  | nil =>
    rw [loadBytes] at h
    cases h
    rw [List.nil_append, loadBytes, memRead_of_gt _ hk]
  | cons q ks ih =>
    rw [List.cons_append, loadBytes]
    rw [loadBytes] at h
    rcases memRead_cases s (s.indexed q) with ⟨_, e⟩ | ⟨_, e⟩ <;> rw [e] at h ⊢
    · exact ih _ h hk
    · cases h

/-- The only fault of `loadBytes` is a bounds fault. -/
theorem loadBytes_cause {ks : List Nat} {s t : State} {f : Raise} (h : loadBytes ks s = .error (t, f)) :
    f.cause = .boundsFault := by
  induction ks generalizing s with
  | nil => cases h
  | cons k ks ih =>
    unfold loadBytes at h
    rcases memRead_cases s (s.indexed k) with ⟨_, e⟩ | ⟨_, e⟩ <;> rw [e] at h
    · exact ih h
    · cases h; rfl

end Sys2Proof.Machine
end

