-- ==== Sys2Proof/Laws/Decode.lean ====
section
/-! SUPPORT. The opcode map has no two rows for one word, so a row that matches is the row decoding selects. -/

namespace Sys2Proof

/-- No word can match both rows: they differ in a bit that both masks fix. -/
def Row.disjoint (r q : Row) : Bool := decide ((r.pattern ^^^ q.pattern) &&& (r.mask &&& q.mask) ≠ 0)

/-- The 34 rows are pairwise disjoint (30_encoding.md R95, R99). -/
theorem opcodeTable_disjoint : opcodeTable.Pairwise (fun r q => r.disjoint q = true) := by decide

theorem Row.disjoint_symm {r q : Row} (h : r.disjoint q = true) : q.disjoint r = true := by
  unfold Row.disjoint at h ⊢
  rwa [BitVec.xor_comm, BitVec.and_comm q.mask]

/-- A word that matches one of two disjoint rows does not match the other. -/
theorem Row.not_selects_of_disjoint {p : Profile} {op : Word} {r q : Row} (h : r.disjoint q = true)
    (hr : r.selects p op = true) : q.selects p op = false := by
  by_contra hq
  simp only [Row.selects, Bool.and_eq_true, decide_eq_true_eq, Bool.not_eq_false] at hr hq
  simp only [Row.disjoint, decide_eq_true_eq] at h
  refine h ?_
  rw [← hr.2, ← hq.2]
  ext i hi
  cases ho : op[i] <;> cases hm : r.mask[i] <;> cases hn : q.mask[i] <;> simp [ho, hm, hn]

theorem find_selects_of_mem (p : Profile) (op : Word) (rows : List Row)
    (hd : rows.Pairwise (fun r q => r.disjoint q = true)) (r : Row) (hr : r ∈ rows) (hs : r.selects p op = true) :
    rows.find? (Row.selects p op) = some r := by
  induction rows with
  | nil => cases hr
  | cons q rows ih =>
    rw [List.pairwise_cons] at hd
    rw [List.find?_cons]
    rcases List.mem_cons.mp hr with rfl | hr
    · rw [hs]
    · rw [Row.not_selects_of_disjoint (Row.disjoint_symm (hd.1 r hr)) hs]
      exact ih hd.2 hr

/-- A row of the map that matches a word is the one decoding selects (30_encoding.md R95). -/
theorem decode_of_row {p : Profile} {op : Word} {r : Row} (hr : r ∈ opcodeTable) (hs : r.selects p op = true) :
    decode p op = .instr (r.build (fieldsOf op)) := by
  unfold decode
  rw [find_selects_of_mem p op opcodeTable opcodeTable_disjoint r hr hs]

/-- Row number `k` of the map decides every word that matches it, when the profile has the row. -/
theorem decode_of_getElem {p : Profile} (k : Nat) (hk : k < opcodeTable.length)
    (hp : p.has opcodeTable[k].profile = true) {op : Word} (h : op &&& opcodeTable[k].mask = opcodeTable[k].pattern) :
    decode p op = .instr (opcodeTable[k].build (fieldsOf op)) :=
  decode_of_row (List.getElem_mem hk) (by simp [Row.selects, hp, h])

/-- What decoding selects is a row of the map that matches (30_encoding.md R95). -/
theorem row_of_decode {p : Profile} {op : Word} {i : Instr} (h : decode p op = .instr i) :
    ∃ r ∈ opcodeTable, r.selects p op = true ∧ i = r.build (fieldsOf op) := by
  unfold decode at h
  split at h
  · next r hf =>
    exact ⟨r, List.mem_of_find?_eq_some hf, by simpa using List.find?_some hf, by simpa using h.symm⟩
  · cases h

/-- A word is left to the unimplemented rule exactly when no row matches it (45_unimplemented.md R160). -/
theorem decode_unimplemented_iff {p : Profile} {op : Word} :
    decode p op = .unimplemented op ↔ ∀ r ∈ opcodeTable, r.selects p op = false := by
  unfold decode
  split
  · next r hf =>
    have h := List.find?_some hf
    simp only [reduceCtorEq, false_iff, not_forall, Bool.not_eq_false]
    exact ⟨r, List.mem_of_find?_eq_some hf, h⟩
  · next hf => simpa using hf

/-- `FULL` extends `MIN`: a word keeps its meaning (30_encoding.md R99). -/
theorem decode_full_of_decode {p : Profile} {op : Word} {i : Instr} (h : decode p op = .instr i) :
    decode .full op = .instr i := by
  obtain ⟨r, hr, hs, rfl⟩ := row_of_decode h
  refine decode_of_row hr ?_
  simp only [Row.selects, Bool.and_eq_true] at hs ⊢
  exact ⟨by simp [Profile.has], hs.2⟩

/-! ### The fields of the formats (30_encoding.md R93) -/

theorem fieldsOf_formatNNN (n1 : Nibble) (nnn : Addr12) : (fieldsOf (formatNNN n1 nnn)).nnn = nnn := by
  unfold fieldsOf formatNNN
  ext i hi
  simp only [BitVec.getElem_extractLsb', BitVec.getLsbD_append]
  interval_cases i <;> simp

theorem fieldsOf_formatXNN (n1 : Nibble) (x : RegIdx) (nn : Byte) :
    (fieldsOf (formatXNN n1 x nn)).x = x ∧ (fieldsOf (formatXNN n1 x nn)).nn = nn := by
  unfold fieldsOf formatXNN
  constructor <;>
  · ext i hi
    simp only [BitVec.getElem_extractLsb', BitVec.getLsbD_append]
    interval_cases i <;> simp

theorem fieldsOf_formatXYN (n1 : Nibble) (x y : RegIdx) (n : Nibble) :
    (fieldsOf (formatXYN n1 x y n)).x = x ∧ (fieldsOf (formatXYN n1 x y n)).y = y ∧
      (fieldsOf (formatXYN n1 x y n)).n = n := by
  unfold fieldsOf formatXYN
  refine ⟨?_, ?_, ?_⟩ <;>
  · ext i hi
    simp only [BitVec.getElem_extractLsb', BitVec.getLsbD_append]
    interval_cases i <;> simp

end Sys2Proof
end

