-- ==== Sys2Proof/Laws/Draw.lean ====
section
/-! SUPPORT. What drawing does to every pixel and to `VF`: columns, then rows, then the rows before a bounds fault. -/

namespace Sys2Proof.Machine

theorem State.pixel_drawPixel (s : State) (px qx : Fin 64) (py qy : Fin 32) :
    (s.drawPixel px py).pixel qx qy = if qx = px ∧ qy = py then !s.pixel px py else s.pixel qx qy := by
  have h : ∀ a b, (s.flagCollision px py).pixel a b = s.pixel a b := State.pixel_congr (by simp)
  rw [State.drawPixel, State.pixel_togglePixel, h, h]

theorem State.getV_drawPixel (s : State) (px : Fin 64) (py : Fin 32) :
    (s.drawPixel px py).getV regF = if s.pixel px py = true then 1 else s.getV regF := by
  unfold State.drawPixel State.flagCollision
  rw [State.getV_togglePixel]
  split
  · exact s.getV_setV_self regF 1
  · rfl

/-- One sprite row: the targets of its 1-bits are inverted, every other pixel is as before. -/
theorem drawColumns_pixel (byte : Byte) (x0 : Nat) (py : Fin 32) (cs : List Nat) (s : State)
    (hnd : (cs.map (wrapColumn x0)).Nodup) (qx : Fin 64) (qy : Fin 32) :
    ((qy = py ∧ ∃ c ∈ cs, spriteBit byte c = true ∧ qx = wrapColumn x0 c) →
        (drawColumns byte x0 py cs s).pixel qx qy = !s.pixel qx qy) ∧
      ((¬(qy = py ∧ ∃ c ∈ cs, spriteBit byte c = true ∧ qx = wrapColumn x0 c)) →
        (drawColumns byte x0 py cs s).pixel qx qy = s.pixel qx qy) := by
  induction cs generalizing s with
  | nil => simp [drawColumns]
  | cons c cs ih =>
    rw [List.map_cons, List.nodup_cons] at hnd
    have hc : ∀ d ∈ cs, wrapColumn x0 c ≠ wrapColumn x0 d := fun d hd e =>
      hnd.1 (e ▸ List.mem_map_of_mem hd)
    unfold drawColumns
    obtain ⟨ih1, ih2⟩ := ih (if spriteBit byte c then s.drawPixel (wrapColumn x0 c) py else s) hnd.2
    by_cases hb : spriteBit byte c = true
    · simp only [hb, if_true] at ih1 ih2 ⊢
      by_cases hq : qx = wrapColumn x0 c ∧ qy = py
      · obtain ⟨rfl, rfl⟩ := hq
        have hno : ¬(qy = qy ∧ ∃ d ∈ cs, spriteBit byte d = true ∧ wrapColumn x0 c = wrapColumn x0 d) := by
          rintro ⟨-, d, hd, -, e⟩; exact hc d hd e
        refine ⟨fun _ => ?_, fun h => absurd ⟨rfl, c, by simp, hb, rfl⟩ h⟩
        rw [ih2 hno, State.pixel_drawPixel, if_pos ⟨rfl, rfl⟩]
      · rw [State.pixel_drawPixel, if_neg hq] at ih1 ih2
        constructor
        · rintro ⟨hy, d, hd, hbd, hx⟩
          rcases List.mem_cons.mp hd with rfl | hd
          · exact absurd ⟨hx, hy⟩ hq
          · exact ih1 ⟨hy, d, hd, hbd, hx⟩
        · intro h
          exact ih2 fun ⟨hy, d, hd, hbd, hx⟩ => h ⟨hy, d, List.mem_cons_of_mem c hd, hbd, hx⟩
    · simp only [hb] at ih1 ih2 ⊢
      constructor
      · rintro ⟨hy, d, hd, hbd, hx⟩
        rcases List.mem_cons.mp hd with rfl | hd
        · exact absurd hbd hb
        · exact ih1 ⟨hy, d, hd, hbd, hx⟩
      · intro h
        exact ih2 fun ⟨hy, d, hd, hbd, hx⟩ => h ⟨hy, d, List.mem_cons_of_mem c hd, hbd, hx⟩

/-- One sprite row: `VF` becomes 1 when a 1-bit's target was on before the row, else it stays. -/
theorem drawColumns_flag (byte : Byte) (x0 : Nat) (py : Fin 32) (cs : List Nat) (s : State)
    (hnd : (cs.map (wrapColumn x0)).Nodup) :
    ((∃ c ∈ cs, spriteBit byte c = true ∧ s.pixel (wrapColumn x0 c) py = true) →
        (drawColumns byte x0 py cs s).getV regF = 1) ∧
      ((¬∃ c ∈ cs, spriteBit byte c = true ∧ s.pixel (wrapColumn x0 c) py = true) →
        (drawColumns byte x0 py cs s).getV regF = s.getV regF) := by
  induction cs generalizing s with
  | nil => simp [drawColumns]
  | cons c cs ih =>
    rw [List.map_cons, List.nodup_cons] at hnd
    have hc : ∀ d ∈ cs, wrapColumn x0 d ≠ wrapColumn x0 c := fun d hd e =>
      hnd.1 (e ▸ List.mem_map_of_mem hd)
    unfold drawColumns
    by_cases hb : spriteBit byte c = true
    · have hpix : ∀ d ∈ cs, (s.drawPixel (wrapColumn x0 c) py).pixel (wrapColumn x0 d) py
          = s.pixel (wrapColumn x0 d) py := fun d hd => by
        rw [State.pixel_drawPixel, if_neg (fun h => hc d hd h.1)]
      obtain ⟨ih1, ih2⟩ := ih (s.drawPixel (wrapColumn x0 c) py) hnd.2
      rw [if_pos hb]
      by_cases hlater : ∃ d ∈ cs, spriteBit byte d = true ∧ s.pixel (wrapColumn x0 d) py = true
      · have h1 := ih1 (by
          obtain ⟨d, hd, hbd, hp⟩ := hlater
          exact ⟨d, hd, hbd, by rw [hpix d hd]; exact hp⟩)
        obtain ⟨d, hd, hbd, hp⟩ := hlater
        exact ⟨fun _ => h1, fun h => absurd ⟨d, List.mem_cons_of_mem c hd, hbd, hp⟩ h⟩
      · have h2 := ih2 (by
          rintro ⟨d, hd, hbd, hp⟩
          exact hlater ⟨d, hd, hbd, by rw [← hpix d hd]; exact hp⟩)
        rw [h2, State.getV_drawPixel]
        constructor
        · rintro ⟨d, hd, hbd, hp⟩
          rcases List.mem_cons.mp hd with rfl | hd
          · rw [if_pos hp]
          · exact absurd ⟨d, hd, hbd, hp⟩ hlater
        · intro h
          rw [if_neg (fun hp => h ⟨c, by simp, hb, hp⟩)]
    · rw [if_neg hb]
      obtain ⟨ih1, ih2⟩ := ih s hnd.2
      constructor
      · rintro ⟨d, hd, hbd, hp⟩
        rcases List.mem_cons.mp hd with rfl | hd
        · exact absurd hbd hb
        · exact ih1 ⟨d, hd, hbd, hp⟩
      · intro h
        exact ih2 fun ⟨d, hd, hbd, hp⟩ => h ⟨d, List.mem_cons_of_mem c hd, hbd, hp⟩

/-- The eight columns of a row are distinct modulo 64 (44_draw_sprite.md R154). -/
theorem columns_nodup (x0 : Nat) : ((List.range 8).map (wrapColumn x0)).Nodup := by
  refine List.Nodup.map_on (fun a ha b hb h => ?_) (List.nodup_range)
  simp only [List.mem_range] at ha hb
  have := congrArg Fin.val h
  simp only [wrapColumn, Fin.val_ofNat] at this
  omega

/-- The rows of a sprite are distinct modulo 32 (44_draw_sprite.md R154). -/
theorem rows_nodup (y0 k : Nat) (hk : k ≤ 32) : ((List.range k).map (wrapRow y0)).Nodup := by
  refine List.Nodup.map_on (fun a ha b hb h => ?_) (List.nodup_range)
  simp only [List.mem_range] at ha hb
  have := congrArg Fin.val h
  simp only [wrapRow, Fin.val_ofNat] at this
  omega

/-- A 1-bit of a row of the list has the pixel as its target. -/
def RowsHit (s : State) (x0 y0 : Nat) (rs : List Nat) (qx : Fin 64) (qy : Fin 32) : Prop :=
  ∃ r ∈ rs, ∃ c ∈ List.range 8, spriteBit (s.mem.read (s.indexed r)) c = true ∧
    qx = wrapColumn x0 c ∧ qy = wrapRow y0 r

theorem RowsHit.congr {s t : State} (hm : t.mem = s.mem) (hi : t.i = s.i) (x0 y0 : Nat) (rs : List Nat)
    (qx : Fin 64) (qy : Fin 32) : RowsHit t x0 y0 rs qx qy ↔ RowsHit s x0 y0 rs qx qy := by
  simp [RowsHit, State.indexed, hm, hi]

/-- Rows inside memory are all drawn: their 1-bits invert their targets, and `VF` becomes 1 on a collision. -/
theorem drawRows_ok (x0 y0 : Nat) (rs : List Nat) (s : State) (hnd : (rs.map (wrapRow y0)).Nodup)
    (hin : ∀ r ∈ rs, s.indexed r ≤ 0xFFF) :
    ∃ t, drawRows x0 y0 rs s = .ok t ∧
      (∀ qx qy, RowsHit s x0 y0 rs qx qy → t.pixel qx qy = !s.pixel qx qy) ∧
      (∀ qx qy, ¬RowsHit s x0 y0 rs qx qy → t.pixel qx qy = s.pixel qx qy) ∧
      ((∃ qx qy, RowsHit s x0 y0 rs qx qy ∧ s.pixel qx qy = true) → t.getV regF = 1) ∧
      ((¬∃ qx qy, RowsHit s x0 y0 rs qx qy ∧ s.pixel qx qy = true) → t.getV regF = s.getV regF) := by
  induction rs generalizing s with
  | nil => exact ⟨s, rfl, by simp [RowsHit]⟩
  | cons r rs ih =>
    rw [List.map_cons, List.nodup_cons] at hnd
    have hr : ∀ q ∈ rs, wrapRow y0 q ≠ wrapRow y0 r := fun q hq e => hnd.1 (e ▸ List.mem_map_of_mem hq)
    have fr := drawColumns_frame (s.mem.read (s.indexed r)) x0 (wrapRow y0 r) (List.range 8) s
    have hpx := drawColumns_pixel (s.mem.read (s.indexed r)) x0 (wrapRow y0 r) (List.range 8) s (columns_nodup x0)
    have hfl := drawColumns_flag (s.mem.read (s.indexed r)) x0 (wrapRow y0 r) (List.range 8) s (columns_nodup x0)
    generalize hu : drawColumns (s.mem.read (s.indexed r)) x0 (wrapRow y0 r) (List.range 8) s = u at fr hpx hfl
    have hm : u.mem = s.mem := by rw [fr.rest]
    have hi : u.i = s.i := by rw [fr.rest]
    have hidx : ∀ q, u.indexed q = s.indexed q := fun q => by simp [State.indexed, hi]
    obtain ⟨t, ht, h1, h2, h3, h4⟩ := ih u hnd.2 (fun q hq => by rw [hidx]; exact hin q (by simp [hq]))
    simp only [RowsHit.congr hm hi] at h1 h2 h3 h4
    -- a pixel of row `r` is hit by no later row
    have hlater : ∀ qx qy, RowsHit s x0 y0 rs qx qy → qy ≠ wrapRow y0 r := by
      rintro qx qy ⟨q, hq, c, -, -, -, hy⟩ e
      exact hr q hq (hy ▸ e)
    have hcons : ∀ qx qy, RowsHit s x0 y0 (r :: rs) qx qy ↔
        (qy = wrapRow y0 r ∧ ∃ c ∈ List.range 8, spriteBit (s.mem.read (s.indexed r)) c = true ∧
          qx = wrapColumn x0 c) ∨ RowsHit s x0 y0 rs qx qy := by
      intro qx qy
      constructor
      · rintro ⟨q, hq, c, hc, hb, hx, hy⟩
        rcases List.mem_cons.mp hq with rfl | hq
        · exact .inl ⟨hy, c, hc, hb, hx⟩
        · exact .inr ⟨q, hq, c, hc, hb, hx, hy⟩
      · rintro (⟨hy, c, hc, hb, hx⟩ | ⟨q, hq, c, hc, hb, hx, hy⟩)
        · exact ⟨r, by simp, c, hc, hb, hx, hy⟩
        · exact ⟨q, by simp [hq], c, hc, hb, hx, hy⟩
    refine ⟨t, by unfold drawRows; rw [memRead_of_le s (hin r (by simp))]; simp only [hu]; exact ht, ?_, ?_, ?_, ?_⟩
    · intro qx qy h
      rcases (hcons qx qy).mp h with h | h
      · rw [h2 qx qy (fun h' => hlater qx qy h' h.1), (hpx qx qy).1 h]
      · rw [h1 qx qy h, (hpx qx qy).2 (fun h' => hlater qx qy h h'.1)]
    · intro qx qy h
      rw [hcons, not_or] at h
      rw [h2 qx qy h.2, (hpx qx qy).2 h.1]
    · rintro ⟨qx, qy, h, hp⟩
      by_cases hl : ∃ qx qy, RowsHit s x0 y0 rs qx qy ∧ u.pixel qx qy = true
      · exact h3 hl
      · rw [h4 hl]
        rcases (hcons qx qy).mp h with ⟨hy, c, hc, hb, hx⟩ | h
        · exact hfl.1 ⟨c, hc, hb, by rw [← hx, ← hy]; exact hp⟩
        · exact absurd ⟨qx, qy, h, by rw [(hpx qx qy).2 (fun h' => hlater qx qy h h'.1)]; exact hp⟩ hl
    · intro h
      have hl : ¬∃ qx qy, RowsHit s x0 y0 rs qx qy ∧ u.pixel qx qy = true := by
        rintro ⟨qx, qy, hh, hp⟩
        rw [(hpx qx qy).2 (fun h' => hlater qx qy hh h'.1)] at hp
        exact h ⟨qx, qy, (hcons qx qy).mpr (.inr hh), hp⟩
      rw [h4 hl]
      exact hfl.2 fun ⟨c, hc, hb, hp⟩ =>
        h ⟨wrapColumn x0 c, wrapRow y0 r, (hcons _ _).mpr (.inl ⟨rfl, c, hc, hb, rfl⟩), hp⟩

/-- Rows before the first one outside memory are drawn, then that row faults (44_draw_sprite.md R155). -/
theorem drawRows_error (x0 y0 : Nat) (rs ss : List Nat) (r : Nat) (s t : State)
    (h : drawRows x0 y0 rs s = .ok t) (hr : 0xFFF < s.indexed r) :
    drawRows x0 y0 (rs ++ r :: ss) s = .error (t, ⟨.boundsFault, s.indexed r⟩) := by
  induction rs generalizing s with
  | nil =>
    rw [drawRows] at h
    cases h
    rw [List.nil_append, drawRows, memRead_of_gt _ hr]
  | cons q rs ih =>
    rw [List.cons_append, drawRows]
    rw [drawRows] at h
    rcases memRead_cases s (s.indexed q) with ⟨_, e⟩ | ⟨_, e⟩ <;> rw [e] at h ⊢
    · have fr := drawColumns_frame (s.mem.read (s.indexed q)) x0 (wrapRow y0 q) (List.range 8) s
      have hi : (drawColumns (s.mem.read (s.indexed q)) x0 (wrapRow y0 q) (List.range 8) s).indexed r = s.indexed r :=
        fr.indexed r
      have := ih _ h (by rw [hi]; exact hr)
      rwa [hi] at this
    · cases h

end Sys2Proof.Machine
end

