-- ==== Sys2Proof/Laws/PerInstr.lean ====
section
/-! SUPPORT. Per instruction: its encoding matches a row of the opcode map, of the profile the instruction belongs to. -/

namespace Sys2Proof.Laws.TableRow

/-- The word of `i` matches a row of the opcode map whose profile is that of `i` (30_encoding.md R95, R99). -/
def Statement (i : Instr) : Prop :=
  ∃ r ∈ opcodeTable, r.profile = i.profile ∧ encode i &&& r.mask = r.pattern

theorem formatNNN_mask (n1 : Nibble) (nnn : Addr12) : formatNNN n1 nnn &&& 0xF000 = n1 ++ (0 : Addr12) := by
  ext i hi
  simp only [formatNNN, BitVec.getElem_and, BitVec.getElem_append]
  interval_cases i <;> simp

theorem formatXNN_mask (n1 : Nibble) (x : RegIdx) (nn : Byte) :
    formatXNN n1 x nn &&& 0xF000 = n1 ++ (0 : Addr12) := by
  ext i hi
  simp only [formatXNN, BitVec.getElem_and, BitVec.getElem_append]
  interval_cases i <;> simp

theorem formatXNN_mask_low (n1 : Nibble) (x : RegIdx) (nn : Byte) :
    formatXNN n1 x nn &&& 0xF0FF = n1 ++ (0 : RegIdx) ++ nn := by
  ext i hi
  simp only [formatXNN, BitVec.getElem_and, BitVec.getElem_append]
  interval_cases i <;> simp

theorem formatXYN_mask (n1 : Nibble) (x y : RegIdx) (n : Nibble) :
    formatXYN n1 x y n &&& 0xF000 = n1 ++ (0 : Addr12) := by
  ext i hi
  simp only [formatXYN, BitVec.getElem_and, BitVec.getElem_append]
  interval_cases i <;> simp

theorem formatXYN_mask_low (n1 : Nibble) (x y : RegIdx) (n : Nibble) :
    formatXYN n1 x y n &&& 0xF00F = n1 ++ (0 : Byte) ++ n := by
  ext i hi
  simp only [formatXYN, BitVec.getElem_and, BitVec.getElem_append]
  interval_cases i <;> simp

theorem cls : Statement .cls :=
  ⟨opcodeTable[0], List.getElem_mem _, rfl, rfl⟩

theorem jp (nnn : Addr12) : Statement (.jp nnn) :=
  ⟨opcodeTable[1], List.getElem_mem _, rfl, formatNNN_mask _ _⟩

theorem ldImm (x : RegIdx) (nn : Byte) : Statement (.ldImm x nn) :=
  ⟨opcodeTable[2], List.getElem_mem _, rfl, formatXNN_mask _ _ _⟩

theorem addImm (x : RegIdx) (nn : Byte) : Statement (.addImm x nn) :=
  ⟨opcodeTable[3], List.getElem_mem _, rfl, formatXNN_mask _ _ _⟩

theorem ldI (nnn : Addr12) : Statement (.ldI nnn) :=
  ⟨opcodeTable[4], List.getElem_mem _, rfl, formatNNN_mask _ _⟩

theorem drw (x y : RegIdx) (n : Nibble) : Statement (.drw x y n) :=
  ⟨opcodeTable[5], List.getElem_mem _, rfl, formatXYN_mask _ _ _ _⟩

theorem ret : Statement .ret :=
  ⟨opcodeTable[6], List.getElem_mem _, rfl, rfl⟩

theorem call (nnn : Addr12) : Statement (.call nnn) :=
  ⟨opcodeTable[7], List.getElem_mem _, rfl, formatNNN_mask _ _⟩

theorem seImm (x : RegIdx) (nn : Byte) : Statement (.seImm x nn) :=
  ⟨opcodeTable[8], List.getElem_mem _, rfl, formatXNN_mask _ _ _⟩

theorem sneImm (x : RegIdx) (nn : Byte) : Statement (.sneImm x nn) :=
  ⟨opcodeTable[9], List.getElem_mem _, rfl, formatXNN_mask _ _ _⟩

theorem seReg (x y : RegIdx) : Statement (.seReg x y) :=
  ⟨opcodeTable[10], List.getElem_mem _, rfl, formatXYN_mask_low _ _ _ _⟩

theorem ldReg (x y : RegIdx) : Statement (.ldReg x y) :=
  ⟨opcodeTable[11], List.getElem_mem _, rfl, formatXYN_mask_low _ _ _ _⟩

theorem orReg (x y : RegIdx) : Statement (.orReg x y) :=
  ⟨opcodeTable[12], List.getElem_mem _, rfl, formatXYN_mask_low _ _ _ _⟩

theorem andReg (x y : RegIdx) : Statement (.andReg x y) :=
  ⟨opcodeTable[13], List.getElem_mem _, rfl, formatXYN_mask_low _ _ _ _⟩

theorem xorReg (x y : RegIdx) : Statement (.xorReg x y) :=
  ⟨opcodeTable[14], List.getElem_mem _, rfl, formatXYN_mask_low _ _ _ _⟩

theorem addReg (x y : RegIdx) : Statement (.addReg x y) :=
  ⟨opcodeTable[15], List.getElem_mem _, rfl, formatXYN_mask_low _ _ _ _⟩

theorem subReg (x y : RegIdx) : Statement (.subReg x y) :=
  ⟨opcodeTable[16], List.getElem_mem _, rfl, formatXYN_mask_low _ _ _ _⟩

theorem shrReg (x y : RegIdx) : Statement (.shrReg x y) :=
  ⟨opcodeTable[17], List.getElem_mem _, rfl, formatXYN_mask_low _ _ _ _⟩

theorem subnReg (x y : RegIdx) : Statement (.subnReg x y) :=
  ⟨opcodeTable[18], List.getElem_mem _, rfl, formatXYN_mask_low _ _ _ _⟩

theorem shlReg (x y : RegIdx) : Statement (.shlReg x y) :=
  ⟨opcodeTable[19], List.getElem_mem _, rfl, formatXYN_mask_low _ _ _ _⟩

theorem sneReg (x y : RegIdx) : Statement (.sneReg x y) :=
  ⟨opcodeTable[20], List.getElem_mem _, rfl, formatXYN_mask_low _ _ _ _⟩

theorem jpV0 (nnn : Addr12) : Statement (.jpV0 nnn) :=
  ⟨opcodeTable[21], List.getElem_mem _, rfl, formatNNN_mask _ _⟩

theorem rnd (x : RegIdx) (nn : Byte) : Statement (.rnd x nn) :=
  ⟨opcodeTable[22], List.getElem_mem _, rfl, formatXNN_mask _ _ _⟩

theorem skp (x : RegIdx) : Statement (.skp x) :=
  ⟨opcodeTable[23], List.getElem_mem _, rfl, formatXNN_mask_low _ _ _⟩

theorem sknp (x : RegIdx) : Statement (.sknp x) :=
  ⟨opcodeTable[24], List.getElem_mem _, rfl, formatXNN_mask_low _ _ _⟩

theorem ldVxDT (x : RegIdx) : Statement (.ldVxDT x) :=
  ⟨opcodeTable[25], List.getElem_mem _, rfl, formatXNN_mask_low _ _ _⟩

theorem ldVxK (x : RegIdx) : Statement (.ldVxK x) :=
  ⟨opcodeTable[26], List.getElem_mem _, rfl, formatXNN_mask_low _ _ _⟩

theorem ldDTVx (x : RegIdx) : Statement (.ldDTVx x) :=
  ⟨opcodeTable[27], List.getElem_mem _, rfl, formatXNN_mask_low _ _ _⟩

theorem ldSTVx (x : RegIdx) : Statement (.ldSTVx x) :=
  ⟨opcodeTable[28], List.getElem_mem _, rfl, formatXNN_mask_low _ _ _⟩

theorem addIVx (x : RegIdx) : Statement (.addIVx x) :=
  ⟨opcodeTable[29], List.getElem_mem _, rfl, formatXNN_mask_low _ _ _⟩

theorem ldFVx (x : RegIdx) : Statement (.ldFVx x) :=
  ⟨opcodeTable[30], List.getElem_mem _, rfl, formatXNN_mask_low _ _ _⟩

theorem ldBVx (x : RegIdx) : Statement (.ldBVx x) :=
  ⟨opcodeTable[31], List.getElem_mem _, rfl, formatXNN_mask_low _ _ _⟩

theorem storeRegs (x : RegIdx) : Statement (.storeRegs x) :=
  ⟨opcodeTable[32], List.getElem_mem _, rfl, formatXNN_mask_low _ _ _⟩

theorem loadRegs (x : RegIdx) : Statement (.loadRegs x) :=
  ⟨opcodeTable[33], List.getElem_mem _, rfl, formatXNN_mask_low _ _ _⟩

end Sys2Proof.Laws.TableRow
end

