-- ==== Sys2Proof/Laws/Step.lean ====
section
/-! SUPPORT. Everything a step can do: one inversion lemma for the machine's step, one for the instruction step, one for a
reset request. -/

namespace Sys2Proof.Machine

/-- A reset request answers a next state exactly for an image of even length up to 3584, and then the reset state. -/
theorem resetRequest_next {image : List Byte} {s t : State} :
    resetRequest image s = .next t ↔ image.length ≤ 3584 ∧ image.length % 2 = 0 ∧
      t = State.resetWith s.params (resetMem s.params.font image) s.draws s.schedule s.rounds := by
  unfold resetRequest Config.maxImage
  split
  · simp only [reduceCtorEq, false_iff]; omega
  · split
    · simp only [reduceCtorEq, false_iff]; omega
    · next h1 h2 =>
      rw [Host.Outcome.next.injEq]
      exact ⟨fun h => ⟨by omega, by omega, h.symm⟩, fun h => h.2.2.symm⟩

/-- A core in FAULTED or STOPPED has a next state only by a reset request. -/
theorem haltedStep_next {why : Fault} {s t : State} {ms : List Move} (h : haltedStep why s ms = .next t) :
    ∃ image rest, .reset image ∈ ms ∧ resetRequest image { s with schedule := rest } = .next t := by
  induction ms with
  | nil => cases h
  | cons m ms ih =>
    cases m with
    | reset image => exact ⟨image, ms, by simp, h⟩
    | instruction => obtain ⟨i, r, hm, hr⟩ := ih h; exact ⟨i, r, by simp [hm], hr⟩
    | tick k q => obtain ⟨i, r, hm, hr⟩ := ih h; exact ⟨i, r, by simp [hm], hr⟩
    | clockEdge k q => obtain ⟨i, r, hm, hr⟩ := ih h; exact ⟨i, r, by simp [hm], hr⟩

/-- With no reset request to come a halted core has no step, and says why. -/
theorem haltedStep_no_reset {why : Fault} {s : State} {ms : List Move} (h : ∀ image, .reset image ∉ ms) :
    haltedStep why s ms = .fault why := by
  induction ms with
  | nil => rfl
  | cons m ms ih =>
    have ih' := ih fun image hm => h image (by simp [hm])
    cases m with
    | reset image => exact absurd (by simp) (h image)
    | instruction => exact ih'
    | tick k q => exact ih'
    | clockEdge k q => exact ih'

/-! ### The next move -/

theorem State.nextMove_cons {s : State} {m : Move} {rest : List Move} (h : s.schedule = m :: rest) :
    s.nextMove = (m, { s with schedule := rest }) := by
  unfold State.nextMove; rw [h]

/-- With an empty schedule the next move is the first of a new round. -/
theorem State.nextMove_nil {s : State} (h : s.schedule = []) :
    ∃ m rest, Move.ofRound (s.rounds.nth 0) = m :: rest ∧
      s.nextMove = (m, { s with schedule := rest, rounds := s.rounds.next }) := by
  unfold State.nextMove Move.ofRound
  rw [h]
  cases hb : (s.rounds.nth 0).before with
  | nil => exact ⟨_, _, rfl, rfl⟩
  | cons b bs => exact ⟨_, _, rfl, rfl⟩

/-- Taking a move changes nothing but the moves to come. -/
theorem State.nextMove_frame (s : State) :
    s.nextMove.2 = { s with schedule := s.nextMove.2.schedule, rounds := s.nextMove.2.rounds } := by
  cases h : s.schedule with
  | nil => obtain ⟨m, rest, -, e⟩ := s.nextMove_nil h; rw [e]
  | cons m rest => rw [s.nextMove_cons h]

/-- No round holds a reset request. -/
theorem Move.reset_notMem_ofRound (r : Round) (image : List Byte) : .reset image ∉ Move.ofRound r := by
  have h (b : Beat) : Move.ofBeat b ≠ .reset image := by cases b <;> simp [Move.ofBeat]
  simp [Move.ofRound, Move.afterInstruction, h]

/-- A round holds an instruction step. -/
theorem Move.instruction_mem_ofRound (r : Round) : .instruction ∈ Move.ofRound r := by simp [Move.ofRound]

/-- A round holds a tick. -/
theorem Move.tick_mem_ofRound (r : Round) : .tick r.keysIn r.quitIn ∈ Move.ofRound r := by
  simp [Move.ofRound, Move.afterInstruction]

/-- The step of a running core is its next move. -/
theorem step_of_nextMove {s u : State} {m : Move} (h : s.NextMove m u) : step s = runMove m u := by
  simp [step, agentStep, runningStep, h.1, h.2]

/-- The next move of a running core, where it comes from: the schedule, or a new round. -/
theorem State.NextMove.cases {s u : State} {m : Move} (h : s.NextMove m u) :
    (∃ rest, s.schedule = m :: rest ∧ u = { s with schedule := rest }) ∨
    ∃ rest, s.schedule = [] ∧ Move.ofRound (s.rounds.nth 0) = m :: rest ∧
      u = { s with schedule := rest, rounds := s.rounds.next } := by
  obtain ⟨-, h⟩ := h
  cases hs : s.schedule with
  | nil =>
    obtain ⟨m', rest, hm, e⟩ := s.nextMove_nil hs
    cases h.symm.trans e
    exact .inr ⟨rest, rfl, hm, rfl⟩
  | cons m' rest =>
    cases h.symm.trans (s.nextMove_cons hs)
    exact .inl ⟨rest, rfl, rfl⟩

/-- The four kinds of step: an instruction step, a timer tick, a clock edge, a reset. -/
theorem step_next_cases {s t : State} (h : step s = .next t) :
    (∃ u, s.NextMove .instruction u ∧ instructionStep u = .next t) ∨
    (∃ k q u, s.NextMove (.tick k q) u ∧ t = timerTick k q u) ∨
    (∃ k q u, s.NextMove (.clockEdge k q) u ∧ t = clockEdge k q u) ∨
    ∃ image rest, .reset image ∈ s.schedule ∧ resetRequest image { s with schedule := rest } = .next t := by
  cases hr : s.run with
  | running =>
    obtain ⟨m, u, hn⟩ : ∃ m u, s.NextMove m u := ⟨_, _, hr, rfl⟩
    rw [step_of_nextMove hn] at h
    cases m with
    | instruction => exact .inl ⟨u, hn, h⟩
    | tick k q => exact .inr (.inl ⟨k, q, u, hn, (Host.Outcome.next.inj h).symm⟩)
    | clockEdge k q => exact .inr (.inr (.inl ⟨k, q, u, hn, (Host.Outcome.next.inj h).symm⟩))
    | reset image =>
      rcases hn.cases with ⟨rest, hs, rfl⟩ | ⟨rest, -, hm, -⟩
      · exact .inr (.inr (.inr ⟨image, rest, by simp [hs], h⟩))
      · exact absurd (by simp [hm]) (Move.reset_notMem_ofRound (s.rounds.nth 0) image)
  | faulted =>
    simp only [step, agentStep, hr] at h
    exact .inr (.inr (.inr (haltedStep_next h)))
  | stopped =>
    simp only [step, agentStep, hr] at h
    exact .inr (.inr (.inr (haltedStep_next h)))

/-- The three kinds of instruction step: a fetch that faults, an instruction, a word with no dispatcher entry. -/
theorem instructionStep_next_cases {s t : State} (h : instructionStep s = .next t) :
    (0xFFF ≤ s.pc.toNat ∧ ∃ a, t = s.takeFault none ⟨.boundsFault, a⟩) ∨
    (s.pc.toNat ≤ 0xFFE ∧ ∃ i, decode s.params.profile (s.wordAt s.pc.toNat) = .instr i ∧ exec i s = .next t) ∨
    (s.pc.toNat ≤ 0xFFE ∧ ∃ op, decode s.params.profile (s.wordAt s.pc.toNat) = .unimplemented op ∧
      t = (s.report op).advance) := by
  unfold instructionStep at h
  rcases fetch_cases s with ⟨hp, e⟩ | ⟨hp, e⟩ | ⟨hp, e⟩ <;> rw [e] at h
  · cases hd : decode s.params.profile (s.wordAt s.pc.toNat) with
    | instr i => simp only [hd] at h; exact .inr (.inl ⟨hp, i, rfl, h⟩)
    | unimplemented op =>
      simp only [hd, unimplemented, Host.Outcome.next.injEq] at h
      exact .inr (.inr ⟨hp, op, rfl, h.symm⟩)
  · simp only [Host.Outcome.next.injEq] at h
    exact .inl ⟨by omega, _, h.symm⟩
  · simp only [Host.Outcome.next.injEq] at h
    exact .inl ⟨by omega, _, h.symm⟩

/-- Runs compose. -/
theorem Reaches.trans {m n : Nat} {s t u : State} (h : Reaches m s t) (g : Reaches n t u) : Reaches (m + n) s u := by
  induction m generalizing s with
  | zero => cases h; simpa using g
  | succ m ih =>
    obtain ⟨v, hv, ht⟩ := h
    rw [Nat.add_right_comm]
    exact ⟨v, hv, ih ht⟩

/-- The memory a reset leaves is canonical. -/
theorem resetMem_wf (font : Vector Byte 80) {image : List Byte} (h : image.length ≤ 3584) :
    (resetMem font image).wf = true := by
  unfold resetMem
  refine Mem.wf_load _ _ _ (Mem.wf_load _ _ _ (Mem.wf_load _ _ _ rfl ?_) ?_) ?_
  · simp [Config.fontBase, Config.memSize]
  · simp [Config.fontBase, Config.memSize]
  · unfold Config.progBase Config.memSize; omega

theorem reset_mem_wf : State.reset.mem.wf = true := rfl

/-- A word with a row in some profile's map has the same meaning under the profile it is placed with. -/
theorem decode_placeProfile {p q : Profile} {op : Word} {i : Instr} (h : decode q op = .instr i) :
    decode (placeProfile p op) op = .instr i := by
  have hf := decode_full_of_decode h
  unfold placeProfile
  cases hp : decode p op with
  | instr j =>
    have hj : j = i := by simpa [hf] using (decode_full_of_decode hp).symm
    simpa [hj] using hp
  | unimplemented w => simp [hf]

/-- Placing a word for the next fetch keeps memory canonical. -/
theorem placeWord_wf (s : State) (op : Word) (h : s.mem.wf = true) : (placeWord s op).mem.wf = true := by
  refine Mem.wf_load _ _ _ h ?_
  unfold placeAddress Config.memSize
  split
  · simp only [bytesOfWord, List.length_cons, List.length_nil]; omega
  · simp [bytesOfWord, Config.progBase]

end Sys2Proof.Machine
end

