-- ==== Sys2Proof/Tests/Slice0.lean ====
section
/-! SUPPORT. Our own tests: well-formedness, decoding of hand-written words, single steps with results from the spec's
vectors (95_test_vectors.md), and for every statement with hypotheses a witness that meets them. -/

namespace Sys2Proof.Tests

open Sys2Proof.Machine

/-! ### Helpers -/

/-- A part of the next state, if there is one. -/
def after {α : Type} (r : Result) (f : State → α) : Option α :=
  match r with
  | .next t => some (f t)
  | .fault _ => none
  | .refused _ => none

/-- One result after the other. -/
def andThen (r : Result) (f : State → Result) : Result :=
  match r with
  | .next t => f t
  | .fault e => .fault e
  | .refused e => .refused e

/-- There is a next state. -/
def runs (r : Result) : Bool := (after r fun _ => ()).isSome

theorem next_of_runs {r : Result} (h : runs r = true) : ∃ t, r = .next t := by
  cases r with
  | next t => exact ⟨t, rfl⟩
  | fault e => cases h
  | refused e => cases h

theorem next_of_after {α : Type} {r : Result} {f : State → α} {a : α} (h : after r f = some a) :
    ∃ t, r = .next t ∧ f t = a := by
  cases r with
  | next t => exact ⟨t, rfl, Option.some.inj h⟩
  | fault e => cases h
  | refused e => cases h

theorem two_of_runs {r : Result} {f : State → Result} (h : runs (andThen r f) = true) :
    ∃ t u, r = .next t ∧ f t = .next u := by
  cases r with
  | next t => obtain ⟨u, hu⟩ := next_of_runs h; exact ⟨t, u, rfl, hu⟩
  | fault e => cases h
  | refused e => cases h

/-- Rounds in which every input is given: an instruction step and a tick, with no key pressed and no quit request. -/
def calm : Rounds := .same ⟨[], [], Vector.replicate 16 false, false⟩

/-- The reset state of a core with these parameters and calm rounds. -/
def resetParams (p : Params) : State := State.resetWith p [] 0 [] calm

/-- State.reset but for the rounds. -/
def minReset : State := resetParams defaultParams

/-- The parameters of a core of `PROFILE = FULL`. -/
def fullParams : Params := { defaultParams with profile := .full }

/-- The reset state of a core of `PROFILE = FULL`. -/
def fullReset : State := resetParams fullParams

/-- Registers set one by one. -/
def withV (s : State) (l : List (RegIdx × Byte)) : State := l.foldl (fun u c => u.setV c.1 c.2) s

/-- Memory bytes set from `a` on. -/
def withMem (s : State) (a : Nat) (bytes : List Byte) : State := { s with mem := s.mem.load a bytes }

/-- Pixels turned on. -/
def withPixels (s : State) (l : List (Fin 64 × Fin 32)) : State := l.foldl (fun u c => u.togglePixel c.1 c.2) s

/-- Keys latched. -/
def withKeys (s : State) (l : List Nat) : State := { s with keys := Vector.ofFn fun k => l.contains k.val }

/-- The step with the word `w` at `pc`. -/
def runWord (s : State) (w : Word) : Result := step (withMem s s.pc.toNat (bytesOfWord w))

/-- The columns of the first ten that are on in a row. -/
def lit (s : State) (py : Fin 32) : List (Fin 10) :=
  (List.finRange 10).filter fun px => s.pixel (px.castLE (by decide)) py

/-! ### Well-formedness: every row of FULL is refused under MIN -/

theorem test_wf_min_rows : [Instr.cls, .jp 0x234, .ldImm 0 5, .addImm 3 2, .ldI 0xBCD, .drw 0 1 5].all
    (fun i => i.wf .min && i.wf .full) = true := by decide

theorem test_wf_full_rows_refused : [Instr.ret, .call 0, .seImm 0 0, .sneImm 0 0, .seReg 0 0, .ldReg 0 0, .orReg 0 0,
    .andReg 0 0, .xorReg 0 0, .addReg 0 0, .subReg 0 0, .shrReg 0 0, .subnReg 0 0, .shlReg 0 0, .sneReg 0 0, .jpV0 0,
    .rnd 0 0, .skp 0, .sknp 0, .ldVxDT 0, .ldVxK 0, .ldDTVx 0, .ldSTVx 0, .addIVx 0, .ldFVx 0, .ldBVx 0, .storeRegs 0,
    .loadRegs 0].all (fun i => i.wf .full && !i.wf .min) = true := by decide

/-- Parameters without a positive frequency, with a divisor that does not divide, or with another first font byte. -/
theorem test_params_wf : defaultParams.wf = true ∧ { defaultParams with clkHz := 0 }.wf = false ∧
    { defaultParams with clkHz := 6001 }.wf = false ∧ { defaultParams with ips := 0 }.wf = false ∧
    { defaultParams with ips := 7 }.wf = false ∧ { defaultParams with font := Vector.replicate 80 0 }.wf = false := by
  decide

/-- A list out of order, with an address twice, with a default byte listed, with an address above memory. -/
theorem test_mem_wf : Mem.wf [(1, 5), (0x200, 6)] = true ∧ Mem.wf [(2, 5), (1, 5)] = false ∧
    Mem.wf [(1, 5), (1, 6)] = false ∧ Mem.wf [(1, 0)] = false ∧ Mem.wf [(0x050, 0xF0)] = false ∧
    Mem.wf [(0x050, 0)] = true ∧ Mem.wf [(0x1000, 5)] = false := by decide

/-! ### Decoding: words written out from the encodings of 30_encoding.md R95 and R99 -/

theorem test_decode_cls : decode .min 0x00E0 = .instr .cls := by decide
theorem test_decode_jp : decode .min 0x1ABC = .instr (.jp 0xABC) := by decide
theorem test_decode_ldImm : decode .min 0x6A5C = .instr (.ldImm 0xA 0x5C) := by decide
theorem test_decode_addImm : decode .min 0x7302 = .instr (.addImm 0x3 0x02) := by decide
theorem test_decode_ldI : decode .min 0xABCD = .instr (.ldI 0xBCD) := by decide
theorem test_decode_drw : decode .min 0xD125 = .instr (.drw 0x1 0x2 0x5) := by decide
theorem test_decode_ret : decode .full 0x00EE = .instr .ret := by decide
theorem test_decode_call : decode .full 0x2ABC = .instr (.call 0xABC) := by decide
theorem test_decode_seImm : decode .full 0x3A5C = .instr (.seImm 0xA 0x5C) := by decide
theorem test_decode_sneImm : decode .full 0x4A5C = .instr (.sneImm 0xA 0x5C) := by decide
theorem test_decode_seReg : decode .full 0x5120 = .instr (.seReg 0x1 0x2) := by decide
theorem test_decode_ldReg : decode .full 0x8120 = .instr (.ldReg 0x1 0x2) := by decide
theorem test_decode_orReg : decode .full 0x8121 = .instr (.orReg 0x1 0x2) := by decide
theorem test_decode_andReg : decode .full 0x8122 = .instr (.andReg 0x1 0x2) := by decide
theorem test_decode_xorReg : decode .full 0x8123 = .instr (.xorReg 0x1 0x2) := by decide
theorem test_decode_addReg : decode .full 0x8124 = .instr (.addReg 0x1 0x2) := by decide
theorem test_decode_subReg : decode .full 0x8125 = .instr (.subReg 0x1 0x2) := by decide
theorem test_decode_shrReg : decode .full 0x8126 = .instr (.shrReg 0x1 0x2) := by decide
theorem test_decode_subnReg : decode .full 0x8127 = .instr (.subnReg 0x1 0x2) := by decide
theorem test_decode_shlReg : decode .full 0x812E = .instr (.shlReg 0x1 0x2) := by decide
theorem test_decode_sneReg : decode .full 0x9120 = .instr (.sneReg 0x1 0x2) := by decide
theorem test_decode_jpV0 : decode .full 0xBABC = .instr (.jpV0 0xABC) := by decide
theorem test_decode_rnd : decode .full 0xC10F = .instr (.rnd 0x1 0x0F) := by decide
theorem test_decode_skp : decode .full 0xE19E = .instr (.skp 0x1) := by decide
theorem test_decode_sknp : decode .full 0xE1A1 = .instr (.sknp 0x1) := by decide
theorem test_decode_ldVxDT : decode .full 0xF107 = .instr (.ldVxDT 0x1) := by decide
theorem test_decode_ldVxK : decode .full 0xF10A = .instr (.ldVxK 0x1) := by decide
theorem test_decode_ldDTVx : decode .full 0xF115 = .instr (.ldDTVx 0x1) := by decide
theorem test_decode_ldSTVx : decode .full 0xF118 = .instr (.ldSTVx 0x1) := by decide
theorem test_decode_addIVx : decode .full 0xF11E = .instr (.addIVx 0x1) := by decide
theorem test_decode_ldFVx : decode .full 0xF129 = .instr (.ldFVx 0x1) := by decide
theorem test_decode_ldBVx : decode .full 0xF133 = .instr (.ldBVx 0x1) := by decide
theorem test_decode_storeRegs : decode .full 0xF155 = .instr (.storeRegs 0x1) := by decide
theorem test_decode_loadRegs : decode .full 0xF265 = .instr (.loadRegs 0x2) := by decide

/-- The encoder on the same operands, one word for each format (30_encoding.md R93). -/
theorem test_encode_formats : encode .cls = 0x00E0 ∧ encode (.jp 0x234) = 0x1234 ∧ encode (.ldImm 0 5) = 0x6005 ∧
    encode (.drw 0 1 5) = 0xD015 ∧ encode (.addReg 0xA 0xB) = 0x8AB4 ∧ encode (.sneReg 1 2) = 0x9120 ∧
    encode (.sknp 1) = 0xE1A1 ∧ encode (.storeRegs 1) = 0xF155 := by decide

/-- 95_test_vectors.md T8: the words of FULL and the reserved words have no entry under MIN. -/
theorem test_decode_min_unimplemented : [0x0000, 0x00EE, 0x00E1, 0x0123, 0x2ABC, 0x3A00, 0x5AB0, 0x8AB4, 0x9AB0, 0xB123,
    0xC0FF, 0xE19E, 0xF00A, 0xF155, 0xFFFF].all (fun op => decode .min op = .unimplemented op) = true := by decide

/-- Words next to the rows of FULL. -/
theorem test_decode_full_unimplemented : [0x0000, 0x00E1, 0x00EF, 0x01E0, 0x5121, 0x8128, 0x812F, 0x9121, 0xE19F, 0xE1A0,
    0xF108, 0xF156, 0xFFFF].all (fun op => decode .full op = .unimplemented op) = true := by decide

/-- 95_test_vectors.md T1: the byte order. -/
theorem test_decode_byte_order : decodeBytes .min [0x00, 0xE0, 0x12] = .ok (.cls, [0x12]) ∧
    decodeBytes .min [0xE0, 0x00, 0x12] = .error (.unimplemented 0xE000) := by decide

theorem test_decode_truncated : decodeBytes .full [0x00] = .error .truncated ∧
    decodeBytes .full [] = .error .truncated := by decide

/-- 95_test_vectors.md T1: the fields of `ABCD`. -/
theorem test_fields : fieldsOf 0xABCD = ⟨0xA, 0xB, 0xC, 0xD, 0xCD, 0xBCD⟩ := by decide

theorem test_decodeTableWord : decodeTableWord 16 0xF265 = some (.loadRegs 2) ∧ decodeTableWord 16 0xE000 = none := by
  decide

/-! ### Single steps, with the results of 95_test_vectors.md -/

theorem test_cls : after (runWord (withPixels (withV minReset [(15, 1)]) [(63, 31), (0, 0)]) 0x00E0)
    (fun t => (t.pixel 63 31, t.pixel 0 0, t.getV 15, t.pc)) = some (false, false, 1, 0x202) := by decide

theorem test_jp : after (runWord minReset 0x1203) (fun t => (t.pc, t.fault.cause)) = some (0x203, .none) ∧
    after (runWord minReset 0x1FFF) (fun t => t.pc) = some 0xFFF := by decide

theorem test_ldImm : after (runWord (withV minReset [(0, 0x99)]) 0x6005) (fun t => (t.getV 0, t.pc)) =
    some (0x05, 0x202) := by decide

theorem test_addImm : after (runWord (withV minReset [(3, 0xFF), (15, 1)]) 0x7302) (fun t => (t.getV 3, t.getV 15)) =
    some (0x01, 1) := by decide

theorem test_addImm_vf : after (runWord (withV minReset [(15, 1)]) 0x7FFF) (fun t => t.getV 15) = some 0 := by decide

theorem test_ldI : after (runWord minReset 0xAFFF) (fun t => (t.i, t.pc)) = some (0x0FFF, 0x202) := by decide

/-- T7 row 5: the coordinate in `VF` is read before `VF` is cleared. -/
theorem test_drw_coordinate_in_vf : after (runWord (withMem (withV (minReset.setI 0x300) [(15, 9)]) 0x300 [0x80]) 0xDF11)
    (fun t => (lit t 0, t.getV 15, t.pc)) = some ([9], 0, 0x202) := by decide

/-- T7 row 8: the first row is drawn, the second faults. -/
theorem test_drw_fault :
    after (runWord (withMem { minReset with i := 0xFFF, pc := 0x300 } 0xFFF [0xFF]) 0xD002)
      (fun t => (lit t 0, t.getV 15, t.fault, t.pc, t.run)) =
      some ([0, 1, 2, 3, 4, 5, 6, 7], 0,
        ⟨.boundsFault, 0x1000, 0x300, some 0xD002⟩, 0x300, .faulted) := by decide

theorem test_call : after (runWord fullReset 0x2300) (fun t => (t.stack, t.pc)) = some ([0x202], 0x300) := by decide

theorem test_call_overflow : after (runWord { fullReset with stack := List.replicate 16 0x202 } 0x2300)
    (fun t => (t.fault, t.pc, t.sp)) = some (⟨.stackOverflow, 0x200, 0x200, some 0x2300⟩, 0x200, 16) := by decide

theorem test_ret : after (runWord { fullReset with stack := [0x300, 0x202] } 0x00EE) (fun t => (t.stack, t.pc)) =
    some ([0x300], 0x202) := by decide

theorem test_ret_underflow : after (runWord fullReset 0x00EE) (fun t => (t.fault, t.pc, t.sp)) =
    some (⟨.stackUnderflow, 0x200, 0x200, some 0x00EE⟩, 0x200, 0) := by decide

theorem test_seImm : after (runWord (withV fullReset [(1, 0x10)]) 0x3110) (fun t => t.pc) = some 0x204 ∧
    after (runWord (withV fullReset [(1, 0x10)]) 0x3111) (fun t => t.pc) = some 0x202 := by decide

theorem test_sneImm : after (runWord (withV fullReset [(1, 0x10)]) 0x4110) (fun t => t.pc) = some 0x202 ∧
    after (runWord (withV fullReset [(1, 0x10)]) 0x4111) (fun t => t.pc) = some 0x204 := by decide

theorem test_seReg : after (runWord (withV fullReset [(1, 5), (2, 5)]) 0x5120) (fun t => t.pc) = some 0x204 := by decide

theorem test_sneReg : after (runWord (withV fullReset [(1, 5), (2, 5)]) 0x9120) (fun t => t.pc) = some 0x202 := by decide

theorem test_ldReg : after (runWord (withV fullReset [(1, 7), (2, 9)]) 0x8120) (fun t => (t.getV 1, t.getV 2)) =
    some (9, 9) := by decide

theorem test_orReg : after (runWord (withV fullReset [(1, 0x0C), (2, 0x0A), (15, 1)]) 0x8121)
    (fun t => (t.getV 1, t.getV 15)) = some (0x0E, 0) := by decide

theorem test_orReg_keep :
    after (runWord (withV (resetParams { fullParams with logicVF := .keep }) [(1, 0x0C), (2, 0x0A), (15, 1)]) 0x8121)
      (fun t => (t.getV 1, t.getV 15)) = some (0x0E, 1) := by decide

theorem test_andReg : after (runWord (withV fullReset [(1, 0x0C), (2, 0x0A), (15, 1)]) 0x8122)
    (fun t => (t.getV 1, t.getV 15)) = some (0x08, 0) := by decide

theorem test_xorReg : after (runWord (withV fullReset [(1, 0x0C), (2, 0x0A), (15, 1)]) 0x8123)
    (fun t => (t.getV 1, t.getV 15)) = some (0x06, 0) := by decide

theorem test_addReg : after (runWord (withV fullReset [(1, 0xFF), (2, 0x01)]) 0x8124)
    (fun t => (t.getV 1, t.getV 15)) = some (0x00, 1) := by decide

theorem test_addReg_vf : after (runWord (withV fullReset [(15, 0xFF), (2, 0x01)]) 0x8F24) (fun t => t.getV 15) =
    some 1 := by decide

theorem test_subReg : after (runWord (withV fullReset [(1, 5), (2, 6)]) 0x8125) (fun t => (t.getV 1, t.getV 15)) =
    some (0xFF, 0) := by decide

theorem test_subReg_equal : after (runWord (withV fullReset [(1, 5), (2, 5)]) 0x8125)
    (fun t => (t.getV 1, t.getV 15)) = some (0, 1) := by decide

theorem test_subnReg : after (runWord (withV fullReset [(1, 5), (2, 6)]) 0x8127) (fun t => (t.getV 1, t.getV 15)) =
    some (1, 1) := by decide

theorem test_shrReg_vy : after (runWord (withV fullReset [(1, 0xAA), (2, 0x03)]) 0x8126)
    (fun t => (t.getV 1, t.getV 15)) = some (0x01, 1) := by decide

theorem test_shrReg_vx :
    after (runWord (withV (resetParams { fullParams with shiftSrc := .vx }) [(1, 0xAA), (2, 0x03)]) 0x8126)
      (fun t => (t.getV 1, t.getV 15)) = some (0x55, 0) := by decide

theorem test_shlReg_vy : after (runWord (withV fullReset [(2, 0xC0)]) 0x812E) (fun t => (t.getV 1, t.getV 15)) =
    some (0x80, 1) := by decide

theorem test_jpV0 : after (runWord (withV fullReset [(0, 0xFF)]) 0xBFFF) (fun t => t.pc) = some 0x10FE := by decide

/-- The draw is free, so what is tested is the mask: with `nn = 0` the result is 0 whatever is drawn. -/
theorem test_rnd (s : State) : after (exec (.rnd 1 0) s) (fun t => (t.getV 1, t.draws)) = some (0, s.draws + 1) := by
  simp [exec, execRnd, after, State.draw, State.getV, State.setV, State.advance, State.setPc]

theorem test_skp : after (runWord (withKeys (withV fullReset [(1, 0x15)]) [5]) 0xE19E) (fun t => t.pc) = some 0x204 ∧
    after (runWord (withKeys (withV fullReset [(1, 0x15)]) [6]) 0xE19E) (fun t => t.pc) = some 0x202 := by decide

theorem test_sknp : after (runWord (withKeys (withV fullReset [(1, 0x15)]) [5]) 0xE1A1) (fun t => t.pc) =
    some 0x202 := by decide

theorem test_ldVxDT : after (runWord (fullReset.setDT 9) 0xF107) (fun t => (t.getV 1, t.dt)) = some (9, 9) := by decide

theorem test_ldVxK : after (runWord (withKeys fullReset [3, 9]) 0xF10A) (fun t => (t.getV 1, t.pc)) =
    some (3, 0x202) := by decide

theorem test_ldVxK_waits : after (runWord fullReset 0xF10A) (fun t => (t.getV 1, t.pc)) = some (0, 0x200) := by decide

theorem test_ldDTVx : after (runWord (withV fullReset [(1, 7)]) 0xF115) (fun t => (t.dt, t.st)) = some (7, 0) := by
  decide

theorem test_ldSTVx : after (runWord (withV fullReset [(1, 7)]) 0xF118) (fun t => (t.dt, t.st, t.sound)) =
    some (0, 7, true) := by decide

theorem test_addIVx : after (runWord (withV (fullReset.setI 0xFFF0) [(1, 0x1F), (15, 3)]) 0xF11E)
    (fun t => (t.i, t.getV 15)) = some (0x000F, 3) := by decide

theorem test_ldFVx : after (runWord (withV fullReset [(1, 0x1B)]) 0xF129) (fun t => t.i) = some 0x087 := by decide

/-- 95_test_vectors.md P8: 234 is stored as 2, 3, 4. -/
theorem test_ldBVx : after (runWord (withV (fullReset.setI 0x300) [(0, 0xEA)]) 0xF033)
    (fun t => (t.mem.read 0x300, t.mem.read 0x301, t.mem.read 0x302, t.i)) = some (2, 3, 4, 0x300) := by decide

theorem test_ldBVx_fault : after (runWord (withV (fullReset.setI 0xFFE) [(1, 255)]) 0xF133)
    (fun t => (t.mem.read 0xFFE, t.mem.read 0xFFF, t.fault)) =
    some (2, 5, ⟨.boundsFault, 0x1000, 0x200, some 0xF133⟩) := by decide

theorem test_storeRegs : after (runWord (withV (fullReset.setI 0x300) [(0, 1), (1, 2), (2, 3)]) 0xF155)
    (fun t => (t.mem.read 0x300, t.mem.read 0x301, t.mem.read 0x302, t.i)) = some (1, 2, 0, 0x302) := by decide

theorem test_storeRegs_keep :
    after (runWord (withV ((resetParams { fullParams with memI := .keep }).setI 0x300) [(0, 1)]) 0xF055)
      (fun t => (t.mem.read 0x300, t.i)) = some (1, 0x300) := by decide

theorem test_loadRegs : after (runWord (withMem (fullReset.setI 0x300) 0x300 [2, 3, 4, 5]) 0xF265)
    (fun t => (t.getV 0, t.getV 1, t.getV 2, t.getV 3, t.i)) = some (2, 3, 4, 0, 0x303) := by decide

theorem test_loadRegs_fault : after (runWord (withMem (fullReset.setI 0xFFF) 0xFFF [7]) 0xF165)
    (fun t => (t.getV 0, t.getV 1, t.i, t.pc, t.fault.addr)) = some (7, 0, 0xFFF, 0x200, 0x1000) := by decide

/-- T8: `2ABC` under MIN is reported, pushes nothing, and is passed over. -/
theorem test_unimplemented : after (runWord minReset 0x2ABC) (fun t => (t.diag, t.stack, t.pc)) =
    some ([⟨0x200, 0x2ABC⟩], [], 0x202) := by decide

/-! ### The other steps -/

/-- T1: a fetch at `0xFFF` and at `0x1000`. -/
theorem test_fetch_fault : after (step { minReset with pc := 0xFFF }) (fun t => (t.fault, t.pc)) =
    some (⟨.boundsFault, 0x1000, 0xFFF, none⟩, 0xFFF) ∧
    after (step { minReset with pc := 0x1000 }) (fun t => (t.fault, t.pc)) =
    some (⟨.boundsFault, 0x1000, 0x1000, none⟩, 0x1000) := by decide

/-- R7, D1: the default profile. -/
theorem test_reset_profile : State.reset.params.profile = .min := by decide

/-- `withFetchWord`: from reset every row's word is run and not reported, a row of MIN and a word of no row without a
change of profile. -/
theorem test_withFetchWord_rows : opcodeTable.all (fun r =>
    after (step (State.reset.withFetchWord 16 r.pattern.toNat)) (fun t => t.diag) = some []) = true := by decide +kernel

theorem test_withFetchWord_profile : (State.reset.withFetchWord 16 0x6005).params.profile = .min ∧
    (State.reset.withFetchWord 16 0xFFFF).params.profile = .min ∧
    (State.reset.withFetchWord 16 0x00EE).params.profile = .full := by decide

/-- T10: the empty image; the first step reports `(0x200, 0x0000)`. -/
theorem test_first_step : after (step { State.reset with schedule := [.instruction] }) (fun t => t.diag) = some [⟨0x200, 0x0000⟩] := by decide

/-- T9 rows 1 and 2. -/
theorem test_tick : after (step { minReset with dt := 3, st := 1, schedule := [.tick (Vector.replicate 16 false) false] })
    (fun t => (t.dt, t.st, t.sound, t.frames.length, t.run)) = some (2, 0, false, 1, .running) ∧
    after (step { minReset with schedule := [.tick (Vector.replicate 16 false) false] })
    (fun t => (t.dt, t.st, t.frames.length)) = some (0, 0, 1) := by decide

/-- T9 row 4. -/
theorem test_tick_quit :
    after (step { minReset with dt := 1, st := 2, schedule := [.tick (Vector.replicate 16 true) true] })
      (fun t => (t.dt, t.st, t.key 5, t.frames.length, t.run)) = some (0, 1, true, 1, .stopped) := by decide

/-- R178: when both are due on one edge, the instruction step comes first. -/
theorem test_edge_order :
    after (step { minReset with tdiv := 0, idiv := 0, schedule := [.clockEdge (Vector.replicate 16 false) false] })
      (fun t => (t.tdiv, t.idiv, t.schedule)) =
      some (99, 9, [.instruction, .tick (Vector.replicate 16 false) false]) := by decide

/-- R179: at the end of the schedule a round begins, here with a clock edge, and it holds an instruction step and a tick. -/
theorem test_round : after (step { minReset with
      rounds := .same ⟨[.clockEdge (Vector.replicate 16 false) false], [], Vector.replicate 16 true, true⟩ })
    (fun t => (t.tdiv, t.schedule)) = some (98, [.instruction, .tick (Vector.replicate 16 true) true]) := by decide

/-- R173: the rounds of State.reset are free, and each is another. -/
theorem test_free_rounds : State.reset.rounds = .free 0 ∧ State.reset.rounds.next = .free 1 ∧
    (Rounds.free 1).nth 2 = Config.freeRound 3 := ⟨rfl, rfl, rfl⟩

/-- T10: the image `12 00`. -/
theorem test_reset_image : after (step { minReset with pc := 0x300, run := .faulted, schedule := [.reset [0x12, 0x00]] })
    (fun t => (t.mem.read 0x050, t.mem.read 0x09F, t.mem.read 0x200, t.mem.read 0x201, t.pc, t.run)) =
    some (0xF0, 0x80, 0x12, 0x00, 0x200, .running) := by decide +kernel

/-- T10: an image of three bytes. -/
theorem test_reset_odd : runs (step { minReset with schedule := [.reset [0, 0, 0]] }) = false := by decide

/-! ### Witnesses: for every statement with hypotheses, operands and a state that meet them all together -/

/-- A core whose next instruction step fetches `w` at `pc`. -/
def at_ (s : State) (pc : Word) (w : Nat) : State := ({ s with pc := pc } : State).withFetchWord 16 w

/-- The move at the head of the schedule. -/
theorem nextMove_head {s : State} {m : Move} {rest : List Move} (hr : s.run = .running) (hs : s.schedule = m :: rest) :
    s.NextMove m { s with schedule := rest } :=
  ⟨hr, by unfold State.nextMove; rw [hs]⟩

/-- The instruction step that begins a calm round. -/
theorem nextMove_calm {s : State} (hr : s.run = .running) (hs : s.schedule = []) (hc : s.rounds = calm) :
    s.NextMove .instruction { s with schedule := [.tick (Vector.replicate 16 false) false] } :=
  ⟨hr, by unfold State.nextMove; rw [hs]; simp [hc, calm, Rounds.nth, Rounds.next, Move.afterInstruction]⟩

/-- StepRunsDecodedInstruction: at the last address a word can be fetched from, the instruction move at the head. -/
theorem test_witness_step : ∃ (s u : State) (i : Instr), s.NextMove .instruction u ∧ s.pc.toNat ≤ 0xFFE ∧
    decode s.params.profile (s.wordAt s.pc.toNat) = .instr i :=
  ⟨at_ minReset 0xFFE 0x6005, _, .ldImm 0 5, nextMove_head rfl rfl, by decide, by decide⟩

/-- UnimplementedWordReported, both parts: the empty schedule, and a word with and one without an instruction. -/
theorem test_witness_unimplemented : (∃ s u : State, s.NextMove .instruction u ∧ s.pc.toNat ≤ 0xFFE ∧
    decode s.params.profile (s.wordAt s.pc.toNat) = .unimplemented (s.wordAt s.pc.toNat)) ∧
    decode .min 0x8AB4 = .unimplemented 0x8AB4 ∧ encode (.addReg 0xA 0xB) = 0x8AB4 ∧
    (Instr.addReg 0xA 0xB).wf .min = false ∧ decode .full 0x8AB4 ≠ .unimplemented 0x8AB4 :=
  ⟨⟨minReset, _, nextMove_calm rfl rfl rfl, by decide, by decide⟩, by decide, by decide, by decide, by decide⟩

/-- FetchFaultRecord: `pc = 0xFFE`, `0xFFF`, `0x1000`, `0xFFFF`. -/
theorem test_witness_fetch : ([0xFFE, 0xFFF, 0x1000, 0xFFFF] : List Word).Forall fun pc =>
    ({ minReset with pc := pc } : State).InstructionNext ∧
    (pc.toNat ≤ 0xFFE ∨ 0xFFF ≤ pc.toNat) := by
  exact ⟨⟨⟨_, nextMove_calm rfl rfl rfl⟩, by decide⟩, ⟨⟨_, nextMove_calm rfl rfl rfl⟩, by decide⟩,
    ⟨⟨_, nextMove_calm rfl rfl rfl⟩, by decide⟩, ⟨_, nextMove_calm rfl rfl rfl⟩, by decide⟩

/-- StoreSeenByNextFetch: the stored byte is the first, the second, neither of the two fetched. -/
theorem test_witness_store_fetch : ∃ s t1 t2 t3 : State, memWrite s 0xFFE 7 = .ok t1 ∧ memWrite s 0xFFF 7 = .ok t2 ∧
    memWrite s 0 7 = .ok t3 ∧ s.pc.toNat ≤ 0xFFE ∧ s.pc.toNat = 0xFFE ∧ s.pc.toNat + 1 = 0xFFF :=
  ⟨{ minReset with pc := 0xFFE }, _, _, _, rfl, rfl, rfl, by decide, by decide, by decide⟩

/-- DecodeOfEncode and EncodeOfDecode: both profiles, operands at the ends of their ranges. -/
theorem test_witness_round_trip : (Instr.drw 15 15 15).wf .min = true ∧ (Instr.loadRegs 15).wf .full = true ∧
    decode .min 0xDFFF = .instr (.drw 15 15 15) ∧ decode .full 0xFF65 = .instr (.loadRegs 15) := by decide

/-- MinUnimplementedWords and FullUnimplementedWords: a word of every clause, and one of none. -/
theorem test_witness_unimplemented_words :
    [0x0FFF, 0x2000, 0x3000, 0x4000, 0x5000, 0x8000, 0x9000, 0xB000, 0xC000, 0xE09E, 0xF065].all
      (fun op => decode .min op = .unimplemented op) = true ∧
    [0x0FFF, 0x500F, 0x8008, 0x8009, 0x800A, 0x800B, 0x800C, 0x800D, 0x800F, 0x900F, 0xE09D, 0xF064].all
      (fun op => decode .full op = .unimplemented op) = true ∧
    decode .min 0xDFFF ≠ .unimplemented 0xDFFF ∧ decode .full 0x800E ≠ .unimplemented 0x800E := by decide

/-- ResetRequestRebuildsState: the empty image and the longest one, in FAULTED and STOPPED. -/
theorem test_witness_reset_request : ∀ image ∈ [[], List.replicate 3584 (7 : Byte)],
    ({ minReset with run := .faulted, schedule := [.reset image] } : State).schedule = [.reset image] ∧
    image.length ≤ 3584 ∧ image.length % 2 = 0 := by decide +kernel

/-- ResetRefusesBadImage: one byte and two bytes too many, and the longest and shortest odd ones. -/
theorem test_witness_reset_refused :
    (∀ image ∈ [List.replicate 3585 (7 : Byte), List.replicate 3586 7],
      ({ minReset with schedule := [.reset image] } : State).schedule = [.reset image] ∧ 3584 < image.length) ∧
    ∀ image ∈ [[7], List.replicate 3583 (7 : Byte)],
      ({ minReset with schedule := [.reset image] } : State).schedule = [.reset image] ∧ image.length ≤ 3584 ∧
      image.length % 2 = 1 := by decide +kernel

/-- A state at the edges of the invariants: a full stack of the highest return addresses, the highest `pc`, a listed
byte, a divider at 0. -/
def edge : State :=
  { withMem minReset 0xFFF [7] with stack := List.replicate 16 0x1000, pc := 0x10FE, tdiv := 0, idiv := 9 }

/-- EveryStepKeepsInvariant: the step faults, so both sides of the fault clause occur. -/
theorem test_witness_invariant : edge.Inv ∧ edge.fault.cause = .none ∧
    ∃ t, step edge = .next t ∧ t.fault.cause = .boundsFault :=
  ⟨⟨by decide, by decide, by decide⟩, by decide, next_of_after (by decide)⟩

/-- EveryStepKeepsPcInRange and EveryStepKeepsDividersInRange. -/
theorem test_witness_ranges : edge.PcInRange ∧ edge.DividersInRange ∧ ∃ t, step edge = .next t :=
  ⟨⟨by decide, fun a h => by rw [List.eq_of_mem_replicate h]; decide⟩, ⟨by decide, by decide, by decide⟩,
    next_of_runs (by decide)⟩

/-- InvariantsHoldAtReset, for any parameters: each hypothesis, and parameters that are not well-formed. -/
theorem test_witness_invariants_at_reset : Mem.wf [(0x200, 6)] = true ∧ fullParams.wf = true ∧
    fullParams.profile ≠ .min ∧ defaultParams.profile = .min ∧ { defaultParams with ips := 7 }.wf = false := by decide

/-- EveryStepKeepsMinInvariant: `I` and `pc` at their bounds, the step faults. -/
theorem test_witness_min_invariant : ({ minReset with i := 0xFFF, pc := 0x1000 } : State).MinInv ∧
    ∃ t, step { minReset with i := 0xFFF, pc := 0x1000 } = .next t :=
  ⟨⟨by decide, by decide, by decide, by decide, by decide, by decide, by decide, by decide⟩, next_of_runs (by decide)⟩

/-- MinProfileNeverWritesMemory: a word that stores under FULL. -/
theorem test_witness_min_memory : ∃ s t : State, s.params.profile = .min ∧ (∀ image, .reset image ∉ s.schedule) ∧
    step s = .next t := by
  obtain ⟨t, ht⟩ := next_of_runs (r := step (withMem minReset 0x200 [0xF1, 0x55])) (by decide)
  exact ⟨_, t, rfl, fun image h => (List.not_mem_nil h).elim, ht⟩

/-- The row clauses (RowDecodes) of the instruction statements: each row's own pattern is a word of the row. -/
theorem test_witness_rows : opcodeTable.all (fun r => r.pattern &&& r.mask = r.pattern) = true ∧
    opcodeTable.length = 34 := by decide

/-- DrawSprite: `n = 0` with `I` outside memory, and the last row at `0xFFF`; a target that is on, and one that is off. -/
theorem test_witness_draw : ((0 : Nibble) = 0 ∨ 0xFFFF + (0 : Nibble).toNat ≤ 0x1000) ∧
    ∃ s : State, ((15 : Nibble) = 0 ∨ s.i.toNat + (15 : Nibble).toNat ≤ 0x1000) ∧
      SpriteHits s 60 31 15 60 31 ∧ s.pixel 60 31 = true ∧ SpriteHits s 60 31 15 3 31 ∧ s.pixel 3 31 = false :=
  ⟨.inl rfl, withPixels (withMem (minReset.setI 0xFF1) 0xFF1 [0xFF]) [(60, 31)], .inr (by decide),
    ⟨0, 0, by decide, by decide, by decide, by decide, by decide⟩, by decide,
    ⟨0, 7, by decide, by decide, by decide, by decide, by decide⟩, by decide⟩

/-- DrawBoundsFault: the second row is the first outside memory, and the first row is. -/
theorem test_witness_draw_fault : (decode .min 0xD012 = .instr (.drw 0 1 2) ∧ (2 : Nibble) ≠ 0 ∧
    0x1000 < (minReset.setI 0xFFF).i.toNat + (2 : Nibble).toNat) ∧
    decode .min 0xD011 = .instr (.drw 0 1 1) ∧ (1 : Nibble) ≠ 0 ∧
    0x1000 < (minReset.setI 0x1000).i.toNat + (1 : Nibble).toNat := by decide

/-- DrawTwiceRestoresDisplay: an off target before the first draw, and none. -/
theorem test_witness_draw_twice : ∃ s : State, ((1 : Nibble) = 0 ∨ s.i.toNat + (1 : Nibble).toNat ≤ 0x1000) ∧
    SpriteHits s 0 0 1 0 0 ∧ s.pixel 0 0 = false ∧
    ∃ t u, exec (.drw 0 1 1) s = .next t ∧ exec (.drw 0 1 1) t = .next u :=
  ⟨withMem (minReset.setI 0xFFF) 0xFFF [0x80], .inr (by decide),
    ⟨0, 0, by decide, by decide, by decide, by decide, by decide⟩, by decide, two_of_runs (by decide)⟩

theorem test_witness_draw_twice_empty : (¬∃ px py, SpriteHits minReset 0 0 0 px py ∧
    minReset.pixel px py = false) ∧
    ∃ t u, exec (.drw 0 1 0) minReset = .next t ∧ exec (.drw 0 1 0) t = .next u :=
  ⟨fun ⟨_, _, ⟨_, _, h, _⟩, _⟩ => absurd h (Nat.not_lt_zero _), two_of_runs (by decide)⟩

/-- CallPushesReturnAddress: 15 entries, 16 entries. -/
theorem test_witness_call : ({ minReset with stack := List.replicate 15 0 } : State).stack.length < 16 ∧
    decode .full 0x2300 = .instr (.call 0x300) ∧
    16 ≤ ({ minReset with stack := List.replicate 16 0 } : State).stack.length := by decide

/-- ReturnPopsReturnAddress: one entry, no entry. -/
theorem test_witness_return : ({ minReset with stack := [0x202] } : State).stack = [] ++ [0x202] ∧
    minReset.stack = [] := by decide

/-- CallThenReturn: the sixteenth entry, and a state that agrees with the called one in the stack only. -/
theorem test_witness_call_return : ∃ s t u : State, s.stack.length < 16 ∧ exec (.call 0x300) s = .next t ∧
    u.stack = t.stack := by
  obtain ⟨t, ht⟩ := next_of_runs
    (r := exec (.call 0x300) { minReset with stack := List.replicate 15 0 }) (by decide)
  exact ⟨_, t, { minReset with stack := t.stack }, by decide, ht, rfl⟩

/-- ConditionalSkips: a reserved word of each of the two rows; operands that are equal and that are not. -/
theorem test_witness_skips : ([0x5121, 0x912F] : List Word).all (fun op => op.extractLsb' 0 4 ≠ 0x0#4 ∧
    (op.extractLsb' 12 4 = 0x5#4 ∨ op.extractLsb' 12 4 = 0x9#4)) = true ∧
    minReset.getV 1 = 0 ∧ minReset.getV 1 ≠ 1 ∧ minReset.getV 1 = minReset.getV 2 ∧
    (withV minReset [(1, 1)]).getV 1 ≠ (withV minReset [(1, 1)]).getV 2 := by decide

/-- BitwiseOperations, ShiftsByOne, and the statements with a clause for `x ≠ 15`: each value of each quirk. -/
theorem test_witness_quirks : minReset.params.logicVF = .reset ∧
    (resetParams { defaultParams with logicVF := .keep }).params.logicVF = .keep ∧ (14 : RegIdx) ≠ 15 ∧
    (minReset.params.shiftSrc = .vy ∧ 0 = minReset.getV 2) ∧
    ((resetParams { defaultParams with shiftSrc := .vx }).params.shiftSrc = .vx ∧ 0 = minReset.getV 1) := by decide

/-- KeySkips and WaitForKey: the latch of the key is 1, is 0; the least latched key is the last one; none is latched. -/
theorem test_witness_keys : (withKeys minReset [15]).key 15 = true ∧
    (∀ j : Nibble, j < 15 → (withKeys minReset [15]).key j = false) ∧
    (∀ k : Nibble, minReset.key k = false) ∧
    (withKeys (withV minReset [(1, 0x1F)]) [15]).keys[15] = true ∧ minReset.keys[15] = false := by decide

/-- StoreDecimalDigits, StoreRegisters, LoadRegisters: the last byte is at `0xFFF`; each value of `Q_MEM_I`. -/
theorem test_witness_blocks : (minReset.setI 0xFFD).i.toNat + 2 ≤ 0xFFF ∧
    (minReset.setI 0xFF0).i.toNat + (15 : RegIdx).toNat ≤ 0xFFF ∧ minReset.params.memI = .increment ∧
    (resetParams { defaultParams with memI := .keep }).params.memI = .keep ∧ (0 : RegIdx) ≤ 15 := by decide

/-- BlockBoundsFaults: the last byte is the first outside memory, the first byte is, and `I` is beyond. -/
theorem test_witness_block_faults : [0xFFE, 0x1000, 0xFFFF].all (fun a => 0xFFF < (minReset.setI a).i.toNat + 2) = true ∧
    [0xFFF, 0x1000, 0xFFFF].all (fun a => 0xFFF < (minReset.setI a).i.toNat + (1 : RegIdx).toNat) = true ∧
    decode .full 0xF133 = .instr (.ldBVx 1) ∧ decode .full 0xF155 = .instr (.storeRegs 1) ∧
    decode .full 0xF165 = .instr (.loadRegs 1) ∧ (minReset.setI 0xFFE).indexed 1 ≤ 0xFFF := by decide

/-- MemoryAccessLaws: the last address of memory and the first above it. -/
theorem test_witness_memory : 0xFFF ≤ 0xFFF ∧ 0xFFF < 0x1000 ∧
    (∃ t, memWrite minReset 0xFFF 7 = .ok t) ∧ memRead minReset 0x1000 = .error ⟨.boundsFault, 0x1000⟩ :=
  ⟨by decide, by decide, ⟨_, rfl⟩, rfl⟩

/-- FaultsOnlyWhereTheTableSays: each of the three causes. -/
theorem test_witness_faults :
    (∃ t, exec (.drw 0 0 1) (minReset.setI 0x1000) = .next t ∧
      (minReset.run, t.run, t.fault.cause) = (.running, .faulted, .boundsFault)) ∧
    (∃ t, exec .ret minReset = .next t ∧
      (minReset.run, t.run, t.fault.cause) = (.running, .faulted, .stackUnderflow)) ∧
    ∃ t, exec (.call 0) { minReset with stack := List.replicate 16 0 } = .next t ∧
      (minReset.run, t.run, t.fault.cause) = (.running, .faulted, .stackOverflow) :=
  ⟨next_of_after (by decide), next_of_after (by decide), next_of_after (by decide)⟩

/-- FaultKeepsPc: a fault of an instruction, one of the fetch, and a step without fault. -/
theorem test_witness_fault_keeps_pc :
    ((at_ minReset 0x300 0x00EE).InstructionNext ∧
      ∃ t, step (at_ minReset 0x300 0x00EE) = .next t ∧ t.run = .faulted) ∧
    (({ minReset with pc := 0xFFF } : State).InstructionNext ∧
      ∃ t, step { minReset with pc := 0xFFF } = .next t ∧ t.run = .faulted) ∧
    (minReset.InstructionNext ∧ ∃ t, step minReset = .next t ∧ t.run = .running) :=
  ⟨⟨⟨_, nextMove_head rfl rfl⟩, next_of_after (by decide)⟩, ⟨⟨_, nextMove_calm rfl rfl rfl⟩, next_of_after (by decide)⟩,
    ⟨_, nextMove_calm rfl rfl rfl⟩, next_of_after (by decide)⟩

/-- NoStepWhenHalted: each halted run state without a request to come, and one with a request behind other moves. -/
theorem test_witness_halted : (∀ s ∈ [{ minReset with run := .faulted, schedule := [.instruction] },
    { minReset with run := .stopped }], ∀ image, .reset image ∉ s.schedule) ∧
    ∃ s t : State, s.run ≠ .running ∧ step s = .next t := by
  refine ⟨by simp [minReset, resetParams, State.resetWith], ?_⟩
  obtain ⟨t, ht⟩ := next_of_runs
    (r := step { minReset with run := .stopped, schedule := [.instruction, .reset []] }) rfl
  exact ⟨_, t, by decide, ht⟩

/-- The four statements on writers: a step that changes a pixel, a byte, `I`, a timer, the stack. -/
theorem test_witness_writers :
    (∃ t, exec .cls (withPixels minReset [(0, 0)]) = .next t ∧ t.pixel 0 0 = false) ∧
    (∃ t, exec (.storeRegs 0) (withV (minReset.setI 0x300) [(0, 7)]) = .next t ∧ (t.mem.read 0x300, t.i) = (7, 0x301)) ∧
    (∃ t, exec (.ldDTVx 0) (withV minReset [(0, 7)]) = .next t ∧ t.dt = 7) ∧
    (∃ t, exec (.ldSTVx 0) (withV minReset [(0, 7)]) = .next t ∧ t.st = 7) ∧
    ∃ t, exec (.call 0) minReset = .next t ∧ t.stack = [0x202] :=
  ⟨next_of_after (by decide), next_of_after (by decide), next_of_after (by decide), next_of_after (by decide),
    next_of_after (by decide)⟩

/-- DiagnosticLogUnobservable: a next state, a fault, a refusal. -/
theorem test_witness_diag : (∃ t, step minReset = .next t) ∧
    step { minReset with run := .stopped } = .fault .coreStopped ∧
    step { minReset with schedule := [.reset [7]] } = .refused (.imageOddLength 1) :=
  ⟨next_of_runs (by decide), rfl, rfl⟩

/-- MinProfileCannotObserveTicks. -/
theorem test_witness_unobserved : ∃ s t : State, s.params.profile = .min ∧ s.InstructionNext ∧
    step s = .next t := by
  obtain ⟨t, ht⟩ := next_of_runs (r := step minReset) (by decide)
  exact ⟨_, t, rfl, ⟨_, nextMove_calm rfl rfl rfl⟩, ht⟩

/-- TimerTick and ClockEdgeDividers: a running core with that move next; each divider at 0 and not. -/
theorem test_witness_tick_edge : ∀ m ∈ [Move.tick (Vector.replicate 16 true) true,
    .tick (Vector.replicate 16 true) false, .clockEdge (Vector.replicate 16 true) true],
    ({ minReset with schedule := [m] } : State).run = .running ∧
    ({ minReset with schedule := [m] } : State).schedule = m :: [] := by simp [minReset, resetParams, State.resetWith]

theorem test_witness_dividers : [((0 : Nat), (0 : Nat)), (0, 9), (99, 0), (99, 9)].map
    (fun d => let s : State := { minReset with tdiv := d.1, idiv := d.2 }
      (decide (s.tdiv = 0), decide (s.idiv = 0))) = [(true, true), (true, false), (false, true), (false, false)] := by
  decide

/-- ClockEdgesSpaceTheSteps. -/
theorem test_witness_edges : minReset.schedule = [] ∧ 0 < minReset.params.tickDiv ∧
    0 < minReset.params.instrDiv ∧ minReset.tdiv = minReset.params.tickDiv - 1 ∧
    minReset.idiv = minReset.params.instrDiv - 1 := by decide

/-- A MIN core that idles at `0x200`, in rounds of one instruction step and one tick. -/
def idling (frames : List Display) (schedule : List Move) : State :=
  { minReset with
    mem := [(0x200, 0x12)], frames := frames, schedule := schedule, rounds := calm }

/-- The tick of that round. -/
def idleTick : Move := .tick (Vector.replicate 16 false) false

theorem idling_instruction (frames : List Display) : step (idling frames []) = .next (idling frames [idleTick]) := by
  have hd : decode .min 0x1200 = .instr (.jp 0x200) := by decide
  have hf (s : State) (hp : s.pc = 0x200) (hm : s.mem = [(0x200, 0x12)]) : fetch s = .ok 0x1200 := by
    simp only [fetch, memRead, hp, hm]; decide
  have hn := nextMove_calm (s := idling frames []) rfl rfl rfl
  rw [step, agentStep, hn.1]
  simp only [runningStep, hn.2, runMove, instructionStep]
  rw [hf _ rfl rfl]
  show (match decode .min 0x1200 with
    | .instr i => exec i (idling frames [idleTick])
    | .unimplemented w => unimplemented w (idling frames [idleTick])) = _
  rw [hd]
  rfl

theorem idling_tick (frames : List Display) :
    step (idling frames [idleTick]) = .next (idling (frames ++ [blankDisplay]) []) := rfl

/-- ClocksNeverCease: an unbounded run, with two states to a round. -/
theorem test_witness_unbounded_run : ∃ run : Nat → State, UnboundedRun run := by
  refine ⟨fun n => idling (List.replicate (n / 2) blankDisplay) (if n % 2 = 0 then [] else [idleTick]), fun n => ?_⟩
  rcases Nat.mod_two_eq_zero_or_one n with h | h
  · have h1 : (n + 1) % 2 = 1 := by omega
    have h2 : (n + 1) / 2 = n / 2 := by omega
    simpa only [h, h1, h2, if_true, Nat.one_ne_zero, if_false] using idling_instruction _
  · have h1 : (n + 1) % 2 = 0 := by omega
    have h2 : (n + 1) / 2 = n / 2 + 1 := by omega
    simpa only [h, h1, h2, if_true, Nat.one_ne_zero, if_false, List.replicate_succ'] using idling_tick _

/-- ClocksNeverCease: a running core without a reset request to come, on which a quit request is held. -/
theorem test_witness_quit_held : ∃ s : State, s.run = .running ∧ (∀ image, .reset image ∉ s.schedule) ∧ s.QuitHeld :=
  ⟨{ minReset with
      schedule := [.clockEdge (Vector.replicate 16 false) true]
      rounds := .same ⟨[.tick (Vector.replicate 16 false) true], [.instruction], Vector.replicate 16 false, true⟩ },
    rfl, by simp, by simp [State.QuitHeld, Rounds.nth, Move.ofRound, Move.afterInstruction, Move.ofBeat, Move.quitHeld]⟩

/-- SettledProgramStaysSettled: `1FFE` at the last address, two steps, one of them a tick that quits. -/
theorem test_witness_settled : ∃ s t : State, s.SettledAt 0xFFE ∧ (∀ image, .reset image ∉ s.schedule) ∧
    Reaches 2 s t := by
  obtain ⟨u, t, hu, ht⟩ := two_of_runs (f := step) (r := step { withMem minReset 0xFFE [0x1F, 0xFE] with
    pc := 0xFFE, schedule := [.instruction, .tick (Vector.replicate 16 true) true] }) (by decide)
  exact ⟨_, t, ⟨rfl, by decide, by decide, by decide⟩, by simp, u, hu, t, ht, rfl⟩

end Sys2Proof.Tests
end

section
/-! What each instruction whose meaning branches can answer, and from that: every instruction answers a next state. -/

namespace Sys2Proof.Machine

/-- The two ends of an instruction whose statements may raise (60_exceptions.md R266, R267): the fault is taken from the
state reached, or the program counter is updated there. -/
theorem conclude_cases (op : Word) (next : State → State) (r : Except (State × Raise) State) :
    (∃ t f, r = .error (t, f) ∧ conclude op next r = .next (t.takeFault (some op) f)) ∨
      ∃ t, r = .ok t ∧ conclude op next r = .next (next t) := by
  rcases r with ⟨t, f⟩ | t
  · exact .inl ⟨t, f, rfl, rfl⟩
  · exact .inr ⟨t, rfl, rfl⟩

/-- The two outcomes of `2nnn` (47_ext_flow_alu.md R201). -/
theorem execCall_cases (nnn : Addr12) (s : State) :
    (s.stack.length < 16 ∧
      execCall nnn s = .next (State.setPc { s with stack := s.stack ++ [s.pc + 2] } (zext16 nnn))) ∨
    (16 ≤ s.stack.length ∧
      execCall nnn s = .next (s.takeFault (some (encode (.call nnn))) ⟨.stackOverflow, s.pc.toNat⟩)) := by
  unfold execCall
  rcases stackPush_cases s (s.pc + 2) with ⟨h, e⟩ | ⟨h, e⟩ <;> rw [e]
  · exact .inl ⟨h, rfl⟩
  · exact .inr ⟨h, rfl⟩

/-- The two outcomes of `00EE` (47_ext_flow_alu.md R202). -/
theorem execRet_cases (s : State) :
    (s.stack = [] ∧ execRet s = .next (s.takeFault (some (encode .ret)) ⟨.stackUnderflow, s.pc.toNat⟩)) ∨
      ∃ rest a, s.stack = rest ++ [a] ∧ execRet s = .next (State.setPc { s with stack := rest } a) := by
  unfold execRet
  rcases stackPop_cases s with ⟨h, e⟩ | ⟨rest, a, h, e⟩ <;> rw [e]
  · exact .inl ⟨h, rfl⟩
  · exact .inr ⟨rest, a, h, rfl⟩

/-- The two outcomes of `Fx0A` (48_ext_mem_key_timer.md R233): the least latched key is taken, or nothing happens. -/
theorem execLdVxK_cases (x : RegIdx) (s : State) :
    (∃ k, s.leastKey = some k ∧ execLdVxK x s = .next (s.setV x (BitVec.ofNat 8 k)).advance) ∨
      (s.leastKey = none ∧ execLdVxK x s = .next s) := by
  unfold execLdVxK
  rcases h : s.leastKey with _ | k
  · exact .inr ⟨rfl, rfl⟩
  · exact .inl ⟨k, rfl, rfl⟩

/-- Whether its statements raise or not, an instruction that ends in `conclude` answers a next state. -/
theorem conclude_answers_next (op : Word) (next : State → State) (r : Except (State × Raise) State) :
    ∃ t, conclude op next r = .next t := by
  rcases conclude_cases op next r with ⟨_, _, _, h⟩ | ⟨_, _, h⟩ <;> exact ⟨_, h⟩

/-- Settles O47: the four instructions that may raise a bounds fault take it in `conclude`, call and return take theirs
themselves, `Fx0A` waits in the same state, and every other meaning is a next state as it stands. -/
theorem everyInstructionAnswersNext : Obligations.EveryInstructionAnswersNext := by
  intro i s
  cases i with
  | drw _ _ _ | ldBVx _ | storeRegs _ | loadRegs _ => exact conclude_answers_next _ _ _
  | call nnn => rcases execCall_cases nnn s with ⟨_, h⟩ | ⟨_, h⟩ <;> exact ⟨_, h⟩
  | ret => rcases execRet_cases s with ⟨_, h⟩ | ⟨_, _, _, h⟩ <;> exact ⟨_, h⟩
  | ldVxK x => rcases execLdVxK_cases x s with ⟨_, _, h⟩ | ⟨_, h⟩ <;> exact ⟨_, h⟩
  | cls | jp _ | ldImm _ _ | addImm _ _ | ldI _ | seImm _ _ | sneImm _ _ | seReg _ _ | sneReg _ _ | jpV0 _
  | ldReg _ _ | orReg _ _ | andReg _ _ | xorReg _ _ | addReg _ _ | subReg _ _ | shrReg _ _ | subnReg _ _
  | shlReg _ _ | rnd _ _ | skp _ | sknp _ | ldVxDT _ | ldDTVx _ | ldSTVx _ | addIVx _ | ldFVx _ =>
    exact ⟨_, rfl⟩

end Sys2Proof.Machine
end

section
/-! What an instruction may write, said once for all 34 (10_state.md R20 to R45), and how it ends
(60_exceptions.md R265, R266). -/

namespace Sys2Proof.Machine

/-! ### The instructions that may raise a bounds fault -/

/-- The two outcomes of `Dxyn` (44_draw_sprite.md R150, R155). -/
theorem execDrw_cases (x y : RegIdx) (n : Nibble) (s : State) :
    (∃ u a, DrawFrame (s.setV regF 0) u ∧
      execDrw x y n s = .next (u.takeFault (some (encode (.drw x y n))) ⟨.boundsFault, a⟩)) ∨
    ∃ u, DrawFrame (s.setV regF 0) u ∧ execDrw x y n s = .next u.advance := by
  have fr := drawRows_frame (startColumn (s.getV x)) (startRow (s.getV y)) (List.range n.toNat) (s.setV regF 0)
  unfold execDrw
  rcases conclude_cases (encode (.drw x y n)) State.advance _ with ⟨u, ⟨c, a⟩, hr, e⟩ | ⟨u, hr, e⟩
  · obtain rfl : c = .boundsFault := drawRows_cause hr
    exact .inl ⟨u, a, fr.2 u _ hr, e⟩
  · exact .inr ⟨u, fr.1 u hr, e⟩

/-- The two outcomes of an instruction that stores bytes (48_ext_mem_key_timer.md R238, R239). -/
theorem conclude_storeBytes_cases (op : Word) (next : State → State) (k : Nat) (bs : List Byte) (s : State) :
    ∃ m, (s.mem.wf = true → m.wf = true) ∧
      ((∃ a, conclude op next (storeBytes k bs s) =
        .next (State.takeFault { s with mem := m } (some op) ⟨.boundsFault, a⟩)) ∨
      conclude op next (storeBytes k bs s) = .next (next { s with mem := m })) := by
  rcases storeBytes_cases k bs s with ⟨m, e, hw⟩ | ⟨m, a, e, hw⟩ <;> rw [e]
  · exact ⟨m, hw, .inr rfl⟩
  · exact ⟨m, hw, .inl ⟨a, rfl⟩⟩

/-- The two outcomes of `Fx33` (48_ext_mem_key_timer.md R238). -/
theorem execLdBVx_cases (x : RegIdx) (s : State) :
    ∃ m, (s.mem.wf = true → m.wf = true) ∧
      ((∃ a, execLdBVx x s =
        .next (State.takeFault { s with mem := m } (some (encode (.ldBVx x))) ⟨.boundsFault, a⟩)) ∨
      execLdBVx x s = .next (State.advance { s with mem := m })) :=
  conclude_storeBytes_cases _ _ _ _ _

/-- The two outcomes of `Fx55` (48_ext_mem_key_timer.md R239). -/
theorem execStoreRegs_cases (x : RegIdx) (s : State) :
    ∃ m, (s.mem.wf = true → m.wf = true) ∧
      ((∃ a, execStoreRegs x s =
        .next (State.takeFault { s with mem := m } (some (encode (.storeRegs x))) ⟨.boundsFault, a⟩)) ∨
      execStoreRegs x s = .next (State.advanceI { s with mem := m } x).advance) :=
  conclude_storeBytes_cases _ _ _ _ _

/-- The two outcomes of `Fx65` (48_ext_mem_key_timer.md R240). -/
theorem execLoadRegs_cases (x : RegIdx) (s : State) :
    ∃ v, (∃ a, execLoadRegs x s =
        .next (State.takeFault { s with v := v } (some (encode (.loadRegs x))) ⟨.boundsFault, a⟩)) ∨
      execLoadRegs x s = .next (State.advanceI { s with v := v } x).advance := by
  have fr := loadBytes_frame (List.range (x.toNat + 1)) s
  unfold execLoadRegs
  rcases conclude_cases (encode (.loadRegs x)) (fun t => (t.advanceI x).advance) _ with
    ⟨u, ⟨c, a⟩, hr, e⟩ | ⟨u, hr, e⟩
  · obtain rfl : c = .boundsFault := loadBytes_cause hr
    rw [fr.2 u _ hr] at e
    exact ⟨u.v, .inl ⟨a, e⟩⟩
  · rw [fr.1 u hr] at e
    exact ⟨u.v, .inr e⟩

/-! ### What an instruction may write -/

/-- What `i` may have written when it leads from `s` to `t`, but for the registers, `pc`, the draws, `RUN` and `FAULT`:
the pieces of state no instruction writes, then each other piece with the instructions that write it. -/
structure ExecWrites (i : Instr) (s t : State) : Prop where
  params : t.params = s.params
  keys : t.keys = s.keys
  frames : t.frames = s.frames
  diag : t.diag = s.diag
  tdiv : t.tdiv = s.tdiv
  idiv : t.idiv = s.idiv
  schedule : t.schedule = s.schedule
  rounds : t.rounds = s.rounds
  dt : t.dt = s.dt ∨ ∃ x, i = .ldDTVx x
  st : t.st = s.st ∨ ∃ x, i = .ldSTVx x
  stack : t.stack = s.stack ∨ (i = .ret ∧ ∃ a, s.stack = t.stack ++ [a]) ∨
    ∃ nnn, i = .call nnn ∧ s.stack.length < 16 ∧ t.stack = s.stack ++ [s.pc + 2]
  disp : t.disp = s.disp ∨ i = .cls ∨ ∃ x y n, i = .drw x y n
  mem : t.mem = s.mem ∨ (∃ x, i = .ldBVx x ∨ i = .storeRegs x) ∧ (s.mem.wf = true → t.mem.wf = true)
  idx : t.i = s.i ∨ (∃ nnn, i = .ldI nnn ∧ t.i = zext16 nnn) ∨
    ∃ x, i = .addIVx x ∨ i = .ldFVx x ∨ i = .storeRegs x ∨ i = .loadRegs x

namespace ExecWrites

variable {i : Instr} {s t : State}

theorem refl (i : Instr) (s : State) : ExecWrites i s s :=
  ⟨rfl, rfl, rfl, rfl, rfl, rfl, rfl, rfl, .inl rfl, .inl rfl, .inl rfl, .inl rfl, .inl rfl, .inl rfl⟩

theorem advance (h : ExecWrites i s t) : ExecWrites i s t.advance := { h with }

theorem takeFault (h : ExecWrites i s t) (op : Option Word) (f : Raise) : ExecWrites i s (t.takeFault op f) :=
  { h with }

theorem logicFlag (h : ExecWrites i s t) : ExecWrites i s t.logicFlag := by
  unfold State.logicFlag
  split <;> exact { h with }

theorem advanceI {x : RegIdx} (h : ExecWrites i s t) (hi : i = .storeRegs x ∨ i = .loadRegs x) :
    ExecWrites i s (t.advanceI x) := by
  unfold State.advanceI
  split
  · exact { h with idx := .inr (.inr ⟨x, .inr (.inr hi)⟩) }
  · exact h

/-- A state reached by drawing. -/
theorem of_drawFrame {x y : RegIdx} {n : Nibble} (h : DrawFrame (s.setV regF 0) t) : ExecWrites (.drw x y n) s t :=
  { params := h.params, keys := h.keys, frames := h.frames, diag := h.diag, tdiv := h.tdiv, idiv := h.idiv,
    schedule := h.schedule, rounds := h.rounds, dt := .inl h.dt, st := .inl h.st, stack := .inl h.stack,
    disp := .inr (.inr ⟨x, y, n, rfl⟩), mem := .inl h.mem, idx := .inl h.i }

end ExecWrites

/-- Every instruction keeps to the writers of each piece of state. -/
theorem exec_writes {i : Instr} {s t : State} (h : exec i s = .next t) : ExecWrites i s t := by
  have keep := ExecWrites.refl i s
  cases i with
  | cls => cases h; exact { keep with disp := .inr (.inl rfl) }
  | ldI nnn => cases h; exact { keep with idx := .inr (.inl ⟨nnn, rfl, rfl⟩) }
  | addIVx x => cases h; exact { keep with idx := .inr (.inr ⟨x, .inl rfl⟩) }
  | ldFVx x => cases h; exact { keep with idx := .inr (.inr ⟨x, .inr (.inl rfl)⟩) }
  | ldDTVx x => cases h; exact { keep with dt := .inr ⟨x, rfl⟩ }
  | ldSTVx x => cases h; exact { keep with st := .inr ⟨x, rfl⟩ }
  | drw x y n =>
    rcases execDrw_cases x y n s with ⟨u, a, hu, e⟩ | ⟨u, hu, e⟩ <;> cases e.symm.trans h
    · exact (ExecWrites.of_drawFrame hu).takeFault _ _
    · exact (ExecWrites.of_drawFrame hu).advance
  | ldBVx x =>
    obtain ⟨m, hw, he⟩ := execLdBVx_cases x s
    have stored : ExecWrites (.ldBVx x) s { s with mem := m } := { keep with mem := .inr ⟨⟨x, .inl rfl⟩, hw⟩ }
    obtain ⟨a, e⟩ | e := he <;> cases e.symm.trans h
    · exact stored.takeFault _ _
    · exact stored.advance
  | storeRegs x =>
    obtain ⟨m, hw, he⟩ := execStoreRegs_cases x s
    have stored : ExecWrites (.storeRegs x) s { s with mem := m } := { keep with mem := .inr ⟨⟨x, .inr rfl⟩, hw⟩ }
    obtain ⟨a, e⟩ | e := he <;> cases e.symm.trans h
    · exact stored.takeFault _ _
    · exact (stored.advanceI (.inl rfl)).advance
  | loadRegs x =>
    obtain ⟨v, he⟩ := execLoadRegs_cases x s
    have loaded : ExecWrites (.loadRegs x) s { s with v := v } := { keep with }
    obtain ⟨a, e⟩ | e := he <;> cases e.symm.trans h
    · exact loaded.takeFault _ _
    · exact (loaded.advanceI (.inr rfl)).advance
  | call nnn =>
    rcases execCall_cases nnn s with ⟨hlt, e⟩ | ⟨-, e⟩ <;> cases e.symm.trans h
    · exact { keep with stack := .inr (.inr ⟨nnn, rfl, hlt, rfl⟩) }
    · exact keep.takeFault _ _
  | ret =>
    rcases execRet_cases s with ⟨-, e⟩ | ⟨rest, a, hs, e⟩ <;> cases e.symm.trans h
    · exact keep.takeFault _ _
    · exact { keep with stack := .inr (.inl ⟨rfl, a, hs⟩) }
  | ldVxK x =>
    rcases execLdVxK_cases x s with ⟨_, -, e⟩ | ⟨-, e⟩ <;> cases e.symm.trans h
    · exact { keep with }
    · exact keep
  | orReg _ _ | andReg _ _ | xorReg _ _ =>
    cases h
    exact .advance (.logicFlag { keep with })
  | jp _ | ldImm _ _ | addImm _ _ | seImm _ _ | sneImm _ _ | seReg _ _ | sneReg _ _ | jpV0 _ | ldReg _ _ | addReg _ _
  | subReg _ _ | shrReg _ _ | subnReg _ _ | shlReg _ _ | rnd _ _ | skp _ | sknp _ | ldVxDT _ =>
    cases h
    exact { keep with }

/-! ### How an instruction ends -/

/-- The table of 60_exceptions.md R265: the instructions that may raise a fault of this cause. -/
def MayRaise (i : Instr) : FaultCause → Prop
  | .none => False
  | .boundsFault => (∃ x y n, i = .drw x y n) ∨ ∃ x, i = .ldBVx x ∨ i = .storeRegs x ∨ i = .loadRegs x
  | .stackUnderflow => i = .ret
  | .stackOverflow => ∃ nnn, i = .call nnn

/-- From `s` to `t`, `i` either leaves `RUN` and `FAULT` alone or enters FAULTED by a fault it may raise. -/
def KeepsOrFaults (i : Instr) (s t : State) : Prop :=
  (t.run = s.run ∧ t.fault = s.fault) ∨
    ∃ cause addr, MayRaise i cause ∧ FaultedWith s t cause addr (some (encode i))

/-- Every instruction ends in one of the two ways. -/
theorem exec_keepsOrFaults {i : Instr} {s t : State} (h : exec i s = .next t) : KeepsOrFaults i s t := by
  cases i with
  | drw x y n =>
    rcases execDrw_cases x y n s with ⟨u, a, hu, e⟩ | ⟨u, hu, e⟩ <;> cases e.symm.trans h
    · exact .inr ⟨.boundsFault, a, .inl ⟨x, y, n, rfl⟩, rfl, by simp [hu.pc], hu.pc⟩
    · exact .inl ⟨hu.run, hu.fault⟩
  | ldBVx x =>
    obtain ⟨m, -, ⟨a, e⟩ | e⟩ := execLdBVx_cases x s <;> cases e.symm.trans h
    · exact .inr ⟨.boundsFault, a, .inr ⟨x, .inl rfl⟩, rfl, rfl, rfl⟩
    · exact .inl ⟨rfl, rfl⟩
  | storeRegs x =>
    obtain ⟨m, -, ⟨a, e⟩ | e⟩ := execStoreRegs_cases x s <;> cases e.symm.trans h
    · exact .inr ⟨.boundsFault, a, .inr ⟨x, .inr (.inl rfl)⟩, rfl, rfl, rfl⟩
    · exact .inl ⟨by simp, by simp⟩
  | loadRegs x =>
    obtain ⟨v, ⟨a, e⟩ | e⟩ := execLoadRegs_cases x s <;> cases e.symm.trans h
    · exact .inr ⟨.boundsFault, a, .inr ⟨x, .inr (.inr rfl)⟩, rfl, rfl, rfl⟩
    · exact .inl ⟨by simp, by simp⟩
  | call nnn =>
    rcases execCall_cases nnn s with ⟨-, e⟩ | ⟨-, e⟩ <;> cases e.symm.trans h
    · exact .inl ⟨rfl, rfl⟩
    · exact .inr ⟨.stackOverflow, _, ⟨nnn, rfl⟩, rfl, rfl, rfl⟩
  | ret =>
    rcases execRet_cases s with ⟨-, e⟩ | ⟨_, _, -, e⟩ <;> cases e.symm.trans h
    · exact .inr ⟨.stackUnderflow, _, rfl, rfl, rfl, rfl⟩
    · exact .inl ⟨rfl, rfl⟩
  | ldVxK x =>
    rcases execLdVxK_cases x s with ⟨_, -, e⟩ | ⟨-, e⟩ <;> cases e.symm.trans h <;>
    exact .inl ⟨rfl, rfl⟩
  | orReg _ _ | andReg _ _ | xorReg _ _ =>
    cases h
    exact .inl ⟨by simp, by simp⟩
  | cls | jp _ | ldImm _ _ | addImm _ _ | ldI _ | seImm _ _ | sneImm _ _ | seReg _ _ | sneReg _ _ | jpV0 _
  | ldReg _ _ | addReg _ _ | subReg _ _ | shrReg _ _ | subnReg _ _ | shlReg _ _ | rnd _ _ | skp _ | sknp _
  | ldVxDT _ | ldDTVx _ | ldSTVx _ | addIVx _ | ldFVx _ =>
    cases h
    exact .inl ⟨rfl, rfl⟩

end Sys2Proof.Machine
end

section
/-! The writers of the display, of the timers and of the stack (10_state.md R25 to R31, R43). -/

namespace Sys2Proof.Machine

/-- Settles O51: both halves are read off the writers of the display, of memory and of `I`. -/
theorem displayWriters : Obligations.DisplayWriters := by
  intro i s t h
  have w := exec_writes h
  constructor
  · rintro ⟨px, py, hne⟩
    exact w.disp.resolve_left fun e => hne (State.pixel_congr e px py)
  · rintro ⟨x, y, n, rfl⟩
    have hi : t.i = s.i := by simpa using w.idx
    have hm : t.mem = s.mem := by simpa using w.mem
    exact ⟨hi, fun a => by rw [hm]⟩

/-- Settles O53, field by field from the writers of each. -/
theorem timerStackAndLatchWriters : Obligations.TimerStackAndLatchWriters := by
  intro i s t h
  have w := exec_writes h
  refine ⟨w.dt.resolve_left, w.st.resolve_left, fun hne => ?_, w.keys, w.frames, w.diag, w.tdiv, w.idiv, w.params,
    w.schedule, w.rounds⟩
  rcases w.stack with e | ⟨hret, -⟩ | ⟨nnn, hcall, -⟩
  · exact absurd e hne
  · exact .inl hret
  · exact .inr ⟨nnn, hcall⟩

end Sys2Proof.Machine
end

section
/-! The reset state meets the invariants (10_state.md R44), and a halted core steps only to it (10_state.md R34). -/

namespace Sys2Proof.Machine

section
variable (p : Params) (m : Mem) (draws : Nat) (moves : List Move) (rounds : Rounds)

theorem inv_resetWith (hm : m.wf = true) : (State.resetWith p m draws moves rounds).Inv :=
  ⟨hm, Nat.zero_le _, by simp [State.resetWith, FaultRecord.clear]⟩

theorem pcInRange_resetWith : (State.resetWith p m draws moves rounds).PcInRange :=
  ⟨by simp [State.resetWith], by simp [State.resetWith]⟩

theorem minInv_resetWith (hp : p.profile = .min) : (State.resetWith p m draws moves rounds).MinInv :=
  ⟨hp, by simp [State.resetWith], by simp [State.resetWith], rfl, rfl, rfl, nofun, nofun⟩

/-- Well-formed rates make both divisors positive (50_clock_and_timers.md R174, R175). -/
theorem divisors_pos (hp : p.wf = true) : 0 < p.tickDiv ∧ 0 < p.instrDiv := by
  simp only [Params.wf, decide_eq_true_eq] at hp
  obtain ⟨hclk, htick, hips, hinstr, -⟩ := hp
  exact ⟨Nat.div_pos (Nat.le_of_dvd hclk (Nat.dvd_of_mod_eq_zero htick)) (by decide),
    Nat.div_pos (Nat.le_of_dvd hclk (Nat.dvd_of_mod_eq_zero hinstr)) hips⟩

theorem dividersInRange_resetWith (hp : p.wf = true) : (State.resetWith p m draws moves rounds).DividersInRange :=
  have ⟨htick, hinstr⟩ := divisors_pos p hp
  ⟨hp, Nat.sub_one_lt_of_lt htick, Nat.sub_one_lt_of_lt hinstr⟩

end

/-- Settles O13: State.reset is a reset with well-formed parameters of `PROFILE = MIN`. -/
theorem invariantsHoldAtReset : Obligations.InvariantsHoldAtReset :=
  ⟨⟨inv_resetWith _ _ _ _ _ rfl, pcInRange_resetWith _ _ _ _ _, dividersInRange_resetWith _ _ _ _ _ rfl,
      minInv_resetWith _ _ _ _ _ rfl⟩,
    fun p m draws moves rounds hm =>
      ⟨inv_resetWith p m draws moves rounds hm, pcInRange_resetWith p m draws moves rounds,
      dividersInRange_resetWith p m draws moves rounds, minInv_resetWith p m draws moves rounds⟩⟩

/-- Outside the font region an unlisted byte reads as 0 (10_state.md R32, R33). -/
theorem resetByte_of_not_font {a : Nat} (h : a < 0x050 ∨ 0x0A0 ≤ a) : resetByte a = 0 := by
  unfold resetByte Config.fontBase
  exact if_neg (by omega)

/-- Settles O10: State.reset has an empty memory list, so its bytes are those of an unlisted address. -/
theorem resetStateValues : Obligations.ResetStateValues := by
  refine ⟨?_, rfl, rfl, rfl, rfl, rfl, ?_, ?_, rfl, rfl, rfl, rfl, rfl, rfl, rfl, rfl, fun a => resetByte_of_not_font⟩
  · intro r; simp [State.reset, State.resetWith, State.getV]
  · intro px py; simp [State.reset, State.resetWith, State.pixel]
  · intro k; simp [State.reset, State.resetWith, State.key]

/-- A halted core with a next state has answered a reset request of its schedule (10_state.md R34). -/
theorem step_next_of_halted {s t : State} (hr : s.run ≠ .running) (h : step s = .next t) :
    ∃ image rest, .reset image ∈ s.schedule ∧ resetRequest image { s with schedule := rest } = .next t := by
  rcases step_next_cases h with ⟨u, hn, -⟩ | ⟨_, _, u, hn, -⟩ | ⟨_, _, u, hn, -⟩ | hreset
  · exact absurd hn.1 hr
  · exact absurd hn.1 hr
  · exact absurd hn.1 hr
  · exact hreset

/-- Settles O50: the moves of the agents are passed over, so only a reset request is left to answer. -/
theorem noStepWhenHalted : Obligations.NoStepWhenHalted := by
  constructor
  · intro s hno
    have passed (why : Fault) : haltedStep why s s.schedule = .fault why := haltedStep_no_reset hno
    exact ⟨fun hr => by simp [step, agentStep, hr, passed], fun hr => by simp [step, agentStep, hr, passed]⟩
  · intro s t hr h
    obtain ⟨image, rest, hmem, hq⟩ := step_next_of_halted hr h
    obtain ⟨hlen, heven, rfl⟩ := resetRequest_next.mp hq
    exact ⟨image, rest, hmem, hlen, heven, rfl⟩

end Sys2Proof.Machine
end

section
/-! The invariant of every profile along every step (10_state.md R27, R34, R35). -/

namespace Sys2Proof.Machine

/-- Taking a move gives the same state with other moves to come. -/
theorem State.NextMove.eq_with {s u : State} {m : Move} (h : s.NextMove m u) :
    ∃ ms rs, u = { s with schedule := ms, rounds := rs } := by
  rcases h.cases with ⟨rest, -, rfl⟩ | ⟨rest, -, -, rfl⟩
  · exact ⟨rest, s.rounds, rfl⟩
  · exact ⟨rest, s.rounds.next, rfl⟩

/-- Memory after an instruction is canonical if it was (10_state.md R32). -/
theorem ExecWrites.mem_wf {i : Instr} {s t : State} (w : ExecWrites i s t) (h : s.mem.wf = true) : t.mem.wf = true := by
  rcases w.mem with e | ⟨-, keep⟩
  · rw [e]; exact h
  · exact keep h

/-- The stack stays within its 16 entries (10_state.md R27). -/
theorem ExecWrites.stack_le {i : Instr} {s t : State} (w : ExecWrites i s t) (h : s.stack.length ≤ 16) :
    t.stack.length ≤ 16 := by
  rcases w.stack with e | ⟨-, a, e⟩ | ⟨nnn, -, hlt, e⟩
  · rw [e]; exact h
  · rw [e, List.length_append, List.length_singleton] at h; omega
  · rw [e, List.length_append, List.length_singleton]; omega

theorem MayRaise.ne_none {i : Instr} {c : FaultCause} (h : MayRaise i c) : c ≠ .none := by
  rintro rfl; exact h

/-- `RUN` and `FAULT` agree after an instruction if they did (10_state.md R35). -/
theorem KeepsOrFaults.faulted_iff {i : Instr} {s t : State} (h : KeepsOrFaults i s t)
    (hs : s.run = .faulted ↔ s.fault.cause ≠ .none) : t.run = .faulted ↔ t.fault.cause ≠ .none := by
  rcases h with ⟨hrun, hfault⟩ | ⟨c, a, hc, hrun, hfault, -⟩
  · rw [hrun, hfault]; exact hs
  · simp [hrun, hfault, hc.ne_none]

theorem exec_keeps_inv {i : Instr} {s t : State} (hs : s.Inv) (h : exec i s = .next t) : t.Inv := by
  obtain ⟨hwf, hstack, hfault⟩ := hs
  have w := exec_writes h
  exact ⟨w.mem_wf hwf, w.stack_le hstack, (exec_keepsOrFaults h).faulted_iff hfault⟩

theorem instructionStep_keeps_inv {s t : State} (h : instructionStep s = .next t) (hs : s.Inv) : t.Inv := by
  rcases instructionStep_next_cases h with ⟨-, a, rfl⟩ | ⟨-, i, -, hexec⟩ | ⟨-, op, -, rfl⟩
  · obtain ⟨hwf, hstack, -⟩ := hs
    exact ⟨hwf, hstack, by simp⟩
  · exact exec_keeps_inv hs hexec
  · exact hs

/-- A tick stops a running core or leaves it running, and FAULT holds no cause in either. -/
theorem timerTick_keeps_inv (k : Keys) (q : Bool) {s : State} (hs : s.Inv) (hr : s.run = .running) :
    (timerTick k q s).Inv := by
  obtain ⟨hwf, hstack, hfault⟩ := hs
  refine ⟨hwf, hstack, ?_⟩
  cases q <;> simpa [timerTick, hr] using hfault

/-- Settles O14: each of the four kinds of step keeps the invariant. -/
theorem everyStepKeepsInvariant : Obligations.EveryStepKeepsInvariant := by
  intro s t hs h
  rcases step_next_cases h with ⟨u, hn, hi⟩ | ⟨k, q, u, hn, rfl⟩ | ⟨k, q, u, hn, rfl⟩ | ⟨image, rest, -, hq⟩
  · obtain ⟨ms, rs, rfl⟩ := hn.eq_with
    exact instructionStep_keeps_inv hi hs
  · obtain ⟨ms, rs, rfl⟩ := hn.eq_with
    exact timerTick_keeps_inv k q hs hn.1
  · obtain ⟨ms, rs, rfl⟩ := hn.eq_with
    exact hs
  · obtain ⟨hlen, -, rfl⟩ := resetRequest_next.mp hq
    exact inv_resetWith _ _ _ _ _ (resetMem_wf _ hlen)

end Sys2Proof.Machine
end

section
/-! What `PROFILE = MIN` adds: its six instructions, its invariant, and that nothing but a reset writes memory. -/

namespace Sys2Proof

/-- Every row of the map builds an instruction of the row's profile (30_encoding.md R95, R99). -/
theorem Row.build_profile {r : Row} (hr : r ∈ opcodeTable) (f : Fields) : (r.build f).profile = r.profile := by
  revert r
  simp [opcodeTable, minRows, flowAluRows, memKeyTimerRows, Instr.profile]

/-- What decodes under `PROFILE = MIN` is one of its six instructions. -/
theorem profile_of_decode_min {op : Word} {i : Instr} (h : decode .min op = .instr i) : i.profile = .min := by
  obtain ⟨r, hr, hs, rfl⟩ := row_of_decode h
  rw [Row.build_profile hr]
  simp only [Row.selects, Profile.has, Bool.and_eq_true, decide_eq_true_eq, reduceCtorEq, or_false] at hs
  exact hs.1

end Sys2Proof

namespace Sys2Proof.Machine

section
variable {i : Instr} {s t : State}

/-- An instruction of `PROFILE = MIN` writes no timer, no stack entry and no memory (10_state.md R28, R32;
20_memory.md R68; 50_clock_and_timers.md R181). -/
theorem ExecWrites.of_min (w : ExecWrites i s t) (hp : i.profile = .min) :
    t.dt = s.dt ∧ t.st = s.st ∧ t.stack = s.stack ∧ t.mem = s.mem := by
  refine ⟨w.dt.resolve_right ?_, w.st.resolve_right ?_, w.stack.resolve_right ?_, w.mem.resolve_right ?_⟩
  · rintro ⟨x, rfl⟩; cases hp
  · rintro ⟨x, rfl⟩; cases hp
  · rintro (⟨rfl, -⟩ | ⟨nnn, rfl, -⟩) <;> cases hp
  · rintro ⟨⟨x, rfl | rfl⟩, -⟩ <;> cases hp

theorem zext16_le (nnn : Addr12) : (zext16 nnn).toNat ≤ 0xFFF := by
  have := nnn.isLt
  simp only [zext16, BitVec.truncate_eq_setWidth, BitVec.toNat_setWidth]
  omega

/-- The only value `PROFILE = MIN` loads into `I` is an `nnn` (10_state.md R22). -/
theorem ExecWrites.i_le_of_min (w : ExecWrites i s t) (hp : i.profile = .min) (hi : s.i.toNat ≤ 0xFFF) :
    t.i.toNat ≤ 0xFFF := by
  rcases w.idx with e | ⟨nnn, -, e⟩ | ⟨x, rfl | rfl | rfl | rfl⟩
  · rw [e]; exact hi
  · rw [e]; exact zext16_le nnn
  all_goals cases hp

/-- `PROFILE = MIN` raises no fault but a bounds fault (60_exceptions.md R262, R263). -/
theorem MayRaise.of_min {c : FaultCause} (h : MayRaise i c) (hp : i.profile = .min) : c = .boundsFault := by
  cases c with
  | none => exact h.elim
  | boundsFault => rfl
  | stackUnderflow => cases h; cases hp
  | stackOverflow => obtain ⟨nnn, rfl⟩ := h; cases hp

/-- Where an instruction of `PROFILE = MIN` leads (10_state.md R24): a fault keeps `pc`, `1nnn` jumps, the rest add 2
to it. -/
theorem exec_min_pc (hp : i.profile = .min) (h : exec i s = .next t) :
    t.pc = s.pc ∨ t.pc = s.pc + 2 ∨ ∃ nnn, t.pc = zext16 nnn := by
  cases i with
  | jp nnn => cases h; exact .inr (.inr ⟨nnn, rfl⟩)
  | drw x y n =>
    rcases execDrw_cases x y n s with ⟨u, a, hu, e⟩ | ⟨u, hu, e⟩ <;> cases e.symm.trans h
    · exact .inl hu.pc
    · exact .inr (.inl (congrArg (· + 2) hu.pc))
  | cls | ldImm _ _ | addImm _ _ | ldI _ => cases h; exact .inr (.inl rfl)
  | _ => cases hp

/-- An instruction that could be fetched keeps the invariant of `PROFILE = MIN`. -/
theorem exec_keeps_minInv (hs : s.MinInv) (hpc : s.pc.toNat ≤ 0xFFE) (hp : i.profile = .min)
    (h : exec i s = .next t) : t.MinInv := by
  obtain ⟨hprof, hi, -, hstack, hdt, hst, hunder, hover⟩ := hs
  have w := exec_writes h
  obtain ⟨wdt, wst, wstack, -⟩ := w.of_min hp
  have pc_le : t.pc.toNat ≤ 0x1000 := by
    rcases exec_min_pc hp h with e | e | ⟨nnn, e⟩ <;> rw [e]
    · omega
    · bv_omega
    · exact (zext16_le nnn).trans (by decide)
  have cause_ok : t.fault.cause ≠ .stackUnderflow ∧ t.fault.cause ≠ .stackOverflow := by
    rcases exec_keepsOrFaults h with ⟨-, e⟩ | ⟨c, a, hc, -, e, -⟩ <;> rw [e]
    · exact ⟨hunder, hover⟩
    · rw [hc.of_min hp]; exact ⟨nofun, nofun⟩
  exact ⟨by rw [w.params, hprof], w.i_le_of_min hp hi, pc_le, wstack.trans hstack, wdt.trans hdt, wst.trans hst,
    cause_ok⟩

theorem instructionStep_keeps_minInv (h : instructionStep s = .next t) (hs : s.MinInv) : t.MinInv := by
  rcases instructionStep_next_cases h with ⟨-, a, rfl⟩ | ⟨hpc, i, hd, hexec⟩ | ⟨hpc, op, -, rfl⟩
  · obtain ⟨hprof, hi, hpc, hstack, hdt, hst, -⟩ := hs
    exact ⟨hprof, hi, hpc, hstack, hdt, hst, nofun, nofun⟩
  · rw [hs.1] at hd
    exact exec_keeps_minInv hs hpc (profile_of_decode_min hd) hexec
  · obtain ⟨hprof, hi, -, hrest⟩ := hs
    exact ⟨hprof, hi, by simp only [State.advance_pc, State.report_pc]; bv_omega, hrest⟩

/-- Timers at 0 stay there (50_clock_and_timers.md R181). -/
theorem timerTick_keeps_minInv (k : Keys) (q : Bool) (hs : s.MinInv) : (timerTick k q s).MinInv := by
  obtain ⟨hprof, hi, hpc, hstack, hdt, hst, hfault⟩ := hs
  exact ⟨hprof, hi, hpc, hstack, by simp [timerTick, countDown, hdt], by simp [timerTick, countDown, hst], hfault⟩

end

/-- Settles O16: each of the four kinds of step keeps the invariant of `PROFILE = MIN`. -/
theorem everyStepKeepsMinInvariant : Obligations.EveryStepKeepsMinInvariant := by
  intro s t hs h
  rcases step_next_cases h with ⟨u, hn, hi⟩ | ⟨k, q, u, hn, rfl⟩ | ⟨k, q, u, hn, rfl⟩ | ⟨image, rest, -, hq⟩
  · obtain ⟨ms, rs, rfl⟩ := hn.eq_with
    exact instructionStep_keeps_minInv hi hs
  · obtain ⟨ms, rs, rfl⟩ := hn.eq_with
    exact timerTick_keeps_minInv k q hs
  · obtain ⟨ms, rs, rfl⟩ := hn.eq_with
    exact hs
  · obtain ⟨-, -, rfl⟩ := resetRequest_next.mp hq
    exact minInv_resetWith _ _ _ _ _ hs.1

/-- An instruction step under `PROFILE = MIN` leaves memory alone (20_memory.md R68). -/
theorem instructionStep_min_mem {s t : State} (h : instructionStep s = .next t) (hp : s.params.profile = .min) :
    t.mem = s.mem := by
  rcases instructionStep_next_cases h with ⟨-, a, rfl⟩ | ⟨-, i, hd, hexec⟩ | ⟨-, op, -, rfl⟩
  · rfl
  · rw [hp] at hd
    obtain ⟨-, -, -, hmem⟩ := (exec_writes hexec).of_min (profile_of_decode_min hd)
    exact hmem
  · rfl

/-- Settles O17: of the four kinds of step the tick and the clock edge never write memory, the instruction step does not
under `PROFILE = MIN`, and a reset is not to come. -/
theorem minProfileNeverWritesMemory : Obligations.MinProfileNeverWritesMemory := by
  intro s t hp hno h a
  rcases step_next_cases h with ⟨u, hn, hi⟩ | ⟨k, q, u, hn, rfl⟩ | ⟨k, q, u, hn, rfl⟩ | ⟨image, rest, hmem, -⟩
  · obtain ⟨ms, rs, rfl⟩ := hn.eq_with
    rw [instructionStep_min_mem hi hp]
  · obtain ⟨ms, rs, rfl⟩ := hn.eq_with
    rfl
  · obtain ⟨ms, rs, rfl⟩ := hn.eq_with
    rfl
  · exact absurd hmem (hno image)

end Sys2Proof.Machine
end

section
/-! Memory accesses (20_memory.md R61 to R74): a write and a read of one byte, a store and the fetch after it, and which
instructions write memory and `I`. -/

namespace Sys2Proof.Machine

/-- A successful `MemWrite` is in bounds and has written its byte (20_memory.md R62). -/
theorem memWrite_eq_ok {s t : State} {a : Nat} {b : Byte} (h : memWrite s a b = .ok t) :
    a ≤ 0xFFF ∧ t = { s with mem := s.mem.write a b } := by
  rcases memWrite_cases s a b with ⟨hle, e⟩ | ⟨-, e⟩ <;> cases e.symm.trans h
  exact ⟨hle, rfl⟩

/-- A memory read sees only the field `mem`. -/
theorem memRead_congr {s t : State} {a : Nat} (h : t.mem.read a = s.mem.read a) : memRead t a = memRead s a := by
  simp only [memRead, h]

/-- Writing one byte of memory changes no other piece of state (20_memory.md R62). -/
theorem changesOnly_mem_write (s : State) (a : Nat) (b : Byte) :
    ChangesOnly (fun q => q = .mem a) s { s with mem := s.mem.write a b } := by
  intro p hp
  cases p with
  | mem c =>
    have hne : c ≠ a := fun e => hp (congrArg Part.mem e)
    exact Mem.read_write_of_ne s.mem hne b
  | _ => rfl

/-- Settles O46: in bounds both accesses go through to the list of bytes, out of bounds both fault. -/
theorem memoryAccessLaws : Obligations.MemoryAccessLaws := by
  intro s a b
  refine ⟨fun hle => ⟨_, memWrite_of_le s hle b, ?_, fun c hne => ?_, changesOnly_mem_write s a b⟩,
    fun hgt => ⟨memRead_of_gt s hgt, memWrite_of_gt s hgt b⟩⟩
  · rw [memRead_of_le _ hle, Mem.read_write_self]
  · exact memRead_congr (Mem.read_write_of_ne s.mem hne b)

/-- Inside memory the fetch gives the word at `pc` (40_step_cycle.md R121). -/
theorem fetch_of_le {s : State} (h : s.pc.toNat ≤ 0xFFE) : fetch s = .ok (s.wordAt s.pc.toNat) := by
  rcases fetch_cases s with ⟨-, e⟩ | ⟨hpc, -⟩ | ⟨hpc, -⟩
  · exact e
  all_goals omega

/-- Settles O4: the fetch reads the memory the store left, with no copy in between (20_memory.md R74). -/
theorem storeSeenByNextFetch : Obligations.StoreSeenByNextFetch := by
  intro s t a b h hpc
  obtain ⟨-, rfl⟩ := memWrite_eq_ok h
  refine Eq.trans (fetch_of_le hpc) ?_
  simp only [State.wordAt, wordOfBytes, Mem.read_write]

/-- Settles O52: both halves are read off the writers of memory and of `I`. -/
theorem memoryAndIndexWriters : Obligations.MemoryAndIndexWriters := by
  intro i s t h
  have w := exec_writes h
  constructor
  · rintro ⟨a, hne⟩
    obtain ⟨hwriter, -⟩ := w.mem.resolve_left fun e => hne (by rw [e])
    exact hwriter
  · intro hne
    rcases w.idx with e | ⟨nnn, hld, -⟩ | hothers
    · exact absurd e hne
    · exact .inl ⟨nnn, hld⟩
    · exact .inr hothers

end Sys2Proof.Machine
end

section
/-! The words of the opcode map (30_encoding.md R91 to R99): every word is in each format with its own fields, every
instruction has its row, and so decoding and encoding are inverse to each other. -/

namespace Sys2Proof

/-! ### A word is made of its fields (30_encoding.md R91, R93) -/

theorem formatNNN_fieldsOf (op : Word) : formatNNN (fieldsOf op).n1 (fieldsOf op).nnn = op :=
  BitVec.extractLsb'_append_extractLsb'

theorem formatXNN_fieldsOf (op : Word) : formatXNN (fieldsOf op).n1 (fieldsOf op).x (fieldsOf op).nn = op := by
  have hn1x : op.extractLsb' 12 4 ++ op.extractLsb' 8 4 = op.extractLsb' 8 8 :=
    BitVec.extractLsb'_append_extractLsb'_eq_extractLsb' rfl
  simp only [formatXNN, fieldsOf, hn1x]
  exact BitVec.extractLsb'_append_extractLsb'

theorem formatXYN_fieldsOf (op : Word) :
    formatXYN (fieldsOf op).n1 (fieldsOf op).x (fieldsOf op).y (fieldsOf op).n = op := by
  have hn1x : op.extractLsb' 12 4 ++ op.extractLsb' 8 4 = op.extractLsb' 8 8 :=
    BitVec.extractLsb'_append_extractLsb'_eq_extractLsb' rfl
  have hn1xy : op.extractLsb' 8 8 ++ op.extractLsb' 4 4 = op.extractLsb' 4 12 :=
    BitVec.extractLsb'_append_extractLsb'_eq_extractLsb' rfl
  simp only [formatXYN, fieldsOf, hn1x, hn1xy]
  exact BitVec.extractLsb'_append_extractLsb'

/-! ### What matching a row's mask fixes (30_encoding.md R95) -/

theorem bitVec_append_inj {m n : Nat} {a b : BitVec m} {c d : BitVec n} : a ++ c = b ++ d ↔ a = b ∧ c = d := by
  refine ⟨fun h => ?_, fun ⟨hab, hcd⟩ => by rw [hab, hcd]⟩
  have hcd : c = d := by simpa only [BitVec.extractLsb'_append_eq_right] using congrArg (BitVec.extractLsb' 0 n) h
  exact ⟨(BitVec.append_left_inj d).mp (hcd ▸ h), hcd⟩

variable {op : Word} {n1 n : Nibble} {nn : Byte}

/-- A mask of the high nibble fixes it. -/
theorem mask_n1_iff : op &&& 0xF000 = n1 ++ (0 : Addr12) ↔ (fieldsOf op).n1 = n1 := by
  conv_lhs => rw [← formatNNN_fieldsOf op, Laws.TableRow.formatNNN_mask]
  exact BitVec.append_left_inj 0

/-- A mask of the high nibble and the low byte fixes both. -/
theorem mask_n1_nn_iff : op &&& 0xF0FF = n1 ++ (0 : RegIdx) ++ nn ↔ (fieldsOf op).n1 = n1 ∧ (fieldsOf op).nn = nn := by
  conv_lhs => rw [← formatXNN_fieldsOf op, Laws.TableRow.formatXNN_mask_low]
  rw [bitVec_append_inj, BitVec.append_left_inj]

/-- A mask of the high and the low nibble fixes both. -/
theorem mask_n1_n_iff : op &&& 0xF00F = n1 ++ (0 : Byte) ++ n ↔ (fieldsOf op).n1 = n1 ∧ (fieldsOf op).n = n := by
  conv_lhs => rw [← formatXYN_fieldsOf op, Laws.TableRow.formatXYN_mask_low]
  rw [bitVec_append_inj, BitVec.append_left_inj]

/-! ### The word of a format, read off a word that matches its mask -/

theorem formatNNN_of_mask (h : op &&& 0xF000 = n1 ++ (0 : Addr12)) : formatNNN n1 (fieldsOf op).nnn = op := by
  rw [← mask_n1_iff.mp h, formatNNN_fieldsOf]

theorem formatXNN_of_mask (h : op &&& 0xF000 = n1 ++ (0 : Addr12)) :
    formatXNN n1 (fieldsOf op).x (fieldsOf op).nn = op := by
  rw [← mask_n1_iff.mp h, formatXNN_fieldsOf]

theorem formatXYN_of_mask (h : op &&& 0xF000 = n1 ++ (0 : Addr12)) :
    formatXYN n1 (fieldsOf op).x (fieldsOf op).y (fieldsOf op).n = op := by
  rw [← mask_n1_iff.mp h, formatXYN_fieldsOf]

theorem formatXNN_of_mask_low (h : op &&& 0xF0FF = n1 ++ (0 : RegIdx) ++ nn) :
    formatXNN n1 (fieldsOf op).x nn = op := by
  obtain ⟨rfl, rfl⟩ := mask_n1_nn_iff.mp h
  exact formatXNN_fieldsOf op

theorem formatXYN_of_mask_low (h : op &&& 0xF00F = n1 ++ (0 : Byte) ++ n) :
    formatXYN n1 (fieldsOf op).x (fieldsOf op).y n = op := by
  obtain ⟨rfl, rfl⟩ := mask_n1_n_iff.mp h
  exact formatXYN_fieldsOf op

/-! ### The row of an instruction -/

theorem Instr.ctorIdx_lt (i : Instr) : i.ctorIdx < opcodeTable.length := by
  cases i <;> exact Nat.le_of_ble_eq_true rfl

/-- The row of an instruction: the opcode map lists its rows in the order of the constructors. -/
def Instr.row (i : Instr) : Row := opcodeTable[i.ctorIdx]'i.ctorIdx_lt

theorem Instr.row_mem (i : Instr) : i.row ∈ opcodeTable := List.getElem_mem _

/-- An instruction is of its row's profile (30_encoding.md R95, R99). -/
theorem Instr.row_profile (i : Instr) : i.row.profile = i.profile := by cases i <;> rfl

/-- What a row builds has that row. -/
theorem Row.row_build {r : Row} (hr : r ∈ opcodeTable) (f : Fields) : (r.build f).row = r := by
  obtain ⟨k, hk, rfl⟩ := List.getElem_of_mem hr
  change k < 34 at hk
  interval_cases k <;> rfl

/-- A row selects a word when the profile has the row and the word matches it (30_encoding.md R95). -/
theorem Row.selects_iff {p : Profile} {r : Row} :
    r.selects p op = true ↔ p.has r.profile = true ∧ op &&& r.mask = r.pattern := by
  simp only [Row.selects, Bool.and_eq_true, decide_eq_true_eq]

/-! ### Encoding and decoding, by the format of the row (30_encoding.md R93) -/

/-- The word of an instruction matches its row. -/
theorem encode_and_row_mask (i : Instr) : encode i &&& i.row.mask = i.row.pattern := by
  cases i with
  | cls | ret => rfl
  | jp | ldI | call | jpV0 => exact Laws.TableRow.formatNNN_mask _ _
  | ldImm | addImm | seImm | sneImm | rnd => exact Laws.TableRow.formatXNN_mask _ _ _
  | drw => exact Laws.TableRow.formatXYN_mask _ _ _ _
  | seReg | sneReg | ldReg | orReg | andReg | xorReg | addReg | subReg | shrReg | subnReg | shlReg =>
    exact Laws.TableRow.formatXYN_mask_low _ _ _ _
  | skp | sknp | ldVxDT | ldVxK | ldDTVx | ldSTVx | addIVx | ldFVx | ldBVx | storeRegs | loadRegs =>
    exact Laws.TableRow.formatXNN_mask_low _ _ _

/-- The row of an instruction reads its operands back from the fields of its word. -/
theorem row_build_encode (i : Instr) : i.row.build (fieldsOf (encode i)) = i := by
  cases i with
  | cls | ret => rfl
  | jp nnn | ldI nnn | call nnn | jpV0 nnn => exact congrArg _ (fieldsOf_formatNNN _ nnn)
  | ldImm x nn | addImm x nn | seImm x nn | sneImm x nn | rnd x nn =>
    obtain ⟨hx, hnn⟩ := fieldsOf_formatXNN _ x nn
    exact congrArg₂ _ hx hnn
  | drw x y n =>
    obtain ⟨hx, hy, hn⟩ := fieldsOf_formatXYN 0xD x y n
    exact (congrArg₂ (Instr.drw · · _) hx hy).trans (congrArg _ hn)
  | seReg x y | sneReg x y | ldReg x y | orReg x y | andReg x y | xorReg x y | addReg x y | subReg x y | shrReg x y
  | subnReg x y | shlReg x y =>
    obtain ⟨hx, hy, -⟩ := fieldsOf_formatXYN _ x y _
    exact congrArg₂ _ hx hy
  | skp x | sknp x | ldVxDT x | ldVxK x | ldDTVx x | ldSTVx x | addIVx x | ldFVx x | ldBVx x | storeRegs x
  | loadRegs x =>
    obtain ⟨hx, -⟩ := fieldsOf_formatXNN _ x _
    exact congrArg _ hx

/-- A word that matches the row of `i` is the word of what the row builds from the word's fields. -/
theorem encode_row_build {i : Instr} (h : op &&& i.row.mask = i.row.pattern) :
    encode (i.row.build (fieldsOf op)) = op := by
  cases i with
  | cls | ret => exact h.symm.trans BitVec.and_allOnes
  | jp | ldI | call | jpV0 => exact formatNNN_of_mask h
  | ldImm | addImm | seImm | sneImm | rnd => exact formatXNN_of_mask h
  | drw => exact formatXYN_of_mask h
  | seReg | sneReg | ldReg | orReg | andReg | xorReg | addReg | subReg | shrReg | subnReg | shlReg =>
    exact formatXYN_of_mask_low h
  | skp | sknp | ldVxDT | ldVxK | ldDTVx | ldSTVx | addIVx | ldFVx | ldBVx | storeRegs | loadRegs =>
    exact formatXNN_of_mask_low h

end Sys2Proof

namespace Sys2Proof.Machine

/-- Settles O6: the row of an instruction selects its word and reads the operands back. -/
theorem decodeOfEncode : Obligations.DecodeOfEncode := by
  intro p i h
  have hs : i.row.selects p (encode i) = true := Row.selects_iff.mpr ⟨i.row_profile ▸ h, encode_and_row_mask i⟩
  rw [decode_of_row i.row_mem hs, row_build_encode]

/-- Settles O7: the row decoding selected fixes the bits outside the operands and builds an instruction of its own
profile. -/
theorem encodeOfDecode : Obligations.EncodeOfDecode := by
  intro p op i h
  obtain ⟨r, hr, hs, rfl⟩ := row_of_decode h
  obtain ⟨hp, hm⟩ := Row.selects_iff.mp hs
  constructor
  · have he := encode_row_build (op := op) (i := r.build (fieldsOf op))
    rw [Row.row_build hr] at he
    exact he hm
  · rwa [Instr.wf, Row.build_profile hr]

/-- The six rows of `PROFILE = MIN` are the word 00E0 and five high nibbles (30_encoding.md R95). -/
theorem decode_min_unimplemented_iff {op : Word} : decode .min op = .unimplemented op ↔
    op ≠ 0x00E0 ∧ (fieldsOf op).n1 ∉ [0x1#4, 0x6#4, 0x7#4, 0xA#4, 0xD#4] := by
  have hcls : op &&& 0xFFFF#16 = op := BitVec.and_allOnes
  have hjp : op &&& 0xF000#16 = 0x1000#16 ↔ (fieldsOf op).n1 = 0x1#4 := mask_n1_iff (n1 := 0x1#4)
  have hldImm : op &&& 0xF000#16 = 0x6000#16 ↔ (fieldsOf op).n1 = 0x6#4 := mask_n1_iff (n1 := 0x6#4)
  have haddImm : op &&& 0xF000#16 = 0x7000#16 ↔ (fieldsOf op).n1 = 0x7#4 := mask_n1_iff (n1 := 0x7#4)
  have hldI : op &&& 0xF000#16 = 0xA000#16 ↔ (fieldsOf op).n1 = 0xA#4 := mask_n1_iff (n1 := 0xA#4)
  have hdrw : op &&& 0xF000#16 = 0xD000#16 ↔ (fieldsOf op).n1 = 0xD#4 := mask_n1_iff (n1 := 0xD#4)
  rw [decode_unimplemented_iff]
  simp [opcodeTable, minRows, flowAluRows, memKeyTimerRows, Row.selects, Profile.has, hcls, hjp, hldImm, haddImm, hldI,
    hdrw]

/-- Settles O8: the high nibbles left over are the listed ones and 0, of which 00E0 is in use. -/
theorem minUnimplementedWords : Obligations.MinUnimplementedWords := by
  intro op
  have hnibble : ∀ d : Nibble, d ∉ [0x1#4, 0x6#4, 0x7#4, 0xA#4, 0xD#4] ↔ d = 0x0#4 ∨
      d ∈ [0x2#4, 0x3#4, 0x4#4, 0x5#4, 0x8#4, 0x9#4, 0xB#4, 0xC#4, 0xE#4, 0xF#4] := by decide
  have hcls : op.extractLsb' 12 4 ∈ [0x2#4, 0x3#4, 0x4#4, 0x5#4, 0x8#4, 0x9#4, 0xB#4, 0xC#4, 0xE#4, 0xF#4] →
      op ≠ 0x00E0 := by
    rintro h rfl
    revert h
    decide
  rw [decode_min_unimplemented_iff, hnibble]
  change _ ∧ (op.extractLsb' 12 4 = _ ∨ op.extractLsb' 12 4 ∈ _) ↔ _
  tauto

/-- Settles O5: each word is looked up in the opcode map. -/
theorem specWordsDecode : Obligations.SpecWordsDecode := by
  unfold Obligations.SpecWordsDecode
  decide

end Sys2Proof.Machine
end

section
/-! The instruction step (40_step_cycle.md R120 to R124): the decoded instruction is run and nothing else, a fetch outside
memory faults, and no step takes `pc` or a return address out of range. -/

namespace Sys2Proof.Machine

section
variable {i : Instr} {s t : State}

/-! ### Where an instruction leads -/

/-- The values an instruction can leave in `pc` (40_step_cycle.md R124): a fault or the wait for a key keeps it, the next
instruction or the one after a skip follows, and jumps, calls and returns set it. -/
inductive PcTarget (s : State) (a : Word) : Prop
  | keep (h : a = s.pc)
  | next (h : a = s.pc + 2)
  | skip (h : a = s.pc + 4)
  | jump (nnn : Addr12) (h : a = zext16 nnn)
  | indexedJump (nnn : Addr12) (b : Byte) (h : a = BitVec.ofNat 16 (nnn.toNat + b.toNat))
  | popped (h : a ∈ s.stack)

/-- A conditional skip goes on with the next instruction or the one after it (47_ext_flow_alu.md R203). -/
theorem pcTarget_skipIf (s : State) (c : Bool) : PcTarget s (s.skipIf c).pc := by
  cases c
  · exact .next rfl
  · exact .skip rfl

/-- Every instruction leaves one of these values in `pc`. -/
theorem exec_pcTarget (h : exec i s = .next t) : PcTarget s t.pc := by
  cases i with
  | drw x y n =>
    rcases execDrw_cases x y n s with ⟨u, a, hu, e⟩ | ⟨u, hu, e⟩ <;> cases e.symm.trans h
    · exact .keep hu.pc
    · exact .next (congrArg (· + 2) hu.pc)
  | ldBVx x =>
    obtain ⟨m, -, ⟨a, e⟩ | e⟩ := execLdBVx_cases x s <;> cases e.symm.trans h
    · exact .keep rfl
    · exact .next rfl
  | storeRegs x =>
    obtain ⟨m, -, ⟨a, e⟩ | e⟩ := execStoreRegs_cases x s <;> cases e.symm.trans h
    · exact .keep rfl
    · exact .next (by simp)
  | loadRegs x =>
    obtain ⟨v, ⟨a, e⟩ | e⟩ := execLoadRegs_cases x s <;> cases e.symm.trans h
    · exact .keep rfl
    · exact .next (by simp)
  | call nnn =>
    rcases execCall_cases nnn s with ⟨-, e⟩ | ⟨-, e⟩ <;> cases e.symm.trans h
    · exact .jump nnn rfl
    · exact .keep rfl
  | ret =>
    rcases execRet_cases s with ⟨-, e⟩ | ⟨rest, a, hs, e⟩ <;> cases e.symm.trans h
    · exact .keep rfl
    · exact .popped (by simp [hs])
  | ldVxK x =>
    rcases execLdVxK_cases x s with ⟨k, -, e⟩ | ⟨-, e⟩ <;> cases e.symm.trans h
    · exact .next rfl
    · exact .keep rfl
  | jp nnn => cases h; exact .jump nnn rfl
  | jpV0 nnn => cases h; exact .indexedJump nnn (s.getV 0) rfl
  | seImm _ _ | sneImm _ _ | seReg _ _ | sneReg _ _ | skp _ | sknp _ => cases h; exact pcTarget_skipIf s _
  | orReg _ _ | andReg _ _ | xorReg _ _ => cases h; exact .next (by simp)
  | cls | ldImm _ _ | addImm _ _ | ldI _ | ldReg _ _ | addReg _ _ | subReg _ _ | shrReg _ _ | subnReg _ _ | shlReg _ _
  | rnd _ _ | ldVxDT _ | ldDTVx _ | ldSTVx _ | addIVx _ | ldFVx _ =>
    cases h
    exact .next rfl

/-! ### The bounds on `pc` and the return addresses -/

/-- The highest target is that of `Bnnn` with `nnn = 0xFFF` and `V0 = 0xFF` (47_ext_flow_alu.md R216). -/
theorem PcTarget.le {a : Word} (h : PcTarget s a) (hs : s.PcInRange) (hpc : s.pc.toNat ≤ 0xFFE) :
    a.toNat ≤ 0x10FE := by
  cases h with
  | keep h => rw [h]; exact hs.1
  | next h => rw [h]; bv_omega
  | skip h => rw [h]; bv_omega
  | jump nnn h => rw [h]; exact (zext16_le nnn).trans (by decide)
  | indexedJump nnn b h =>
    rw [h, BitVec.toNat_ofNat]
    have := nnn.isLt
    have := b.isLt
    omega
  | popped h => exact (hs.2 a h).trans (by decide)

/-- The only address an instruction stacks is the one after a call that could be fetched (47_ext_flow_alu.md R201). -/
theorem ExecWrites.stack_entry_le (w : ExecWrites i s t) (hs : s.PcInRange) (hpc : s.pc.toNat ≤ 0xFFE) :
    ∀ a ∈ t.stack, a.toNat ≤ 0x1000 := by
  obtain ⟨-, hold⟩ := hs
  intro a ha
  rcases w.stack with e | ⟨-, b, e⟩ | ⟨nnn, -, -, e⟩
  · rw [e] at ha
    exact hold a ha
  · exact hold a (by rw [e]; exact List.mem_append_left _ ha)
  · rw [e, List.mem_append, List.mem_singleton] at ha
    rcases ha with ha | rfl
    · exact hold a ha
    · bv_omega

theorem instructionStep_keeps_pcInRange (h : instructionStep s = .next t) (hs : s.PcInRange) : t.PcInRange := by
  rcases instructionStep_next_cases h with ⟨-, a, rfl⟩ | ⟨hpc, i, -, hexec⟩ | ⟨hpc, op, -, rfl⟩
  · exact hs
  · exact ⟨(exec_pcTarget hexec).le hs hpc, (exec_writes hexec).stack_entry_le hs hpc⟩
  · exact ⟨(PcTarget.next rfl).le hs hpc, hs.2⟩

/-! ### What an instruction step answers -/

/-- Outside memory the fetch faults at the first address past its end that it reads (40_step_cycle.md R121). -/
theorem fetch_of_ge (h : 0xFFF ≤ s.pc.toNat) :
    fetch s = .error ⟨.boundsFault, if s.pc.toNat = 0xFFF then 0x1000 else s.pc.toNat⟩ := by
  rcases fetch_cases s with ⟨hpc, -⟩ | ⟨hpc, e⟩ | ⟨hpc, e⟩
  · omega
  · rw [e, if_pos hpc]
  · rw [e, if_neg (by omega)]

theorem instructionStep_of_fetch_error {f : Raise} (h : fetch s = .error f) :
    instructionStep s = .next (s.takeFault none f) := by
  simp only [instructionStep, h]

theorem instructionStep_of_decode (hpc : s.pc.toNat ≤ 0xFFE)
    (hd : decode s.params.profile (s.wordAt s.pc.toNat) = .instr i) : instructionStep s = exec i s := by
  simp only [instructionStep, fetch_of_le hpc, hd]

/-- A fault taken after a move changes `RUN`, `FAULT` and the moves to come (60_exceptions.md R266). -/
theorem changesOnly_takeFault (s : State) (ms : List Move) (rs : Rounds) (op : Option Word) (f : Raise) :
    ChangesOnly (fun q => q = .run ∨ q = .fault ∨ q = .schedule ∨ q = .rounds) s
      (State.takeFault { s with schedule := ms, rounds := rs } op f) := by
  intro p hp
  cases p with
  | run | fault | schedule | rounds => simp at hp
  | _ => rfl

end

/-- Settles O15: an instruction is fetched at `pc` up to 0xFFE, and from there no target of it is above 0x10FE and no
return address above 0x1000; ticks and clock edges touch neither, and a reset starts in range. -/
theorem everyStepKeepsPcInRange : Obligations.EveryStepKeepsPcInRange := by
  intro s t hs h
  rcases step_next_cases h with ⟨u, hn, hi⟩ | ⟨k, q, u, hn, rfl⟩ | ⟨k, q, u, hn, rfl⟩ | ⟨image, rest, -, hq⟩
  · obtain ⟨ms, rs, rfl⟩ := hn.eq_with
    exact instructionStep_keeps_pcInRange hi hs
  · obtain ⟨ms, rs, rfl⟩ := hn.eq_with
    exact hs
  · obtain ⟨ms, rs, rfl⟩ := hn.eq_with
    exact hs
  · obtain ⟨-, -, rfl⟩ := resetRequest_next.mp hq
    exact pcInRange_resetWith _ _ _ _ _

/-- Settles O3: the instruction step takes the fault of the fetch, and the move taken changes only the moves to come. -/
theorem fetchFaultRecord : Obligations.FetchFaultRecord := by
  refine ⟨fun s hpc => fetch_of_le hpc, fun s u hn hpc => ?_⟩
  have hstep : step s = instructionStep u := step_of_nextMove hn
  obtain ⟨ms, rs, rfl⟩ := hn.eq_with
  exact ⟨_, hstep.trans (instructionStep_of_fetch_error (fetch_of_ge hpc)), ⟨rfl, rfl, rfl⟩, rfl, rfl,
    changesOnly_takeFault s ms rs none _⟩

/-- Settles O1: the move taken leaves `pc`, memory and the profile alone, so the fetch and the decoder see those of the
state before it. -/
theorem stepRunsDecodedInstruction : Obligations.StepRunsDecodedInstruction := by
  intro s u i hn hpc hd
  have hstep : step s = instructionStep u := step_of_nextMove hn
  obtain ⟨ms, rs, rfl⟩ := hn.eq_with
  exact ⟨hstep.trans (instructionStep_of_decode hpc hd), rfl⟩

end Sys2Proof.Machine
end

section
/-! `00E0` (41_clear_display.md R130): the one word of CLS, and what clearing the display leaves unchanged. -/

namespace Sys2Proof.Machine

/-- Under a profile that has an instruction, the word the encoder gives for it is the only one that decodes to it
(30_encoding.md R93, R95, R99). -/
theorem decode_eq_instr_iff {p : Profile} {op : Word} {i : Instr} :
    decode p op = .instr i ↔ i.wf p = true ∧ op = encode i := by
  constructor
  · intro h
    obtain ⟨he, hwf⟩ := encodeOfDecode p op i h
    exact ⟨hwf, he.symm⟩
  · rintro ⟨hwf, rfl⟩
    exact decodeOfEncode p i hwf

/-- Going on to the next instruction adds `pc` to what may have changed (40_step_cycle.md R124). -/
theorem ChangesOnly.advance {may : Part → Prop} {s t : State} (h : ChangesOnly may s t) :
    ChangesOnly (fun q => q = .pc ∨ may q) s t.advance := by
  intro p hp
  have hsame : p.Same s t := h p fun hm => hp (.inr hm)
  cases p with
  | pc => exact absurd (.inl rfl) hp
  | _ => exact hsame

/-- Clearing the display changes pixels only (41_clear_display.md R130). -/
theorem changesOnly_clearDisplay (s : State) :
    ChangesOnly (fun q => ∃ px py, q = .pixel px py) s s.clearDisplay := by
  intro p hp
  cases p with
  | pixel px py => exact absurd ⟨px, py, rfl⟩ hp
  | _ => rfl

/-- Settles O19: both profiles have CLS, whose word is 00E0, and CLS is the clearing of the display followed by the
advance of `pc`. -/
theorem clearDisplay : Obligations.ClearDisplay := by
  refine ⟨fun p op => ?_, fun s => ?_⟩
  · have hwf : Instr.cls.wf p = true := by cases p <;> rfl
    exact decode_eq_instr_iff.trans (and_iff_right hwf)
  · exact ⟨s.clearDisplay.advance, rfl, s.pixel_clearDisplay, rfl, (changesOnly_clearDisplay s).advance⟩

end Sys2Proof.Machine
end

section
/-! `1nnn` (42_jump.md R135): the words of JP, and what setting `pc` leaves unchanged. -/

namespace Sys2Proof.Machine

/-- Every profile has the instructions of `PROFILE = MIN` (30_encoding.md R95, R99). -/
theorem profile_has_min (p : Profile) : p.has .min = true := by cases p <;> rfl

/-- Under a profile that has a row of the opcode map, every word that matches the row decodes to what the row builds
(30_encoding.md R95, R99). -/
theorem rowDecodes_of_mem {p : Profile} {r : Row} (hr : r ∈ opcodeTable) (hp : p.has r.profile = true) :
    RowDecodes p r.pattern r.mask fun op => r.build (fieldsOf op) :=
  fun _ hm => decode_of_row hr (Row.selects_iff.mpr ⟨hp, hm⟩)

/-- Zero-extension keeps the number an address is (42_jump.md R135). -/
@[simp] theorem toNat_zext16 (nnn : Addr12) : (zext16 nnn).toNat = nnn.toNat :=
  BitVec.toNat_setWidth_of_le (by decide)

/-- Setting `pc` changes `pc` only: not the call stack, nor any other state (42_jump.md R135). -/
theorem changesOnly_setPc (s : State) (a : Word) : ChangesOnly (fun q => q = .pc) s (s.setPc a) := by
  intro p hp
  cases p with
  | pc => exact absurd rfl hp
  | _ => rfl

/-- Settles O20: JP has its row in both profiles, and it is the setting of `pc` to the zero-extended operand with no
advance. -/
theorem jumpSetsPcExactly : Obligations.JumpSetsPcExactly := by
  refine ⟨fun p => ?_, fun s nnn => ?_⟩
  · exact rowDecodes_of_mem (Instr.jp 0).row_mem (profile_has_min p)
  · exact ⟨s.setPc (zext16 nnn), rfl, toNat_zext16 nnn, changesOnly_setPc s (zext16 nnn)⟩

end Sys2Proof.Machine
end

section
/-! `6xnn`, `7xnn` and `Annn` (43_load_add_immediate.md R140 to R142): what a write to a register or to `I` leaves
unchanged. -/

namespace Sys2Proof.Machine

/-- A frame that admits more changes holds as well. -/
theorem ChangesOnly.mono {may may' : Part → Prop} {s t : State} (h : ChangesOnly may s t)
    (hsub : ∀ q, may q → may' q) : ChangesOnly may' s t :=
  fun p hp => h p fun hm => hp (hsub p hm)

/-- `ChangesOnly.advance` with the instruction's own changes named first, as its statement names them. -/
theorem ChangesOnly.then_advance {may : Part → Prop} {s t : State} (h : ChangesOnly may s t) :
    ChangesOnly (fun q => may q ∨ q = .pc) s t.advance :=
  h.advance.mono fun _ => Or.symm

/-- Writing `V[x]` changes no other register, `VF` included, and no other state (43_load_add_immediate.md R140). -/
theorem changesOnly_setV (s : State) (x : RegIdx) (b : Byte) : ChangesOnly (fun q => q = .v x) s (s.setV x b) := by
  intro p hp
  cases p with
  | v r =>
    have hne : r ≠ x := fun e => hp (congrArg Part.v e)
    exact s.getV_setV_of_ne hne b
  | _ => rfl

/-- Writing `I` changes `I` only (43_load_add_immediate.md R142). -/
theorem changesOnly_setI (s : State) (a : Word) : ChangesOnly (fun q => q = .i) s (s.setI a) := by
  intro p hp
  cases p with
  | i => exact absurd rfl hp
  | _ => rfl

/-- Settles O21: the load has its row in both profiles, and it is the writing of `V[x]` followed by the advance of
`pc`. -/
theorem loadImmediate : Obligations.LoadImmediate := by
  refine ⟨fun p => ?_, fun s x nn => ?_⟩
  · exact rowDecodes_of_mem (Instr.ldImm 0 0).row_mem (profile_has_min p)
  · exact ⟨(s.setV x nn).advance, rfl, s.getV_setV_self x nn, rfl, (changesOnly_setV s x nn).then_advance⟩

/-- Settles O22: the byte written is the sum of two bytes, which is the sum of their numbers modulo 256, and no flag is
written after it. -/
theorem addImmediateWraps : Obligations.AddImmediateWraps := by
  refine ⟨fun p => ?_, fun s x nn => ?_⟩
  · exact rowDecodes_of_mem (Instr.addImm 0 0).row_mem (profile_has_min p)
  · have hsum : ((s.setV x (s.getV x + nn)).advance.getV x).toNat = ((s.getV x).toNat + nn.toNat) % 256 := by
      rw [State.getV_advance, State.getV_setV_self, BitVec.toNat_add]
    exact ⟨(s.setV x (s.getV x + nn)).advance, rfl, hsum, rfl, (changesOnly_setV s x _).then_advance⟩

/-- Settles O23: zero-extending the operand keeps its number, and every operand is written, whatever it points at. -/
theorem loadIndex : Obligations.LoadIndex := by
  refine ⟨fun p => ?_, fun s nnn => ?_⟩
  · exact rowDecodes_of_mem (Instr.ldI 0).row_mem (profile_has_min p)
  · exact ⟨(s.setI (zext16 nnn)).advance, rfl, toNat_zext16 nnn, rfl, (changesOnly_setI s _).then_advance⟩

end Sys2Proof.Machine
end

section
/-! `Dxyn` (44_draw_sprite.md R150 to R156): what the rows inside memory draw, the fault at the first row outside it,
and the same sprite drawn twice. -/

namespace Sys2Proof.Machine

/-! ### What `Dxyn` draws -/

/-- The targets of a sprite are given by `I` and memory alone. -/
theorem SpriteHits.congr {s t : State} (hm : t.mem = s.mem) (hi : t.i = s.i) {x0 y0 k : Nat} {qx : Fin 64}
    {qy : Fin 32} : SpriteHits t x0 y0 k qx qy ↔ SpriteHits s x0 y0 k qx qy := by
  simp only [SpriteHits, hm, hi]

/-- The rows the drawing loop runs over are those of the sprite. -/
theorem rowsHit_range_iff {s : State} {x0 y0 k : Nat} {qx : Fin 64} {qy : Fin 32} :
    RowsHit s x0 y0 (List.range k) qx qy ↔ SpriteHits s x0 y0 k qx qy := by
  simp only [RowsHit, SpriteHits, List.mem_range, spriteBit, State.indexed, wrapColumn, wrapRow, Fin.ext_iff,
    Fin.val_ofNat]
  constructor
  · rintro ⟨r, hr, c, hc, hit⟩; exact ⟨r, c, hr, hc, hit⟩
  · rintro ⟨r, c, hr, hc, hit⟩; exact ⟨r, hr, c, hc, hit⟩

/-- With `VF` cleared first, the first `k` rows of a sprite are drawn when they lie inside memory. -/
theorem drawRows_range_drawn (s : State) (x0 y0 : Nat) {k : Nat} (hk : k ≤ 32) (hin : ∀ r < k, s.indexed r ≤ 0xFFF) :
    ∃ u, drawRows x0 y0 (List.range k) (s.setV regF 0) = .ok u ∧ DrawFrame (s.setV regF 0) u ∧
      DrawnRows s u x0 y0 k := by
  obtain ⟨u, hu, hhit, hmiss, hcollide, hclear⟩ := drawRows_ok x0 y0 (List.range k) (s.setV regF 0)
    (rows_nodup y0 k hk) (fun r hr => hin r (List.mem_range.mp hr))
  have hpixel : ∀ qx qy, (s.setV regF 0).pixel qx qy = s.pixel qx qy := State.pixel_congr rfl
  have htargets : ∀ qx qy, RowsHit (s.setV regF 0) x0 y0 (List.range k) qx qy ↔ SpriteHits s x0 y0 k qx qy :=
    fun qx qy => rowsHit_range_iff.trans (SpriteHits.congr rfl rfl)
  simp only [htargets, hpixel, State.getV_setV_self] at hhit hmiss hcollide hclear
  exact ⟨u, hu, (drawRows_frame _ _ _ _).1 u hu, hhit, hmiss, hcollide, hclear⟩

/-- Drawing changes `VF` and the sprite's targets only (44_draw_sprite.md R150, R157). -/
theorem DrawnRows.changesOnly {s u : State} {x0 y0 k : Nat} (h : DrawnRows s u x0 y0 k)
    (fr : DrawFrame (s.setV regF 0) u) :
    ChangesOnly (fun q => q = .v 15 ∨ ∃ px py, q = .pixel px py ∧ SpriteHits s x0 y0 k px py) s u := by
  obtain ⟨-, hmiss, -⟩ := h
  intro p hp
  cases p with
  | v r =>
    have hne : r ≠ regF := fun e => hp (.inl (congrArg Part.v e))
    exact (fr.regs r hne).trans (s.getV_setV_of_ne hne 0)
  | pixel px py => exact hmiss px py fun hit => hp (.inr ⟨px, py, rfl, hit⟩)
  | _ => rw [fr.rest]; rfl

/-! ### Every row inside memory -/

/-- `Dxyn` with no row outside memory draws all its rows and goes on with the next instruction. -/
theorem exec_drw_inside (s : State) (x y : RegIdx) (n : Nibble) (hin : n = 0 ∨ s.i.toNat + n.toNat ≤ 0x1000) :
    ∃ u, exec (.drw x y n) s = .next u.advance ∧ DrawFrame (s.setV regF 0) u ∧
      DrawnRows s u (startColumn (s.getV x)) (startRow (s.getV y)) n.toNat := by
  have hrows : ∀ r < n.toNat, s.indexed r ≤ 0xFFF := by
    intro r hr
    rcases hin with rfl | hin
    · exact absurd hr (Nat.not_lt_zero r)
    · unfold State.indexed; omega
  obtain ⟨u, hu, fr, hdrawn⟩ := drawRows_range_drawn s (startColumn (s.getV x)) (startRow (s.getV y))
    (n.isLt.le.trans (by decide)) hrows
  exact ⟨u, congrArg (conclude (encode (.drw x y n)) State.advance) hu, fr, hdrawn⟩

/-- Settles O24: both profiles have the row of DRW, no two columns of a row and no two rows share a target, and `VF`,
cleared after the coordinates are read, is set by the targets that were on. -/
theorem drawSprite : Obligations.DrawSprite := by
  refine ⟨fun p => ?_, fun s x y n hin => ?_⟩
  · exact rowDecodes_of_mem (Instr.drw 0 0 0).row_mem (profile_has_min p)
  · obtain ⟨u, hexec, fr, hdrawn⟩ := exec_drw_inside s x y n hin
    exact ⟨u.advance, hexec, hdrawn, congrArg (· + 2) fr.pc, (hdrawn.changesOnly fr).advance⟩

/-! ### A row outside memory -/

/-- Entering a fault adds `RUN` and `FAULT` to what may have changed (60_exceptions.md R266). -/
theorem ChangesOnly.takeFault {may : Part → Prop} {s t : State} (h : ChangesOnly may s t) (op : Option Word)
    (f : Raise) : ChangesOnly (fun q => q = .run ∨ q = .fault ∨ may q) s (t.takeFault op f) := by
  intro p hp
  have hsame : p.Same s t := h p fun hm => hp (.inr (.inr hm))
  cases p with
  | run => exact absurd (.inl rfl) hp
  | fault => exact absurd (.inr (.inl rfl)) hp
  | _ => exact hsame

/-- The indices below `n` are those below `k`, then `k`, then others. -/
theorem range_eq_append_cons {k n : Nat} (h : k < n) : ∃ ss, List.range n = List.range k ++ k :: ss := by
  obtain ⟨m, rfl⟩ := Nat.exists_eq_add_of_lt h
  exact ⟨_, by rw [Nat.add_assoc, List.range_add, List.range_succ_eq_map, List.map_cons, Nat.add_zero]⟩

/-- `Dxyn` with row `k` the first one outside memory draws the rows before it and faults at its address. -/
theorem exec_drw_outside (s : State) (x y : RegIdx) {n : Nibble} {k : Nat} (hk : k < n.toNat)
    (hin : ∀ r < k, s.indexed r ≤ 0xFFF) (hout : 0xFFF < s.indexed k) :
    ∃ u, exec (.drw x y n) s = .next (u.takeFault (some (encode (.drw x y n))) ⟨.boundsFault, s.indexed k⟩) ∧
      DrawFrame (s.setV regF 0) u ∧ DrawnRows s u (startColumn (s.getV x)) (startRow (s.getV y)) k := by
  obtain ⟨u, hu, fr, hdrawn⟩ := drawRows_range_drawn s (startColumn (s.getV x)) (startRow (s.getV y))
    ((hk.trans n.isLt).le.trans (by decide)) hin
  obtain ⟨ss, hss⟩ := range_eq_append_cons hk
  have herr := drawRows_error _ _ _ ss k _ u hu hout
  rw [← hss] at herr
  exact ⟨u, congrArg (conclude (encode (.drw x y n)) State.advance) herr, fr, hdrawn⟩

/-- Settles O25: the first row outside memory is row `0x1000 - I`, which is row 0 when `I` is itself outside, and its
address is the greater of `0x1000` and `I`. -/
theorem drawBoundsFault : Obligations.DrawBoundsFault := by
  intro s x y n p op hd hn hout
  obtain ⟨-, rfl⟩ := decode_eq_instr_iff.mp hd
  have hpos : 0 < n.toNat := Nat.pos_of_ne_zero fun h => hn (BitVec.eq_of_toNat_eq h)
  have haddr : s.indexed (0x1000 - s.i.toNat) = max 0x1000 s.i.toNat := by unfold State.indexed; omega
  obtain ⟨u, hexec, fr, hdrawn⟩ := exec_drw_outside s x y (n := n) (k := 0x1000 - s.i.toNat) (by omega)
    (fun r hr => by unfold State.indexed; omega) (by omega)
  rw [haddr] at hexec
  have hrecord : FaultedWith s (u.takeFault (some (encode (.drw x y n))) ⟨.boundsFault, max 0x1000 s.i.toNat⟩)
      .boundsFault (max 0x1000 s.i.toNat) (some (encode (.drw x y n))) := ⟨rfl, by simp [fr.pc], fr.pc⟩
  exact ⟨_, hexec, hrecord, hdrawn, (hdrawn.changesOnly fr).takeFault _ _⟩

/-! ### The same sprite twice -/

section
variable {s t u : State} {x0 y0 k : Nat}

/-- Inverting the same targets twice gives back every pixel (44_draw_sprite.md R156). -/
theorem DrawnRows.pixel_twice (hst : DrawnRows s t x0 y0 k) (htu : DrawnRows t u x0 y0 k)
    (hsame : ∀ qx qy, SpriteHits t x0 y0 k qx qy ↔ SpriteHits s x0 y0 k qx qy) (px : Fin 64) (py : Fin 32) :
    u.pixel px py = s.pixel px py := by
  obtain ⟨hit₁, miss₁, -⟩ := hst
  obtain ⟨hit₂, miss₂, -⟩ := htu
  by_cases h : SpriteHits s x0 y0 k px py
  · rw [hit₂ px py ((hsame px py).mpr h), hit₁ px py h, Bool.not_not]
  · rw [miss₂ px py (mt (hsame px py).mp h), miss₁ px py h]

/-- The second draw finds on the targets that were off before the first (44_draw_sprite.md R154, R156). -/
theorem DrawnRows.collides_again_iff (hst : DrawnRows s t x0 y0 k)
    (hsame : ∀ qx qy, SpriteHits t x0 y0 k qx qy ↔ SpriteHits s x0 y0 k qx qy) :
    (∃ qx qy, SpriteHits t x0 y0 k qx qy ∧ t.pixel qx qy = true) ↔
      ∃ qx qy, SpriteHits s x0 y0 k qx qy ∧ s.pixel qx qy = false := by
  obtain ⟨hit, -⟩ := hst
  refine exists_congr fun qx => exists_congr fun qy => ?_
  rw [hsame qx qy]
  exact and_congr_right fun h => by rw [hit qx qy h, Bool.not_eq_true']

end

/-- Settles O26: the first draw leaves `I`, memory and the coordinate registers alone, so the second has the same
targets. -/
theorem drawTwiceRestoresDisplay : Obligations.DrawTwiceRestoresDisplay := by
  intro s t u x y n hx hy hin hst htu
  obtain ⟨t', ht, frt, hdrawn₁⟩ := exec_drw_inside s x y n hin
  cases ht.symm.trans hst
  obtain ⟨u', hu, -, hdrawn₂⟩ := exec_drw_inside t'.advance x y n (by simpa [frt.i] using hin)
  cases hu.symm.trans htu
  have hreg : ∀ r, r ≠ regF → t'.advance.getV r = s.getV r := fun r hr =>
    (frt.regs r hr).trans (s.getV_setV_of_ne hr 0)
  rw [hreg x hx, hreg y hy] at hdrawn₂
  have hsame : ∀ qx qy, SpriteHits t'.advance (startColumn (s.getV x)) (startRow (s.getV y)) n.toNat qx qy ↔
      SpriteHits s (startColumn (s.getV x)) (startRow (s.getV y)) n.toNat qx qy :=
    fun _ _ => SpriteHits.congr frt.mem frt.i
  have hagain := DrawnRows.collides_again_iff (t := t'.advance) hdrawn₁ hsame
  have hpixel : ∀ px py, u'.pixel px py = s.pixel px py := DrawnRows.pixel_twice hdrawn₁ hdrawn₂ hsame
  obtain ⟨-, -, hset, hclear⟩ := hdrawn₂
  exact ⟨hpixel, fun h => hset (hagain.mpr h), fun h => hclear (mt hagain.mp h)⟩

end Sys2Proof.Machine
end

section
/-! The diagnostic log (10_state.md R40, 45_unimplemented.md R162): every step reads the rest of the state only. -/

namespace Sys2Proof.Machine

/-! ### A change of state that a loop or an instruction does not see -/

/-- `f` on the state in which a loop that may raise ends, by a raise or not. -/
def mapEnd (f : State → State) : Except (State × Raise) State → Except (State × Raise) State
  | .error (t, r) => .error (f t, r)
  | .ok t => .ok (f t)

/-- `f` on the next state of an answer; a fault and a refusal stay. -/
def mapNext (f : State → State) : Result → Result
  | .next t => .next (f t)
  | .fault r => .fault r
  | .refused r => .refused r

section
variable {f : State → State}

/-- The end of an instruction commutes with `f` when the entry into a fault and the update of `pc` do. -/
theorem conclude_map (hfault : ∀ t op r, State.takeFault (f t) op r = f (t.takeFault op r)) {next : State → State}
    (hnext : ∀ t, next (f t) = f (next t)) {op : Word} {e e' : Except (State × Raise) State} (he : e' = mapEnd f e) :
    conclude op next e' = mapNext f (conclude op next e) := by
  subst he
  rcases e with ⟨t, r⟩ | t
  · exact congrArg Host.Outcome.next (hfault t (some op) r)
  · exact congrArg Host.Outcome.next (hnext t)

theorem drawColumns_map (hdraw : ∀ t px py, State.drawPixel (f t) px py = f (t.drawPixel px py)) (byte : Byte)
    (x0 : Nat) (py : Fin 32) (cs : List Nat) (s : State) :
    drawColumns byte x0 py cs (f s) = f (drawColumns byte x0 py cs s) := by
  induction cs generalizing s with
  | nil => rfl
  | cons c cs ih =>
    unfold drawColumns
    split
    · rw [hdraw, ih]
    · exact ih s

/-- Drawing rows commutes with `f` when `f` leaves memory and `I` alone and drawing one pixel commutes with it. -/
theorem drawRows_map (hmem : ∀ t, (f t).mem = t.mem) (hi : ∀ t, (f t).i = t.i)
    (hdraw : ∀ t px py, State.drawPixel (f t) px py = f (t.drawPixel px py)) (x0 y0 : Nat) (rs : List Nat)
    (s : State) : drawRows x0 y0 rs (f s) = mapEnd f (drawRows x0 y0 rs s) := by
  induction rs generalizing s with
  | nil => rfl
  | cons r rs ih =>
    have hindexed : (f s).indexed r = s.indexed r := congrArg (·.toNat + r) (hi s)
    have hread : memRead (f s) (s.indexed r) = memRead s (s.indexed r) := memRead_congr (by rw [hmem])
    unfold drawRows
    rw [hindexed, hread]
    cases memRead s (s.indexed r) with
    | error _ => rfl
    | ok byte => exact (congrArg _ (drawColumns_map hdraw byte x0 _ _ s)).trans (ih _)

end

/-! ### Another log -/

/-- `s` with the diagnostic log `d`. -/
def State.withDiag (d : List Report) (s : State) : State := { s with diag := d }

section
variable (d : List Report) (s : State)

@[simp] theorem State.withDiag_params : (s.withDiag d).params = s.params := rfl
@[simp] theorem State.withDiag_pc : (s.withDiag d).pc = s.pc := rfl
@[simp] theorem State.withDiag_stack : (s.withDiag d).stack = s.stack := rfl
@[simp] theorem State.withDiag_run : (s.withDiag d).run = s.run := rfl
@[simp] theorem State.indexed_withDiag (k : Nat) : (s.withDiag d).indexed k = s.indexed k := rfl
@[simp] theorem State.pixel_withDiag (px : Fin 64) (py : Fin 32) : (s.withDiag d).pixel px py = s.pixel px py := rfl
@[simp] theorem State.leastKey_withDiag : (s.withDiag d).leastKey = s.leastKey := rfl
@[simp] theorem memRead_withDiag (a : Nat) : memRead (s.withDiag d) a = memRead s a := rfl
@[simp] theorem fetch_withDiag : fetch (s.withDiag d) = fetch s := rfl

theorem memWrite_withDiag (a : Nat) (b : Byte) :
    memWrite (s.withDiag d) a b = (memWrite s a b).map (State.withDiag d) := by
  unfold memWrite
  split <;> rfl

theorem stackPush_withDiag (a : Word) : stackPush (s.withDiag d) a = (stackPush s a).map (State.withDiag d) := by
  unfold stackPush
  rw [State.withDiag_stack]
  split <;> rfl

theorem logicFlag_withDiag : (s.withDiag d).logicFlag = s.logicFlag.withDiag d := by
  unfold State.logicFlag
  rw [State.withDiag_params]
  split <;> rfl

theorem advanceI_withDiag (x : RegIdx) : (s.withDiag d).advanceI x = (s.advanceI x).withDiag d := by
  unfold State.advanceI
  rw [State.withDiag_params]
  split <;> rfl

theorem drawPixel_withDiag (px : Fin 64) (py : Fin 32) :
    (s.withDiag d).drawPixel px py = (s.drawPixel px py).withDiag d := by
  unfold State.drawPixel State.flagCollision
  rw [State.pixel_withDiag]
  split <;> rfl

theorem storeBytes_withDiag (k : Nat) (bs : List Byte) :
    storeBytes k bs (s.withDiag d) = mapEnd (State.withDiag d) (storeBytes k bs s) := by
  induction bs generalizing k s with
  | nil => rfl
  | cons b bs ih =>
    unfold storeBytes
    rw [State.indexed_withDiag, memWrite_withDiag]
    cases memWrite s (s.indexed k) b with
    | error _ => rfl
    | ok t => exact ih t (k + 1)

theorem loadBytes_withDiag (ks : List Nat) :
    loadBytes ks (s.withDiag d) = mapEnd (State.withDiag d) (loadBytes ks s) := by
  induction ks generalizing s with
  | nil => rfl
  | cons k ks ih =>
    unfold loadBytes
    rw [State.indexed_withDiag, memRead_withDiag]
    cases memRead s (s.indexed k) with
    | error _ => rfl
    | ok b => exact ih (s.setV (loopReg k) b)

/-! ### An instruction with another log -/

theorem execCall_withDiag (nnn : Addr12) :
    execCall nnn (s.withDiag d) = mapNext (State.withDiag d) (execCall nnn s) := by
  unfold execCall
  rw [State.withDiag_pc, stackPush_withDiag]
  cases stackPush s (s.pc + 2) <;> rfl

theorem execRet_withDiag : execRet (s.withDiag d) = mapNext (State.withDiag d) (execRet s) := by
  unfold execRet stackPop
  rw [State.withDiag_stack]
  cases s.stack.getLast? <;> rfl

theorem execLdVxK_withDiag (x : RegIdx) : execLdVxK x (s.withDiag d) = mapNext (State.withDiag d) (execLdVxK x s) := by
  unfold execLdVxK
  rw [State.leastKey_withDiag]
  cases s.leastKey <;> rfl

/-- An instruction neither reads the log nor writes it: those that branch do so on the rest of the state, and every
other one is a next state as it stands. -/
theorem exec_withDiag (i : Instr) : exec i (s.withDiag d) = mapNext (State.withDiag d) (exec i s) := by
  have hfault : ∀ t op r, State.takeFault (State.withDiag d t) op r = (t.takeFault op r).withDiag d :=
    fun _ _ _ => rfl
  have hadvance : ∀ t, State.advance (State.withDiag d t) = t.advance.withDiag d := fun _ => rfl
  have hadvanceI : ∀ x t, (State.advanceI (State.withDiag d t) x).advance = (t.advanceI x).advance.withDiag d :=
    fun x t => congrArg State.advance (advanceI_withDiag d t x)
  cases i with
  | drw x y n =>
    have hrows := drawRows_map (f := State.withDiag d) (fun _ => rfl) (fun _ => rfl) (drawPixel_withDiag d)
      (startColumn (s.getV x)) (startRow (s.getV y)) (List.range n.toNat) (s.setV regF 0)
    exact conclude_map hfault hadvance hrows
  | ldBVx x => exact conclude_map hfault hadvance (storeBytes_withDiag d s 0 _)
  | storeRegs x => exact conclude_map hfault (hadvanceI x) (storeBytes_withDiag d s 0 _)
  | loadRegs x => exact conclude_map hfault (hadvanceI x) (loadBytes_withDiag d s _)
  | call nnn => exact execCall_withDiag d s nnn
  | ret => exact execRet_withDiag d s
  | ldVxK x => exact execLdVxK_withDiag d s x
  | orReg x y | andReg x y | xorReg x y =>
    exact congrArg (fun t => Host.Outcome.next (State.advance t)) (logicFlag_withDiag d (s.setV x _))
  | cls | jp _ | ldImm _ _ | addImm _ _ | ldI _ | seImm _ _ | sneImm _ _ | seReg _ _ | sneReg _ _ | jpV0 _
  | ldReg _ _ | addReg _ _ | subReg _ _ | shrReg _ _ | subnReg _ _ | shlReg _ _ | rnd _ _ | skp _ | sknp _
  | ldVxDT _ | ldDTVx _ | ldSTVx _ | addIVx _ | ldFVx _ => rfl

/-! ### A step with another log -/

/-- A fault of the fetch and an instruction keep the log, and a word with no dispatcher entry adds to it. -/
theorem instructionStep_withDiag :
    ∃ d', instructionStep (s.withDiag d) = mapNext (State.withDiag d') (instructionStep s) := by
  unfold instructionStep
  rw [fetch_withDiag, State.withDiag_params]
  cases fetch s with
  | error f => exact ⟨d, rfl⟩
  | ok op =>
    dsimp only
    cases decode s.params.profile op with
    | instr i => exact ⟨d, exec_withDiag d s i⟩
    | unimplemented w => exact ⟨d ++ [⟨s.pc, w⟩], rfl⟩

/-- The log after a reset is empty, whatever it was (10_state.md R44). -/
theorem resetRequest_withDiag (image : List Byte) :
    resetRequest image (s.withDiag d) = mapNext (State.withDiag []) (resetRequest image s) := by
  unfold resetRequest
  split
  · rfl
  · split <;> rfl

theorem haltedStep_withDiag (why : Fault) (ms : List Move) :
    haltedStep why (s.withDiag d) ms = mapNext (State.withDiag []) (haltedStep why s ms) := by
  induction ms with
  | nil => rfl
  | cons m ms ih =>
    cases m with
    | reset image => exact resetRequest_withDiag d { s with schedule := ms } image
    | instruction | tick _ _ | clockEdge _ _ => exact ih

theorem runMove_withDiag (m : Move) :
    ∃ d', runMove m (s.withDiag d) = mapNext (State.withDiag d') (runMove m s) := by
  cases m with
  | instruction => exact instructionStep_withDiag d s
  | tick _ _ | clockEdge _ _ => exact ⟨d, rfl⟩
  | reset image => exact ⟨[], resetRequest_withDiag d s image⟩

theorem nextMove_withDiag : (s.withDiag d).nextMove = (s.nextMove.1, s.nextMove.2.withDiag d) := by
  cases hs : s.schedule with
  | nil =>
    obtain ⟨m, rest, hm, e⟩ := s.nextMove_nil hs
    obtain ⟨m', rest', hm', e'⟩ := (s.withDiag d).nextMove_nil hs
    obtain ⟨rfl, rfl⟩ := List.cons.inj (hm.symm.trans hm')
    rw [e, e']
    rfl
  | cons m rest =>
    rw [s.nextMove_cons hs, (s.withDiag d).nextMove_cons hs]
    rfl

/-- The step with another log is the same step, but for the log it leaves. -/
theorem step_withDiag : ∃ d', step (s.withDiag d) = mapNext (State.withDiag d') (step s) := by
  unfold step agentStep
  rw [State.withDiag_run]
  cases s.run with
  | running =>
    unfold runningStep
    rw [nextMove_withDiag]
    exact runMove_withDiag d _ _
  | faulted | stopped => exact ⟨[], haltedStep_withDiag d s _ _⟩

end

/-- Settles O54: each branch of the step is chosen by a piece of state other than the log, and does the same there. -/
theorem diagnosticLogUnobservable : Obligations.DiagnosticLogUnobservable := by
  intro s d
  obtain ⟨d', hstep⟩ := step_withDiag d s
  have answer {r : Result} (h : step s = r) : step (s.withDiag d) = mapNext (State.withDiag d') r := h ▸ hstep
  exact ⟨fun t h => ⟨d', answer h⟩, fun f h => answer h, fun r h => answer h⟩

end Sys2Proof.Machine
end

section
/-! A word with no dispatcher entry (45_unimplemented.md R160): which words these are, and the step that passes over
one. -/

namespace Sys2Proof.Machine

/-- Decoding is total: an instruction, or the word itself left to the unimplemented rule (40_step_cycle.md R123). -/
theorem decode_cases (p : Profile) (op : Word) :
    (∃ i, decode p op = .instr i) ∨ decode p op = .unimplemented op := by
  unfold decode
  split
  · exact .inl ⟨_, rfl⟩
  · exact .inr rfl

/-- The words with no dispatcher entry are those the encoder gives for no instruction of the profile. -/
theorem decode_unimplemented_iff_encode_ne {p : Profile} {op : Word} :
    decode p op = .unimplemented op ↔ ∀ i : Instr, i.wf p = true → encode i ≠ op := by
  constructor
  · rintro h i hwf rfl
    cases h.symm.trans (decodeOfEncode p i hwf)
  · intro h
    rcases decode_cases p op with ⟨i, hd⟩ | hd
    · obtain ⟨he, hwf⟩ := encodeOfDecode p op i hd
      exact absurd he (h i hwf)
    · exact hd

theorem instructionStep_of_unimplemented {s : State} {op : Word} (hpc : s.pc.toNat ≤ 0xFFE)
    (hd : decode s.params.profile (s.wordAt s.pc.toNat) = .unimplemented op) :
    instructionStep s = .next (s.report op).advance := by
  simp only [instructionStep, fetch_of_le hpc, hd, unimplemented]

/-- A report after a move changes the log and the moves to come (45_unimplemented.md R160). -/
theorem changesOnly_report (s : State) (ms : List Move) (rs : Rounds) (op : Word) :
    ChangesOnly (fun q => q = .diag ∨ q = .schedule ∨ q = .rounds) s
      (State.report { s with schedule := ms, rounds := rs } op) := by
  intro p hp
  cases p with
  | diag | schedule | rounds => simp at hp
  | _ => rfl

/-- Settles O2: encoding and decoding are inverse, which gives the words; the move taken leaves `pc`, memory and the
profile alone, and the step is then a report followed by the advance of `pc`. -/
theorem unimplementedWordReported : Obligations.UnimplementedWordReported := by
  refine ⟨fun p op => decode_unimplemented_iff_encode_ne, fun s u hn hpc hd => ?_⟩
  have hstep : step s = instructionStep u := step_of_nextMove hn
  obtain ⟨ms, rs, rfl⟩ := hn.eq_with
  exact ⟨_, hstep.trans (instructionStep_of_unimplemented hpc hd), rfl, rfl, rfl, rfl,
    (changesOnly_report s ms rs _).advance⟩

end Sys2Proof.Machine
end

section
/-! The words with no row under `PROFILE = FULL` (47_ext_flow_alu.md R218): a row fixes the high nibble of its words and
with it nothing else, the low nibble or the low byte. -/

namespace Sys2Proof

section
variable {op pat : Word}

/-- A pattern of format `NNN` is matched by the words with its high nibble. -/
theorem and_F000_eq_iff (h : pat &&& 0xF000#16 = pat) :
    op &&& 0xF000#16 = pat ↔ op.extractLsb' 12 4 = pat.extractLsb' 12 4 := by
  have hpat : pat &&& 0xF000#16 = pat.extractLsb' 12 4 ++ (0 : Addr12) := mask_n1_iff.mpr rfl
  exact (iff_of_eq (congrArg _ (h.symm.trans hpat))).trans mask_n1_iff

/-- A pattern of format `XY` is matched by the words with its high and its low nibble. -/
theorem and_F00F_eq_iff (h : pat &&& 0xF00F#16 = pat) : op &&& 0xF00F#16 = pat ↔
    op.extractLsb' 12 4 = pat.extractLsb' 12 4 ∧ op.extractLsb' 0 4 = pat.extractLsb' 0 4 := by
  have hpat : pat &&& 0xF00F#16 = pat.extractLsb' 12 4 ++ (0 : Byte) ++ pat.extractLsb' 0 4 :=
    mask_n1_n_iff.mpr ⟨rfl, rfl⟩
  exact (iff_of_eq (congrArg _ (h.symm.trans hpat))).trans mask_n1_n_iff

/-- A pattern of format `X` is matched by the words with its high nibble and its low byte. -/
theorem and_F0FF_eq_iff (h : pat &&& 0xF0FF#16 = pat) : op &&& 0xF0FF#16 = pat ↔
    op.extractLsb' 12 4 = pat.extractLsb' 12 4 ∧ op.extractLsb' 0 8 = pat.extractLsb' 0 8 := by
  have hpat : pat &&& 0xF0FF#16 = pat.extractLsb' 12 4 ++ (0 : RegIdx) ++ pat.extractLsb' 0 8 :=
    mask_n1_nn_iff.mpr ⟨rfl, rfl⟩
  exact (iff_of_eq (congrArg _ (h.symm.trans hpat))).trans mask_n1_nn_iff

end

end Sys2Proof

namespace Sys2Proof.Machine

/-- What each of the 34 rows excludes, in the order of the map (30_encoding.md R95, R99). -/
theorem decode_full_unimplemented_iff {op : Word} : decode .full op = .unimplemented op ↔
    op ≠ 0x00E0 ∧ op.extractLsb' 12 4 ∉ [0x1#4, 0x6#4, 0x7#4, 0xA#4, 0xD#4] ∧
    op ≠ 0x00EE ∧ op.extractLsb' 12 4 ∉ [0x2#4, 0x3#4, 0x4#4] ∧
    (op.extractLsb' 12 4 = 0x5#4 → op.extractLsb' 0 4 ≠ 0x0#4) ∧
    (op.extractLsb' 12 4 = 0x8#4 →
      op.extractLsb' 0 4 ∉ [0x0#4, 0x1#4, 0x2#4, 0x3#4, 0x4#4, 0x5#4, 0x6#4, 0x7#4, 0xE#4]) ∧
    (op.extractLsb' 12 4 = 0x9#4 → op.extractLsb' 0 4 ≠ 0x0#4) ∧ op.extractLsb' 12 4 ∉ [0xB#4, 0xC#4] ∧
    (op.extractLsb' 12 4 = 0xE#4 → op.extractLsb' 0 8 ∉ [0x9E#8, 0xA1#8]) ∧
    (op.extractLsb' 12 4 = 0xF#4 → op.extractLsb' 0 8 ∉
      [0x07#8, 0x0A#8, 0x15#8, 0x18#8, 0x1E#8, 0x29#8, 0x33#8, 0x55#8, 0x65#8]) := by
  have hall : op &&& 0xFFFF#16 = op := BitVec.and_allOnes
  rw [decode_unimplemented_iff]
  simp [opcodeTable, minRows, flowAluRows, memKeyTimerRows, Row.selects, Profile.has, hall, and_F000_eq_iff,
    and_F00F_eq_iff, and_F0FF_eq_iff, imp_and, and_assoc]

/-- Settles O9: ten high nibbles have a row of their own; under each of the other six the rows leave over what the
statement lists. -/
theorem fullUnimplementedWords : Obligations.FullUnimplementedWords := by
  intro op
  have hnibble : ∀ d : Nibble, d ∈ [0x1#4, 0x2#4, 0x3#4, 0x4#4, 0x6#4, 0x7#4, 0xA#4, 0xB#4, 0xC#4, 0xD#4] ∨
      d = 0x0#4 ∨ d = 0x5#4 ∨ d = 0x8#4 ∨ d = 0x9#4 ∨ d = 0xE#4 ∨ d = 0xF#4 := by decide
  have hlow : ∀ n : Nibble, n ∉ [0x0#4, 0x1#4, 0x2#4, 0x3#4, 0x4#4, 0x5#4, 0x6#4, 0x7#4, 0xE#4] ↔
      n ∈ [0x8#4, 0x9#4, 0xA#4, 0xB#4, 0xC#4, 0xD#4, 0xF#4] := by decide
  have hzero : op.extractLsb' 12 4 ≠ 0x0#4 → op ≠ 0x00E0#16 ∧ op ≠ 0x00EE#16 := by
    refine fun h => ⟨?_, ?_⟩ <;> rintro rfl <;> exact h rfl
  rw [decode_full_unimplemented_iff, hlow]
  rcases hnibble (op.extractLsb' 12 4) with h | h | h | h | h | h | h
  · simp only [List.mem_cons, List.not_mem_nil, or_false] at h
    rcases h with h | h | h | h | h | h | h | h | h | h <;> simp [h]
  · simp [h]
  all_goals simp [h, hzero]

end Sys2Proof.Machine
end

section
/-! Control flow (47_ext_flow_alu.md R201 to R205, R215, R216): call and return, the conditional skips, the indexed
jump. -/

namespace Sys2Proof.Machine

/-- `PROFILE = FULL` has every row of the opcode map (30_encoding.md R99). -/
theorem profile_full_has (r : Profile) : Profile.full.has r = true := by cases r <;> rfl

/-- Every word of a row decodes under `PROFILE = FULL` to what the row builds (30_encoding.md R99). -/
theorem rowDecodes_full (i : Instr) :
    RowDecodes .full i.row.pattern i.row.mask fun op => i.row.build (fieldsOf op) :=
  rowDecodes_of_mem i.row_mem (profile_full_has _)

/-! ### Frames -/

/-- Changing nothing is within every frame. -/
theorem ChangesOnly.refl (may : Part → Prop) (s : State) : ChangesOnly may s s := by
  intro p _
  cases p <;> rfl

/-- One change after the other changes what either may. -/
theorem ChangesOnly.trans {may may' : Part → Prop} {s t u : State} (h : ChangesOnly may s t)
    (g : ChangesOnly may' t u) : ChangesOnly (fun q => may q ∨ may' q) s u := by
  intro p hp
  have hst : p.Same s t := h p fun hm => hp (.inl hm)
  have htu : p.Same t u := g p fun hm => hp (.inr hm)
  cases p <;> exact Eq.trans htu hst

/-- A stack operation changes no other state (10_state.md R29, R30). -/
theorem changesOnly_stack (s : State) (st : List Word) :
    ChangesOnly (fun q => q = .stack) s { s with stack := st } := by
  intro p hp
  cases p with
  | stack => exact absurd rfl hp
  | _ => rfl

/-- A fault of an instruction changes `RUN` and `FAULT` (60_exceptions.md R266). -/
theorem changesOnly_fault (s : State) (op : Option Word) (f : Raise) :
    ChangesOnly (fun q => q = .run ∨ q = .fault) s (s.takeFault op f) :=
  ((ChangesOnly.refl (fun _ => False) s).takeFault op f).mono fun _ => by simp only [or_false, imp_self]

/-! ### Call and return -/

section
variable {s : State}

/-- The stack and `pc` after a call or a return, which change nothing else (47_ext_flow_alu.md R201, R202). -/
theorem changesOnly_stack_pc (s : State) (st : List Word) (a : Word) :
    ChangesOnly (fun q => q = .pc ∨ q = .stack) s (State.setPc { s with stack := st } a) :=
  ((changesOnly_stack s st).trans (changesOnly_setPc _ a)).mono fun _ => Or.symm

/-- A call with room on the stack (47_ext_flow_alu.md R201). -/
theorem exec_call_of_lt (nnn : Addr12) (h : s.stack.length < 16) :
    exec (.call nnn) s = .next (State.setPc { s with stack := s.stack ++ [s.pc + 2] } (zext16 nnn)) := by
  rcases execCall_cases nnn s with ⟨-, e⟩ | ⟨hge, -⟩
  · exact e
  · omega

/-- A call with a full stack (47_ext_flow_alu.md R201). -/
theorem exec_call_of_ge (nnn : Addr12) (h : 16 ≤ s.stack.length) :
    exec (.call nnn) s = .next (s.takeFault (some (encode (.call nnn))) ⟨.stackOverflow, s.pc.toNat⟩) := by
  rcases execCall_cases nnn s with ⟨hlt, -⟩ | ⟨-, e⟩
  · omega
  · exact e

/-- A return with a most recent entry (47_ext_flow_alu.md R202). -/
theorem exec_ret_of_append {rest : List Word} {a : Word} (h : s.stack = rest ++ [a]) :
    exec .ret s = .next (State.setPc { s with stack := rest } a) := by
  rcases execRet_cases s with ⟨hnil, -⟩ | ⟨rest', a', h', e⟩
  · simp [hnil] at h
  · obtain ⟨rfl, ha⟩ := List.append_inj' (h'.symm.trans h) rfl
    obtain rfl : a' = a := List.singleton_inj.mp ha
    exact e

/-- A return with an empty stack (47_ext_flow_alu.md R202). -/
theorem exec_ret_of_nil (h : s.stack = []) :
    exec .ret s = .next (s.takeFault (some (encode .ret)) ⟨.stackUnderflow, s.pc.toNat⟩) := by
  rcases execRet_cases s with ⟨-, e⟩ | ⟨rest, a, h', -⟩
  · exact e
  · simp [h] at h'

end

/-- Settles O27: the two outcomes of a call, and the word of a CALL is the one that decodes to it. -/
theorem callPushesReturnAddress : Obligations.CallPushesReturnAddress := by
  refine ⟨rowDecodes_full (.call 0), rfl, fun s nnn hlt => ?_, fun s nnn p op hd hge => ?_⟩
  · exact ⟨_, exec_call_of_lt nnn hlt, rfl, toNat_zext16 nnn, changesOnly_stack_pc s _ _⟩
  · obtain ⟨-, rfl⟩ := decode_eq_instr_iff.mp hd
    exact ⟨_, exec_call_of_ge nnn hge, ⟨rfl, rfl, rfl⟩, changesOnly_fault s _ _⟩

/-- Settles O28: 00EE is the word of RET, which only `PROFILE = FULL` has, and the two outcomes of a return. -/
theorem returnPopsReturnAddress : Obligations.ReturnPopsReturnAddress := by
  refine ⟨decodeOfEncode .full .ret rfl, decode_min_unimplemented_iff.mpr (by decide), rfl, fun s rest a h => ?_,
    fun s h => ?_⟩
  · exact ⟨_, exec_ret_of_append h, rfl, rfl, changesOnly_stack_pc s _ _⟩
  · exact ⟨_, exec_ret_of_nil h, ⟨rfl, rfl, rfl⟩, changesOnly_fault s _ _⟩

/-- Settles O29: the entry the call pushed is the most recent one, which the return pops. -/
theorem callThenReturn : Obligations.CallThenReturn := by
  intro s t u nnn hlt hcall hu
  cases (exec_call_of_lt nnn hlt).symm.trans hcall
  exact ⟨_, exec_ret_of_append hu, rfl, rfl⟩

/-! ### Skips and the indexed jump -/

/-- An instruction that is a conditional skip skips when its condition holds (47_ext_flow_alu.md R203). -/
theorem skipsWhen_of_exec {i : Instr} {s : State} {b : Bool} {c : Prop} (h : exec i s = .next (s.skipIf b))
    (hb : b = true ↔ c) : SkipsWhen i s c :=
  ⟨s.skipIf b, h, fun hc => if_pos (hb.mpr hc), fun hc => if_neg (mt hb.mp hc), changesOnly_setPc s _⟩

/-- Settles O30: each of the four is a conditional skip on a comparison, and a word 5xyN or 9xyN with N not 0 is one of
those with no row. -/
theorem conditionalSkips : Obligations.ConditionalSkips := by
  refine ⟨rowDecodes_full (.seImm 0 0), rowDecodes_full (.sneImm 0 0), rowDecodes_full (.seReg 0 0),
    rowDecodes_full (.sneReg 0 0), fun op hn hn1 => ?_, fun s x nn => ?_, fun s x y => ?_⟩
  · refine (fullUnimplementedWords op).mpr ?_
    rcases hn1 with h5 | h9
    · exact .inr (.inl ⟨h5, hn⟩)
    · exact .inr (.inr (.inr (.inl ⟨h9, hn⟩)))
  all_goals exact ⟨skipsWhen_of_exec rfl decide_eq_true_iff, skipsWhen_of_exec rfl decide_eq_true_iff⟩

/-- The target of `Bnnn` fits 16 bits (47_ext_flow_alu.md R216). -/
theorem add_byte_le (nnn : Addr12) (b : Byte) : nnn.toNat + b.toNat ≤ 0x10FE := by
  have := nnn.isLt
  have := b.isLt
  omega

/-- Settles O31: the sum is below 65536, so `pc` holds it unreduced. -/
theorem indexedJump : Obligations.IndexedJump := by
  refine ⟨rowDecodes_full (.jpV0 0), fun s nnn => ?_⟩
  have hle := add_byte_le nnn (s.getV 0)
  have hpc : (BitVec.ofNat 16 (nnn.toNat + (s.getV 0).toNat)).toNat = nnn.toNat + (s.getV 0).toNat :=
    (BitVec.toNat_ofNat _ _).trans (Nat.mod_eq_of_lt (hle.trans_lt (by decide)))
  exact ⟨_, rfl, hpc, hpc.trans_le hle, changesOnly_setPc s _⟩

end Sys2Proof.Machine
end

section
/-! Register operations (47_ext_flow_alu.md R206 to R214, R217, R219): the result and the flag written after it. -/

namespace Sys2Proof.Machine

/-! ### Results and flags as numbers -/

theorem flagByte_decide (c : Prop) [Decidable c] : flagByte (decide c) = if c then 1 else 0 := by
  simp only [flagByte, decide_eq_true_eq]

theorem toNat_flagByte (f : Bool) : (flagByte f).toNat = f.toNat := by cases f <;> rfl

/-- The bit shifted out to the right is the remainder of the halving (47_ext_flow_alu.md R212). -/
theorem toNat_bitOutRight (b : Byte) : (bitOutRight b).toNat = b.toNat % 2 := by
  rw [bitOutRight, BitVec.getLsbD, Nat.toNat_testBit, Nat.pow_zero, Nat.div_one]

/-- The bit shifted out to the left is the carry of the doubling (47_ext_flow_alu.md R214). -/
theorem toNat_bitOutLeft (b : Byte) : (bitOutLeft b).toNat = b.toNat / 128 := by
  have := b.isLt
  rw [bitOutLeft, BitVec.getLsbD, Nat.toNat_testBit]
  omega

/-- Subtraction of bytes is subtraction modulo 256 (47_ext_flow_alu.md R211). -/
theorem toNat_sub_byte (a b : Byte) : (a - b).toNat = (a.toNat + 256 - b.toNat) % 256 := by
  bv_omega

/-! ### A result without a flag -/

/-- Drawing a random byte changes the count of draws only (47_ext_flow_alu.md R217). -/
theorem changesOnly_draw (s : State) : ChangesOnly (fun q => q = .draws) s s.draw.2 := by
  intro p hp
  cases p with
  | draws => exact absurd rfl hp
  | _ => rfl

/-- Settles O32: the copy is the writing of `V[x]` followed by the advance of `pc`. -/
theorem copyRegister : Obligations.CopyRegister := by
  refine ⟨rowDecodes_full (.ldReg 0 0), fun s x y => ?_⟩
  exact ⟨(s.setV x (s.getV y)).advance, rfl, s.getV_setV_self x _, rfl, (changesOnly_setV s x _).then_advance⟩

/-- Settles O37: the draw counts itself, and its byte AND nn is then written to `V[x]`, whatever the byte is. -/
theorem randomMasked : Obligations.RandomMasked := by
  refine ⟨rowDecodes_full (.rnd 0 0), fun s x nn => ?_⟩
  have frame := (changesOnly_draw s).trans (changesOnly_setV s.draw.2 x (s.draw.1 &&& nn)).then_advance
  exact ⟨(s.draw.2.setV x (s.draw.1 &&& nn)).advance, rfl, s.draw.2.getV_setV_self x _, rfl, rfl,
    frame.mono fun _ h => or_assoc.mp h.symm⟩

/-! ### A result and a flag -/

/-- Writing `V[x]`, then `VF`, then going on changes no other state (47_ext_flow_alu.md R219). -/
theorem changesOnly_setWithFlag_advance (s : State) (x : RegIdx) (b : Byte) (f : Bool) :
    ChangesOnly (fun q => q = .v x ∨ q = .v 15 ∨ q = .pc) s (s.setWithFlag x b f).advance :=
  (changesOnly_setV s x b).trans (changesOnly_setV (s.setV x b) regF (flagByte f)).then_advance

/-- What an operation with a flag does: the result in `V[x]`, the flag in `VF` after it, so that it stays when `x` is 15
(47_ext_flow_alu.md R219). -/
theorem exists_of_exec_setWithFlag {i : Instr} {s : State} {x : RegIdx} {b : Byte} {f : Bool}
    (h : exec i s = .next (s.setWithFlag x b f).advance) :
    ∃ t, exec i s = .next t ∧ (x ≠ 15 → t.getV x = b) ∧ t.getV 15 = flagByte f ∧ t.pc = s.pc + 2 ∧
      ChangesOnly (fun q => q = .v x ∨ q = .v 15 ∨ q = .pc) s t :=
  ⟨_, h, fun hx => s.getV_setWithFlag_result hx b f, s.getV_setWithFlag_flag x b f, rfl,
    changesOnly_setWithFlag_advance s x b f⟩

/-- Settles O34: the sum of two bytes is the sum of their numbers modulo 256, and the flag is the carry. -/
theorem addRegisterSetsCarry : Obligations.AddRegisterSetsCarry := by
  refine ⟨rowDecodes_full (.addReg 0 0), fun s x y => ?_⟩
  obtain ⟨t, hexec, hx, hf, hpc, frame⟩ := exists_of_exec_setWithFlag (i := .addReg x y) (s := s) rfl
  exact ⟨t, hexec, fun h => by rw [hx h, BitVec.toNat_add], hf.trans (flagByte_decide _), hpc, frame⟩

/-- What a subtraction does, in either order of the operands (47_ext_flow_alu.md R211, R213). -/
theorem exists_of_exec_sub {i : Instr} {s : State} {x : RegIdx} {a b : Byte}
    (h : exec i s = .next (s.setWithFlag x (a - b) (noBorrow a b)).advance) :
    ∃ t, exec i s = .next t ∧ (x ≠ 15 → (t.getV x).toNat = (a.toNat + 256 - b.toNat) % 256) ∧
      t.getV 15 = (if b.toNat ≤ a.toNat then 1 else 0) ∧ t.pc = s.pc + 2 ∧
      ChangesOnly (fun q => q = .v x ∨ q = .v 15 ∨ q = .pc) s t := by
  obtain ⟨t, hexec, hx, hf, hpc, frame⟩ := exists_of_exec_setWithFlag h
  exact ⟨t, hexec, fun hne => by rw [hx hne, toNat_sub_byte], hf.trans (flagByte_decide _), hpc, frame⟩

/-- Settles O35: the two differ in the order of their operands. -/
theorem subtractSetsNoBorrow : Obligations.SubtractSetsNoBorrow :=
  ⟨rowDecodes_full (.subReg 0 0), rowDecodes_full (.subnReg 0 0),
    fun _ _ _ => ⟨exists_of_exec_sub rfl, exists_of_exec_sub rfl⟩⟩

/-- The register that is shifted, at both values of `Q_SHIFT_SRC` (47_ext_flow_alu.md R212). -/
theorem shiftOperand_eq {s : State} {x y : RegIdx} {b : Byte}
    (h : (s.params.shiftSrc = .vy ∧ b = s.getV y) ∨ (s.params.shiftSrc = .vx ∧ b = s.getV x)) :
    s.shiftOperand x y = b := by
  rcases h with ⟨hq, rfl⟩ | ⟨hq, rfl⟩ <;> simp only [State.shiftOperand, hq]

/-- Settles O36: shifting by one is halving and doubling, and the flag is the bit that falls out. -/
theorem shiftsByOne : Obligations.ShiftsByOne := by
  refine ⟨rowDecodes_full (.shrReg 0 0), rowDecodes_full (.shlReg 0 0), fun s x y b hb => ?_⟩
  obtain rfl := shiftOperand_eq hb
  constructor
  · obtain ⟨t, hexec, hx, hf, hpc, frame⟩ := exists_of_exec_setWithFlag (i := .shrReg x y) (s := s) rfl
    refine ⟨t, hexec, fun h => ?_, ?_, hpc, frame⟩
    · rw [hx h, BitVec.toNat_ushiftRight, Nat.shiftRight_one]
    · rw [hf, toNat_flagByte, toNat_bitOutRight]
  · obtain ⟨t, hexec, hx, hf, hpc, frame⟩ := exists_of_exec_setWithFlag (i := .shlReg x y) (s := s) rfl
    refine ⟨t, hexec, fun h => ?_, ?_, hpc, frame⟩
    · rw [hx h, BitVec.toNat_shiftLeft, Nat.shiftLeft_eq, Nat.mul_comm]
    · rw [hf, toNat_flagByte, toNat_bitOutLeft]

/-! ### A result and `Q_LOGIC_VF` -/

/-- Under `RESET` a bitwise operation writes the flag 0 (47_ext_flow_alu.md R207). -/
theorem logicFlag_setV_of_reset {s : State} (h : s.params.logicVF = .reset) (x : RegIdx) (b : Byte) :
    (s.setV x b).logicFlag = s.setWithFlag x b false := by
  simp only [State.logicFlag, State.setV_params, h]
  rfl

/-- Under `KEEP` a bitwise operation leaves the flag alone (47_ext_flow_alu.md R207). -/
theorem logicFlag_of_keep {s : State} (h : s.params.logicVF = .keep) : s.logicFlag = s := by
  simp only [State.logicFlag, h]

/-- What a bitwise operation does with its result, at both values of `Q_LOGIC_VF` (47_ext_flow_alu.md R207). -/
theorem exists_of_exec_logicFlag {i : Instr} {s : State} {x : RegIdx} {b : Byte}
    (h : exec i s = .next (s.setV x b).logicFlag.advance) :
    ∃ t, exec i s = .next t ∧
      (s.params.logicVF = .reset → t.getV 15 = 0 ∧ (x ≠ 15 → t.getV x = b) ∧
        ChangesOnly (fun q => q = .v x ∨ q = .v 15 ∨ q = .pc) s t) ∧
      (s.params.logicVF = .keep → t.getV x = b ∧ ChangesOnly (fun q => q = .v x ∨ q = .pc) s t) ∧
      t.pc = s.pc + 2 := by
  refine ⟨_, h, fun hq => ?_, fun hq => ?_, by simp⟩
  · rw [logicFlag_setV_of_reset hq]
    exact ⟨s.getV_setWithFlag_flag x b false, fun hx => s.getV_setWithFlag_result hx b false,
      changesOnly_setWithFlag_advance s x b false⟩
  · rw [logicFlag_of_keep (s := s.setV x b) hq]
    exact ⟨s.getV_setV_self x b, (changesOnly_setV s x b).then_advance⟩

/-- Settles O33: the three differ in the result only. -/
theorem bitwiseOperations : Obligations.BitwiseOperations :=
  ⟨rowDecodes_full (.orReg 0 0), rowDecodes_full (.andReg 0 0), rowDecodes_full (.xorReg 0 0),
    fun _ _ _ => ⟨exists_of_exec_logicFlag rfl, exists_of_exec_logicFlag rfl, exists_of_exec_logicFlag rfl⟩⟩

end Sys2Proof.Machine
end

section
/-! The state only a tick sees under `PROFILE = MIN` (50_clock_and_timers.md R181, R183): the six instructions neither
read nor write the timers, the key latch and the frames. -/

namespace Sys2Proof.Machine

/-- `s` with these timers, this key latch and these frames. -/
def State.withTickState (dt st : Byte) (keys : Keys) (frames : List Display) (s : State) : State :=
  { s with dt := dt, st := st, keys := keys, frames := frames }

section
variable (dt st : Byte) (keys : Keys) (frames : List Display) (s : State)

@[simp] theorem State.withTickState_params : (s.withTickState dt st keys frames).params = s.params := rfl
@[simp] theorem State.pixel_withTickState (px : Fin 64) (py : Fin 32) :
    (s.withTickState dt st keys frames).pixel px py = s.pixel px py := rfl
@[simp] theorem fetch_withTickState : fetch (s.withTickState dt st keys frames) = fetch s := rfl

theorem drawPixel_withTickState (px : Fin 64) (py : Fin 32) :
    (s.withTickState dt st keys frames).drawPixel px py = (s.drawPixel px py).withTickState dt st keys frames := by
  unfold State.drawPixel State.flagCollision
  rw [State.pixel_withTickState]
  split <;> rfl

/-- Of the six instructions of `PROFILE = MIN` only `Dxyn` branches, and on the display and memory alone. -/
theorem exec_withTickState {i : Instr} (hp : i.profile = .min) :
    exec i (s.withTickState dt st keys frames) = mapNext (State.withTickState dt st keys frames) (exec i s) := by
  cases i with
  | drw x y n =>
    have hrows := drawRows_map (f := State.withTickState dt st keys frames) (fun _ => rfl) (fun _ => rfl)
      (drawPixel_withTickState dt st keys frames) (startColumn (s.getV x)) (startRow (s.getV y))
      (List.range n.toNat) (s.setV regF 0)
    exact conclude_map (f := State.withTickState dt st keys frames) (next := State.advance) (fun _ _ _ => rfl)
      (fun _ => rfl) hrows
  | cls | jp _ | ldImm _ _ | addImm _ _ | ldI _ => rfl
  | _ => cases hp

theorem instructionStep_withTickState (hp : s.params.profile = .min) :
    instructionStep (s.withTickState dt st keys frames) =
      mapNext (State.withTickState dt st keys frames) (instructionStep s) := by
  unfold instructionStep
  rw [fetch_withTickState, State.withTickState_params, hp]
  cases fetch s with
  | error f => rfl
  | ok op =>
    dsimp only
    cases hd : decode .min op with
    | instr i => exact exec_withTickState dt st keys frames s (profile_of_decode_min hd)
    | unimplemented w => rfl

end

/-- Which move is next depends on the moves to come alone. -/
theorem State.NextMove.withTickState {s u : State} {m : Move} (h : s.NextMove m u) (dt st : Byte) (keys : Keys)
    (frames : List Display) : (s.withTickState dt st keys frames).NextMove m (u.withTickState dt st keys frames) := by
  refine ⟨h.1, ?_⟩
  rcases h.cases with ⟨rest, hs, rfl⟩ | ⟨rest, hs, hround, rfl⟩
  · exact (s.withTickState dt st keys frames).nextMove_cons hs
  · obtain ⟨m', rest', hround', e⟩ := (s.withTickState dt st keys frames).nextMove_nil hs
    obtain ⟨rfl, rfl⟩ := List.cons.inj (hround.symm.trans hround')
    exact e

/-- Settles O55: the step is the same instruction step, which keeps whatever timers, latch and frames it is given. -/
theorem minProfileCannotObserveTicks : Obligations.MinProfileCannotObserveTicks := by
  rintro s t dt st keys frames hp ⟨u, hn⟩ h
  have hu : instructionStep u = .next t := (step_of_nextMove hn).symm.trans h
  have hpu : u.params.profile = .min := by obtain ⟨ms, rs, rfl⟩ := hn.eq_with; exact hp
  calc step (s.withTickState dt st keys frames)
      = instructionStep (u.withTickState dt st keys frames) := step_of_nextMove (hn.withTickState dt st keys frames)
    _ = mapNext (State.withTickState dt st keys frames) (instructionStep u) :=
        instructionStep_withTickState dt st keys frames u hpu
    _ = .next (t.withTickState dt st keys frames) := by rw [hu]; rfl

end Sys2Proof.Machine
end

section
/-! The moves to come (50_clock_and_timers.md R173, R178, R179): the next move is their head, a step takes it and puts
those it makes due before the rest, and no step puts a reset request there. -/

namespace Sys2Proof.Machine

/-- The moves to come as far as they are laid out: the schedule or, when it is empty, the round that begins. -/
def State.ahead (s : State) : List Move :=
  match s.schedule with
  | [] => Move.ofRound (s.rounds.nth 0)
  | m :: ms => m :: ms

/-- The moves that a move makes due: only a clock edge makes any (50_clock_and_timers.md R178). -/
def State.due (s : State) : Move → List Move
  | .clockEdge keysIn quitIn =>
    (if s.idiv = 0 then [.instruction] else []) ++ if s.tdiv = 0 then [.tick keysIn quitIn] else []
  | _ => []

/-- No reset request is to come. -/
def State.NoResetAhead (s : State) : Prop := ∀ image, .reset image ∉ s.schedule

section
variable {s t u : State} {m : Move}

theorem State.ahead_of_nil (h : s.schedule = []) : s.ahead = Move.ofRound (s.rounds.nth 0) := by
  simp only [State.ahead, h]

theorem State.ahead_of_ne_nil (h : s.schedule ≠ []) : s.ahead = s.schedule := by
  unfold State.ahead
  split
  · next hnil => exact absurd hnil h
  · next hcons => exact hcons.symm

/-- Taking the next move leaves the rest of the moves ahead in the schedule. -/
theorem State.NextMove.ahead_eq (h : s.NextMove m u) : s.ahead = m :: u.schedule := by
  rcases h.cases with ⟨rest, hs, rfl⟩ | ⟨rest, hs, hround, rfl⟩
  · simp only [State.ahead, hs]
  · exact (State.ahead_of_nil hs).trans hround

theorem State.NextMove.mem_ahead (h : s.NextMove m u) : m ∈ s.ahead := by
  rw [h.ahead_eq]
  exact List.mem_cons_self

/-- A running core has a next move. -/
theorem State.exists_nextMove (h : s.run = .running) : ∃ m u, s.NextMove m u := ⟨_, _, h, rfl⟩

theorem State.NoResetAhead.notMem_ahead (h : s.NoResetAhead) (image : List Byte) : .reset image ∉ s.ahead := by
  by_cases hs : s.schedule = []
  · rw [State.ahead_of_nil hs]; exact Move.reset_notMem_ofRound _ image
  · rw [State.ahead_of_ne_nil hs]; exact h image

/-- An instruction step leaves the moves to come alone (40_step_cycle.md R120). -/
theorem instructionStep_moves (h : instructionStep s = .next t) : t.schedule = s.schedule ∧ t.rounds = s.rounds := by
  rcases instructionStep_next_cases h with ⟨-, a, rfl⟩ | ⟨-, i, -, hexec⟩ | ⟨-, op, -, rfl⟩
  · exact ⟨rfl, rfl⟩
  · exact ⟨(exec_writes hexec).schedule, (exec_writes hexec).rounds⟩
  · exact ⟨rfl, rfl⟩

/-- What a move does to the moves to come. -/
theorem runMove_moves (h : runMove m s = .next t) : t.schedule = s.due m ++ s.schedule ∧ t.rounds = s.rounds := by
  cases m with
  | instruction => exact instructionStep_moves h
  | tick _ _ | clockEdge _ _ => cases h; exact ⟨rfl, rfl⟩
  | reset image => obtain ⟨-, -, rfl⟩ := resetRequest_next.mp h; exact ⟨rfl, rfl⟩

/-- What a clock edge makes due is an instruction step or its own tick. -/
theorem State.mem_due {d : Move} (h : d ∈ s.due m) :
    d = .instruction ∨ ∃ keysIn quitIn, m = .clockEdge keysIn quitIn ∧ d = .tick keysIn quitIn := by
  cases m with
  | clockEdge keysIn quitIn =>
    rcases List.mem_append.mp h with hd | hd
    · exact .inl (List.mem_singleton.mp (List.mem_ite_nil_right.mp hd).2)
    · exact .inr ⟨keysIn, quitIn, rfl, List.mem_singleton.mp (List.mem_ite_nil_right.mp hd).2⟩
  | instruction | tick _ _ | reset _ => cases h

/-- A step with no reset request to come is a move of the agents or of the clock, of a running core. -/
theorem exists_nextMove_of_step (hno : s.NoResetAhead) (h : step s = .next t) :
    ∃ m u, s.NextMove m u ∧ runMove m u = .next t := by
  have hr : s.run = .running := by
    by_contra hr
    obtain ⟨image, -, hmem, -⟩ := step_next_of_halted hr h
    exact hno image hmem
  obtain ⟨m, u, hn⟩ := State.exists_nextMove hr
  exact ⟨m, u, hn, (step_of_nextMove hn).symm.trans h⟩

/-- With no reset request to come, none comes up after a move. -/
theorem State.NextMove.noResetAhead (hn : s.NextMove m u) (hno : s.NoResetAhead) (h : runMove m u = .next t) :
    t.NoResetAhead := by
  intro image hmem
  rw [(runMove_moves h).1] at hmem
  rcases List.mem_append.mp hmem with hdue | hrest
  · rcases State.mem_due hdue with e | ⟨_, _, -, e⟩ <;> cases e
  · exact hno.notMem_ahead image (hn.ahead_eq ▸ List.mem_cons_of_mem m hrest)

theorem State.NoResetAhead.step (hno : s.NoResetAhead) (h : step s = .next t) : t.NoResetAhead := by
  obtain ⟨m, u, hn, hrun⟩ := exists_nextMove_of_step hno h
  exact hn.noResetAhead hno hrun

end

end Sys2Proof.Machine
end

section
/-! A settled program (70_reset_and_hazards.md R295): its jump leads to itself, and ticks and clock edges leave the
program's state alone. -/

namespace Sys2Proof.Machine

/-- From `s` to `t` the state a program works on is unchanged (70_reset_and_hazards.md R295). -/
structure SameProgramState (s t : State) : Prop where
  v : t.v = s.v
  i : t.i = s.i
  pc : t.pc = s.pc
  mem : t.mem = s.mem
  disp : t.disp = s.disp
  stack : t.stack = s.stack
  diag : t.diag = s.diag
  fault : t.fault = s.fault

theorem SameProgramState.refl (s : State) : SameProgramState s s := ⟨rfl, rfl, rfl, rfl, rfl, rfl, rfl, rfl⟩

theorem SameProgramState.trans {s t u : State} (h : SameProgramState s t) (g : SameProgramState t u) :
    SameProgramState s u :=
  ⟨g.v.trans h.v, g.i.trans h.i, g.pc.trans h.pc, g.mem.trans h.mem, g.disp.trans h.disp, g.stack.trans h.stack,
    g.diag.trans h.diag, g.fault.trans h.fault⟩

section
variable {s t : State} {a : Addr12}

/-- The word of a jump to `nnn` (42_jump.md R135). -/
theorem or_zext16_eq_encode_jp (nnn : Addr12) : 0x1000#16 ||| zext16 nnn = encode (.jp nnn) := by
  change _ = 0x1#4 ++ nnn
  rw [BitVec.append_def]
  rfl

/-- The next word of a settled program is a jump to where it stands, under either profile. -/
theorem State.SettledAt.decode_eq (h : s.SettledAt a) (p : Profile) :
    decode p (s.wordAt s.pc.toNat) = .instr (.jp a) := by
  obtain ⟨-, hpc, -, hword⟩ := h
  have haddr : s.pc.toNat = a.toNat := (congrArg BitVec.toNat hpc).trans (toNat_zext16 a)
  rw [haddr]
  exact decode_eq_instr_iff.mpr ⟨profile_has_min p, hword.trans (or_zext16_eq_encode_jp a)⟩

/-- The instruction step of a settled program changes nothing at all. -/
theorem State.SettledAt.instructionStep_eq (h : s.SettledAt a) : instructionStep s = .next s := by
  have hd := h.decode_eq s.params.profile
  obtain ⟨-, hpc, hle, -⟩ := h
  have haddr : s.pc.toNat = a.toNat := (congrArg BitVec.toNat hpc).trans (toNat_zext16 a)
  have hself : s.setPc (zext16 a) = s := by rw [show zext16 a = s.pc from hpc.symm]; rfl
  rw [instructionStep_of_decode (haddr.trans_le hle) hd]
  exact congrArg Host.Outcome.next hself

/-- A step of a settled program leaves its state alone, and settled, unless a quit request stops the core. -/
theorem State.SettledAt.step (h : s.SettledAt a) (hno : s.NoResetAhead) (hst : step s = .next t) :
    SameProgramState s t ∧ (t.SettledAt a ∨ t.run = .stopped) := by
  obtain ⟨m, u, hn, hrun⟩ := exists_nextMove_of_step hno hst
  have hmem := hn.mem_ahead
  have same := SameProgramState.refl s
  obtain ⟨ms, rs, rfl⟩ := hn.eq_with
  cases m with
  | instruction =>
    have hu : State.SettledAt { s with schedule := ms, rounds := rs } a := h
    cases hu.instructionStep_eq.symm.trans hrun
    exact ⟨{ same with }, .inl h⟩
  | tick keysIn quitIn =>
    cases hrun
    cases quitIn with
    | false => exact ⟨{ same with }, .inl h⟩
    | true => exact ⟨{ same with }, .inr rfl⟩
  | clockEdge keysIn quitIn => cases hrun; exact ⟨{ same with }, .inl h⟩
  | reset image => exact absurd hmem (hno.notMem_ahead image)

/-- So does any number of steps, since a stopped core has none. -/
theorem State.SettledAt.reaches {n : Nat} (h : s.SettledAt a) (hno : s.NoResetAhead) (hr : Reaches n s t) :
    SameProgramState s t ∧ (t.SettledAt a ∨ t.run = .stopped) := by
  induction n generalizing s with
  | zero => cases hr; exact ⟨.refl _, .inl h⟩
  | succ n ih =>
    obtain ⟨u, hst, hrest⟩ := hr
    have hnou := hno.step hst
    obtain ⟨hsame, hu | hu⟩ := h.step hno hst
    · obtain ⟨hsame', ht⟩ := ih hu hnou hrest
      exact ⟨hsame.trans hsame', ht⟩
    · cases n with
      | zero => cases hrest; exact ⟨hsame, .inr hu⟩
      | succ n =>
        obtain ⟨w, hw, -⟩ := hrest
        cases ((noStepWhenHalted.1 u hnou).2 hu).symm.trans hw

end

/-- Settles O60, by induction on the number of steps. -/
theorem settledProgramStaysSettled : Obligations.SettledProgramStaysSettled := by
  intro n s t a h hno hr
  obtain ⟨⟨hv, hi, hpc, hmem, hdisp, hstack, hdiag, hfault⟩, ht⟩ := h.reaches hno hr
  exact ⟨hv, hi, hpc, hmem, hdisp, hstack, hdiag, hfault, ht⟩

end Sys2Proof.Machine
end

section
/-! Keypad and timer instructions, and those that write `I` alone (48_ext_mem_key_timer.md R230 to R237). -/

namespace Sys2Proof.Machine

/-! ### Keys -/

theorem toNat_lowNibble (b : Byte) : (lowNibble b).toNat = b.toNat % 16 := by
  rw [lowNibble, BitVec.extractLsb'_toNat, Nat.shiftRight_zero]

/-- The key a byte selects is its value modulo 16 (48_ext_mem_key_timer.md R230). -/
theorem State.key_lowNibble (s : State) (b : Byte) :
    s.key (lowNibble b) = s.keys[b.toNat % 16]'(Nat.mod_lt _ (by decide)) := by
  simp only [State.key, toNat_lowNibble]

/-- Settles O38: each of the two is a conditional skip on the selected key. -/
theorem keySkips : Obligations.KeySkips := by
  refine ⟨rowDecodes_full (.skp 0), rowDecodes_full (.sknp 0), fun s x => ⟨?_, ?_⟩⟩ <;> rw [← State.key_lowNibble]
  · exact skipsWhen_of_exec rfl Iff.rfl
  · exact skipsWhen_of_exec rfl (by rw [Bool.not_eq_true'])

/-- The least latched key (48_ext_mem_key_timer.md R233). -/
theorem State.leastKey_eq_some {s : State} {k : Nibble} (hk : s.key k = true) (hleast : ∀ j < k, s.key j = false) :
    s.leastKey = some k.toNat := by
  refine List.find?_range_eq_some.mpr ⟨by simpa using hk, List.mem_range.mpr k.isLt, fun j hj => ?_⟩
  have hlt : BitVec.ofNat 4 j < k := by
    have := k.isLt
    rw [BitVec.lt_def, BitVec.toNat_ofNat]
    omega
  simp [hleast _ hlt]

theorem State.leastKey_eq_none {s : State} (h : ∀ k, s.key k = false) : s.leastKey = none :=
  List.find?_eq_none.mpr fun k _ => by simp [h]

/-- Settles O39: the search for the least key decides between the load of its number and the wait in the same state. -/
theorem waitForKey : Obligations.WaitForKey := by
  refine ⟨rowDecodes_full (.ldVxK 0), fun s x k hk hleast => ?_, fun s x hnone => ?_⟩
  · have hnum : ((s.setV x (BitVec.ofNat 8 k.toNat)).advance.getV x).toNat = k.toNat := by
      have := k.isLt
      rw [State.getV_advance, State.getV_setV_self, BitVec.toNat_ofNat]
      omega
    rcases execLdVxK_cases x s with ⟨j, hj, e⟩ | ⟨hno, -⟩
    · obtain rfl := Option.some.inj (hj.symm.trans (State.leastKey_eq_some hk hleast))
      exact ⟨_, e, hnum, rfl, (changesOnly_setV s x _).then_advance⟩
    · cases hno.symm.trans (State.leastKey_eq_some hk hleast)
  · rcases execLdVxK_cases x s with ⟨j, hj, -⟩ | ⟨-, e⟩
    · cases hj.symm.trans (State.leastKey_eq_none hnone)
    · exact e

/-! ### Timers -/

/-- Writing `DT` changes `DT` only (48_ext_mem_key_timer.md R234). -/
theorem changesOnly_setDT (s : State) (b : Byte) : ChangesOnly (fun q => q = .dt) s (s.setDT b) := by
  intro p hp
  cases p with
  | dt => exact absurd rfl hp
  | _ => rfl

/-- Writing `ST` changes `ST` only (48_ext_mem_key_timer.md R235). -/
theorem changesOnly_setST (s : State) (b : Byte) : ChangesOnly (fun q => q = .st) s (s.setST b) := by
  intro p hp
  cases p with
  | st => exact absurd rfl hp
  | _ => rfl

/-- `SOUND` is on exactly while `ST` is not 0 (10_state.md R39). -/
theorem State.sound_iff {s : State} : s.sound = true ↔ s.st ≠ 0 := decide_eq_true_iff

/-- Settles O40: each of the three is one write followed by the advance of `pc`. -/
theorem timerInstructions : Obligations.TimerInstructions := by
  refine ⟨rowDecodes_full (.ldVxDT 0), rowDecodes_full (.ldDTVx 0), rowDecodes_full (.ldSTVx 0),
    fun s x => ⟨?_, ?_, ?_⟩⟩
  · exact ⟨_, rfl, s.getV_setV_self x s.dt, rfl, (changesOnly_setV s x _).then_advance⟩
  · exact ⟨_, rfl, rfl, rfl, (changesOnly_setDT s _).then_advance⟩
  · exact ⟨_, rfl, rfl, State.sound_iff, rfl, (changesOnly_setST s _).then_advance⟩

/-! ### The index register -/

/-- The sum of `I` and a byte is their sum modulo 65536 (48_ext_mem_key_timer.md R236). -/
theorem toNat_add_zeroExtend_byte (a : Word) (b : Byte) :
    (a + b.zeroExtend 16).toNat = (a.toNat + b.toNat) % 65536 := by
  have hb : (b.zeroExtend 16).toNat = b.toNat := BitVec.toNat_setWidth_of_le (by decide)
  rw [BitVec.toNat_add, hb]

/-- A glyph address is far below 65536 (48_ext_mem_key_timer.md R237). -/
theorem toNat_glyphAddress (b : Byte) : (glyphAddress b).toNat = 0x050 + 5 * (b.toNat % 16) := by
  rw [glyphAddress, BitVec.toNat_ofNat, toNat_lowNibble, Config.fontBase]
  omega

/-- Settles O41: both write `I`, then advance `pc`. -/
theorem indexInstructions : Obligations.IndexInstructions := by
  refine ⟨rowDecodes_full (.addIVx 0), rowDecodes_full (.ldFVx 0), fun s x => ⟨?_, ?_⟩⟩
  · exact ⟨_, rfl, toNat_add_zeroExtend_byte s.i _, rfl, (changesOnly_setI s _).then_advance⟩
  · exact ⟨_, rfl, toNat_glyphAddress _, rfl, (changesOnly_setI s _).then_advance⟩

end Sys2Proof.Machine
end

section
/-! The instructions that move a block (48_ext_mem_key_timer.md R238 to R240): `Fx33`, `Fx55` and `Fx65`, inside memory
and past its end. -/

namespace Sys2Proof.Machine

/-! ### The loop register -/

theorem loopReg_toNat (k : RegIdx) : loopReg k.toNat = k := BitVec.ofNat_toNat 4 k

theorem toNat_loopReg {k : Nat} (h : k < 16) : (loopReg k).toNat = k :=
  (BitVec.toNat_ofNat k 4).trans (Nat.mod_eq_of_lt h)

theorem State.length_firstRegs (s : State) (x : RegIdx) : (s.firstRegs x).length = x.toNat + 1 := by
  simp [State.firstRegs]

theorem State.getElem_firstRegs (s : State) (x : RegIdx) {k : RegIdx} (h : k.toNat < (s.firstRegs x).length) :
    (s.firstRegs x)[k.toNat] = s.getV k := by
  simp [State.firstRegs, loopReg_toNat]

/-! ### Stores -/

/-- A loaded byte (70_reset_and_hazards.md R290). -/
theorem Mem.read_load_add (m : Mem) (base : Nat) {bs : List Byte} {k : Nat} (h : k < bs.length) :
    (m.load base bs).read (base + k) = bs[k] := by
  rw [Mem.read_load, if_pos (by omega), Nat.add_sub_cancel_left, List.getD_eq_getElem _ _ h]

/-- Loading bytes changes them only. -/
theorem changesOnly_mem_load (s : State) (base : Nat) (bs : List Byte) :
    ChangesOnly (fun q => ∃ k, k < bs.length ∧ q = .mem (base + k)) s { s with mem := s.mem.load base bs } := by
  intro p hp
  cases p with
  | mem a =>
    refine (Mem.read_load s.mem base bs a).trans (if_neg fun h => hp ⟨a - base, by omega, ?_⟩)
    rw [Nat.add_sub_cancel' h.1]
  | _ => rfl

section
variable {s : State} {bs : List Byte} (op : Word) (next : State → State)

/-- An instruction that stores bytes inside memory has stored them all when `pc` is updated. -/
theorem conclude_storeBytes_inside (h : s.i.toNat + bs.length ≤ 0x1000) :
    ∃ m, conclude op next (storeBytes 0 bs s) = .next (next { s with mem := m }) ∧
      (∀ k (hk : k < bs.length), m.read (s.indexed k) = bs[k]) ∧
      ChangesOnly (fun q => ∃ k, k < bs.length ∧ q = .mem (s.indexed k)) s { s with mem := m } := by
  refine ⟨s.mem.load s.i.toNat bs, ?_, fun k hk => Mem.read_load_add _ _ hk, changesOnly_mem_load s s.i.toNat bs⟩
  rw [storeBytes_ok 0 bs s (by omega)]
  rfl

/-- An instruction that stores bytes past the end of memory has stored those inside it when it faults at the first
address outside (60_exceptions.md R267). -/
theorem conclude_storeBytes_outside (h : 0x1000 < s.i.toNat + bs.length) (hne : bs ≠ []) :
    ∃ m, conclude op next (storeBytes 0 bs s) =
        .next (State.takeFault { s with mem := m } (some op) ⟨.boundsFault, max 0x1000 s.i.toNat⟩) ∧
      (∀ k (hk : k < bs.length), s.indexed k ≤ 0xFFF → m.read (s.indexed k) = bs[k]) ∧
      ChangesOnly (fun q => ∃ k, k < bs.length ∧ s.indexed k ≤ 0xFFF ∧ q = .mem (s.indexed k)) s
        { s with mem := m } := by
  have hlen : (bs.take (0x1000 - s.i.toNat)).length = min (0x1000 - s.i.toNat) bs.length := List.length_take
  refine ⟨s.mem.load s.i.toNat (bs.take (0x1000 - s.i.toNat)), ?_, fun k hk hin => ?_, ?_⟩
  · rw [storeBytes_error 0 bs s (by omega) hne]
    rfl
  · unfold State.indexed at hin ⊢
    rw [Mem.read_load_add _ _ (by omega), List.getElem_take]
  · refine (changesOnly_mem_load s s.i.toNat (bs.take (0x1000 - s.i.toNat))).mono ?_
    rintro q ⟨k, hk, rfl⟩
    exact ⟨k, by omega, by unfold State.indexed; omega, rfl⟩

end

/-! ### Decimal digits -/

theorem toNat_hundreds (b : Byte) : (hundreds b).toNat = b.toNat / 100 := by
  have := b.isLt
  rw [hundreds, BitVec.toNat_ofNat]
  omega

theorem toNat_tens (b : Byte) : (tens b).toNat = b.toNat / 10 % 10 := by
  rw [tens, BitVec.toNat_ofNat]
  omega

theorem toNat_ones (b : Byte) : (ones b).toNat = b.toNat % 10 := by
  rw [ones, BitVec.toNat_ofNat]
  omega

/-- Settles O42: the three digits are bytes, so storing them keeps their numbers. -/
theorem storeDecimalDigits : Obligations.StoreDecimalDigits := by
  refine ⟨rowDecodes_full (.ldBVx 0), fun s x hin => ?_⟩
  obtain ⟨m, e, hread, frame⟩ := conclude_storeBytes_inside (s := s)
    (bs := [hundreds (s.getV x), tens (s.getV x), ones (s.getV x)]) (encode (.ldBVx x)) State.advance
    (Nat.succ_le_succ hin)
  refine ⟨_, e, ?_, ?_, ?_, rfl, frame.advance⟩
  · exact (congrArg BitVec.toNat (hread 0 (by simp))).trans (toNat_hundreds _)
  · exact (congrArg BitVec.toNat (hread 1 (by simp))).trans (toNat_tens _)
  · exact (congrArg BitVec.toNat (hread 2 (by simp))).trans (toNat_ones _)

/-! ### `Q_MEM_I` -/

section
variable {s : State} (x : RegIdx)

theorem State.advanceI_i_of_increment (h : s.params.memI = .increment) :
    (s.advanceI x).i.toNat = (s.i.toNat + x.toNat + 1) % 65536 := by
  simp only [State.advanceI, h, State.setI_i, BitVec.toNat_ofNat]

theorem State.advanceI_i_of_keep (h : s.params.memI = .keep) : (s.advanceI x).i = s.i := by
  simp only [State.advanceI, h]

/-- Advancing `I` adds it to what may have changed (48_ext_mem_key_timer.md R239). -/
theorem ChangesOnly.advanceI {may : Part → Prop} {t : State} (h : ChangesOnly may s t) :
    ChangesOnly (fun q => q = .i ∨ may q) s (t.advanceI x) := by
  unfold State.advanceI
  split
  · exact (h.trans (changesOnly_setI t _)).mono fun _ => Or.symm
  · exact h.mono fun _ => .inr

end

/-- Settles O43: what is stored from `I` on are the registers from `V0` on. -/
theorem storeRegisters : Obligations.StoreRegisters := by
  refine ⟨rowDecodes_full (.storeRegs 0), fun s x hin => ?_⟩
  have hlen := s.length_firstRegs x
  obtain ⟨m, e, hread, frame⟩ := conclude_storeBytes_inside (s := s) (bs := s.firstRegs x) (encode (.storeRegs x))
    (fun t => (t.advanceI x).advance) (by omega)
  refine ⟨_, e, fun k hk => ?_, fun hq => State.advanceI_i_of_increment x hq,
    fun hq => State.advanceI_i_of_keep x hq, by simp, (frame.advanceI x).advance.mono ?_⟩
  · have hk' : k.toNat < (s.firstRegs x).length := by rw [hlen]; exact Nat.lt_succ_of_le hk
    simpa using (hread k.toNat hk').trans (s.getElem_firstRegs x hk')
  · rintro q (hpc | hi | ⟨k, hk, hq⟩)
    · exact .inl hpc
    · exact .inr (.inl hi)
    · have := x.isLt
      have hreg := toNat_loopReg (k := k) (by omega)
      exact .inr (.inr ⟨loopReg k, BitVec.le_def.mpr (by omega), by rw [hreg, hq]⟩)

/-! ### Loads -/

/-- The registers below `n` are loaded when their addresses lie inside memory (48_ext_mem_key_timer.md R240). -/
theorem loadBytes_range {s : State} {n : Nat} (hn : n ≤ 16) (hin : ∀ k < n, s.indexed k ≤ 0xFFF) :
    ∃ t, loadBytes (List.range n) s = .ok t ∧
      (∀ k : RegIdx, k.toNat < n → t.getV k = s.mem.read (s.indexed k.toNat)) ∧
      ChangesOnly (fun q => ∃ k : RegIdx, k.toNat < n ∧ q = .v k) s t := by
  obtain ⟨t, ht, hloaded, hother⟩ := loadBytes_ok (List.range n) s List.nodup_range
    (fun k hk => (List.mem_range.mp hk).trans_le hn) (fun k hk => hin k (List.mem_range.mp hk))
  refine ⟨t, ht, fun k hk => ?_, fun p hp => ?_⟩
  · simpa [loopReg_toNat] using hloaded k.toNat (List.mem_range.mpr hk)
  · cases p with
    | v q =>
      refine hother q fun k hk hq => hp ⟨q, ?_, rfl⟩
      have hlt := List.mem_range.mp hk
      rwa [hq, toNat_loopReg (hlt.trans_le hn)]
    | _ => rw [(loadBytes_frame _ s).1 t ht]; rfl

/-- Settles O44: all the registers up to `V[x]` are loaded. -/
theorem loadRegisters : Obligations.LoadRegisters := by
  refine ⟨rowDecodes_full (.loadRegs 0), fun s x hin => ?_⟩
  obtain ⟨u, hu, hloaded, frame⟩ := loadBytes_range (s := s) (n := x.toNat + 1) x.isLt
    (fun k hk => by unfold State.indexed; omega)
  have e : exec (.loadRegs x) s = .next (u.advanceI x).advance :=
    congrArg (conclude (encode (.loadRegs x)) fun t => (t.advanceI x).advance) hu
  have hparams : u.params = s.params := frame .params (by simp)
  have hi : u.i = s.i := frame .i (by simp)
  have hpc : u.pc = s.pc := frame .pc (by simp)
  refine ⟨_, e, fun k hk => ?_, fun hq => ?_, fun hq => ?_, by simp [hpc], (frame.advanceI x).advance.mono ?_⟩
  · simpa using hloaded k (Nat.lt_succ_of_le hk)
  · rw [State.advance_i, State.advanceI_i_of_increment x (by rw [hparams, hq]), hi]
  · rw [State.advance_i, State.advanceI_i_of_keep x (by rw [hparams, hq]), hi]
  · rintro q (hpc | hi | ⟨k, hk, hq⟩)
    · exact .inl hpc
    · exact .inr (.inl hi)
    · exact .inr (.inr ⟨k, Nat.le_of_lt_succ hk, hq⟩)

/-! ### Past the end of memory -/

section
variable (s : State) (x : RegIdx)

/-- The digits stored before `Fx33` faults (48_ext_mem_key_timer.md R238). -/
theorem exec_ldBVx_outside (h : 0xFFF < s.i.toNat + 2) : ∃ t, exec (.ldBVx x) s = .next t ∧
    FaultedWith s t .boundsFault (max 0x1000 s.i.toNat) (some (encode (.ldBVx x))) ∧
    (s.indexed 0 ≤ 0xFFF → (t.mem.read (s.indexed 0)).toNat = (s.getV x).toNat / 100) ∧
    (s.indexed 1 ≤ 0xFFF → (t.mem.read (s.indexed 1)).toNat = (s.getV x).toNat / 10 % 10) ∧
    ChangesOnly (fun q => q = .run ∨ q = .fault ∨
      ∃ k, k < 2 ∧ s.indexed k ≤ 0xFFF ∧ q = .mem (s.indexed k)) s t := by
  obtain ⟨m, e, hread, frame⟩ := conclude_storeBytes_outside (s := s)
    (bs := [hundreds (s.getV x), tens (s.getV x), ones (s.getV x)]) (encode (.ldBVx x)) State.advance
    (Nat.succ_lt_succ h) (List.cons_ne_nil _ _)
  refine ⟨_, e, ⟨rfl, rfl, rfl⟩, fun hin => ?_, fun hin => ?_, (frame.mono ?_).takeFault _ _⟩
  · exact (congrArg BitVec.toNat (hread 0 (by simp) hin)).trans (toNat_hundreds _)
  · exact (congrArg BitVec.toNat (hread 1 (by simp) hin)).trans (toNat_tens _)
  · rintro q ⟨k, -, hin, rfl⟩
    exact ⟨k, by unfold State.indexed at hin; omega, hin, rfl⟩

/-- The registers stored before `Fx55` faults (48_ext_mem_key_timer.md R239). -/
theorem exec_storeRegs_outside (h : 0xFFF < s.i.toNat + x.toNat) : ∃ t, exec (.storeRegs x) s = .next t ∧
    FaultedWith s t .boundsFault (max 0x1000 s.i.toNat) (some (encode (.storeRegs x))) ∧
    (∀ k : RegIdx, s.indexed k.toNat ≤ 0xFFF → t.mem.read (s.indexed k.toNat) = s.getV k) ∧
    ChangesOnly (fun q => q = .run ∨ q = .fault ∨
      ∃ k : RegIdx, s.indexed k.toNat ≤ 0xFFF ∧ q = .mem (s.indexed k.toNat)) s t := by
  have hlen := s.length_firstRegs x
  obtain ⟨m, e, hread, frame⟩ := conclude_storeBytes_outside (s := s) (bs := s.firstRegs x) (encode (.storeRegs x))
    (fun t => (t.advanceI x).advance) (by omega) (List.ne_nil_of_length_eq_add_one hlen)
  refine ⟨_, e, ⟨rfl, rfl, rfl⟩, fun k hin => ?_, (frame.mono ?_).takeFault _ _⟩
  · have hk : k.toNat < (s.firstRegs x).length := by unfold State.indexed at hin; omega
    exact (hread k.toNat hk hin).trans (s.getElem_firstRegs x hk)
  · rintro q ⟨k, hk, hin, rfl⟩
    have := x.isLt
    have hreg := toNat_loopReg (k := k) (by omega)
    exact ⟨loopReg k, by rwa [hreg], by rw [hreg]⟩

/-- The registers loaded before `Fx65` faults (48_ext_mem_key_timer.md R240). -/
theorem exec_loadRegs_outside (h : 0xFFF < s.i.toNat + x.toNat) : ∃ t, exec (.loadRegs x) s = .next t ∧
    FaultedWith s t .boundsFault (max 0x1000 s.i.toNat) (some (encode (.loadRegs x))) ∧
    (∀ k : RegIdx, s.indexed k.toNat ≤ 0xFFF → t.getV k = s.mem.read (s.indexed k.toNat)) ∧
    ChangesOnly (fun q => q = .run ∨ q = .fault ∨ ∃ k : RegIdx, s.indexed k.toNat ≤ 0xFFF ∧ q = .v k) s t := by
  have hfirst : s.indexed (0x1000 - s.i.toNat) = max 0x1000 s.i.toNat := by unfold State.indexed; omega
  have hbefore {k : Nat} : k < 0x1000 - s.i.toNat ↔ s.indexed k ≤ 0xFFF := by unfold State.indexed; omega
  have hx := x.isLt
  obtain ⟨u, hu, hloaded, frame⟩ := loadBytes_range (s := s) (n := 0x1000 - s.i.toNat) (by omega)
    (fun k => hbefore.mp)
  obtain ⟨ks, hks⟩ := range_eq_append_cons (k := 0x1000 - s.i.toNat) (n := x.toNat + 1) (by omega)
  have herr := loadBytes_error _ ks (0x1000 - s.i.toNat) s u hu (by omega)
  rw [← hks, hfirst] at herr
  have hpc : u.pc = s.pc := frame .pc (by simp)
  refine ⟨_, congrArg (conclude (encode (.loadRegs x)) fun t => (t.advanceI x).advance) herr,
    ⟨rfl, by simp [hpc], hpc⟩, fun k hin => hloaded k (hbefore.mpr hin), (frame.mono ?_).takeFault _ _⟩
  rintro q ⟨k, hk, rfl⟩
  exact ⟨k, hbefore.mp hk, rfl⟩

end

/-- Settles O45: each of the three moves what lies inside memory, then faults at the first address outside it. -/
theorem blockBoundsFaults : Obligations.BlockBoundsFaults := by
  refine fun s x p op => ⟨fun hd h => ?_, fun hd h => ?_, fun hd h => ?_⟩ <;>
    obtain ⟨-, rfl⟩ := decode_eq_instr_iff.mp hd
  · exact exec_ldBVx_outside s x h
  · exact exec_storeRegs_outside s x h
  · exact exec_loadRegs_outside s x h

end Sys2Proof.Machine
end

section
/-! The timer tick and the clock edge (50_clock_and_timers.md R171 to R178): what each changes, and the spacing of the
steps that clock edges make due. -/

namespace Sys2Proof.Machine

/-- A timer counts down to 0 and stays there (50_clock_and_timers.md R171). -/
theorem toNat_countDown (b : Byte) : (countDown b).toNat = b.toNat - 1 := by
  unfold countDown
  split
  · bv_omega
  · next h => rw [not_not.mp h]; rfl

/-- A tick after a move changes the timers, the frames, the latch, `RUN` and the moves to come
(50_clock_and_timers.md R171). -/
theorem changesOnly_timerTick (s : State) (ms : List Move) (rs : Rounds) (keysIn : Keys) (quitIn : Bool) :
    ChangesOnly (fun q => q = .dt ∨ q = .st ∨ q = .frames ∨ q = .keys ∨ q = .run ∨ q = .schedule ∨ q = .rounds) s
      (timerTick keysIn quitIn { s with schedule := ms, rounds := rs }) := by
  intro p hp
  cases p with
  | dt | st | frames | keys | run | schedule | rounds => simp at hp
  | _ => rfl

/-- A clock edge changes the dividers and the moves to come (50_clock_and_timers.md R174, R175). -/
theorem changesOnly_clockEdge (s : State) (ms : List Move) (rs : Rounds) (keysIn : Keys) (quitIn : Bool) :
    ChangesOnly (fun q => q = .tdiv ∨ q = .idiv ∨ q = .schedule ∨ q = .rounds) s
      (clockEdge keysIn quitIn { s with schedule := ms, rounds := rs }) := by
  intro p hp
  cases p with
  | tdiv | idiv | schedule | rounds => simp at hp
  | _ => rfl

/-- Settles O56: the tick starts from a running core, so `RUN` is RUNNING after it unless the quit check stops it. -/
theorem timerTick_spec : Obligations.TimerTick := by
  intro s u keysIn quitIn hn
  have hstep : step s = .next (timerTick keysIn quitIn u) := step_of_nextMove hn
  have hrun : s.run = .running := hn.1
  obtain ⟨ms, rs, rfl⟩ := hn.eq_with
  exact ⟨_, hstep, toNat_countDown s.dt, toNat_countDown s.st, rfl, rfl, by simp [timerTick, hrun], rfl, rfl,
    changesOnly_timerTick s ms rs keysIn quitIn⟩

/-- Settles O58: the four combinations of dividers at 0. -/
theorem clockEdgeDividers : Obligations.ClockEdgeDividers := by
  intro s u keysIn quitIn hn
  have hstep : step s = .next (clockEdge keysIn quitIn u) := step_of_nextMove hn
  obtain ⟨ms, rs, rfl⟩ := hn.eq_with
  refine ⟨_, hstep, rfl, rfl, ?_, ?_, ?_, ?_, rfl, changesOnly_clockEdge s ms rs keysIn quitIn⟩ <;>
    · intro hi ht
      simp [clockEdge, hi, ht]

/-- A divider stays below a positive divisor (50_clock_and_timers.md R174, R175). -/
theorem dividerNext_lt {count divisor : Nat} (h : count < divisor) : dividerNext count divisor < divisor := by
  unfold dividerNext
  split <;> omega

/-- An instruction step leaves the parameters and the dividers alone. -/
theorem instructionStep_dividers {s t : State} (h : instructionStep s = .next t) :
    t.params = s.params ∧ t.tdiv = s.tdiv ∧ t.idiv = s.idiv := by
  rcases instructionStep_next_cases h with ⟨-, a, rfl⟩ | ⟨-, i, -, hexec⟩ | ⟨-, op, -, rfl⟩
  · exact ⟨rfl, rfl, rfl⟩
  · exact ⟨(exec_writes hexec).params, (exec_writes hexec).tdiv, (exec_writes hexec).idiv⟩
  · exact ⟨rfl, rfl, rfl⟩

/-- Settles O18: a clock edge reloads or counts each divider, a reset reloads both, and no other step touches them. -/
theorem everyStepKeepsDividersInRange : Obligations.EveryStepKeepsDividersInRange := by
  intro s t hs h
  rcases step_next_cases h with ⟨u, hn, hi⟩ | ⟨k, q, u, hn, rfl⟩ | ⟨k, q, u, hn, rfl⟩ | ⟨image, rest, -, hq⟩
  · obtain ⟨ms, rs, rfl⟩ := hn.eq_with
    obtain ⟨hparams, htick, hinstr⟩ := instructionStep_dividers hi
    unfold State.DividersInRange
    rw [hparams, htick, hinstr]
    exact hs
  · obtain ⟨ms, rs, rfl⟩ := hn.eq_with
    exact hs
  · obtain ⟨ms, rs, rfl⟩ := hn.eq_with
    obtain ⟨hwf, htick, hinstr⟩ := hs
    exact ⟨hwf, dividerNext_lt htick, dividerNext_lt hinstr⟩
  · obtain ⟨-, -, rfl⟩ := resetRequest_next.mp hq
    exact dividersInRange_resetWith _ _ _ _ _ hs.1

/-! ### The spacing of the due steps -/

/-- After `n` edges since its reload, a divider holds `count` and has made `due` steps due. -/
def DividerAfter (divisor n count due : Nat) : Prop := count < divisor ∧ count + n + 1 = divisor * (due + 1)

section
variable {divisor n count due : Nat}

theorem DividerAfter.start (h : 0 < divisor) : DividerAfter divisor 0 (divisor - 1) 0 :=
  ⟨Nat.sub_one_lt_of_lt h, by omega⟩

/-- One more edge makes a step due exactly when the divider is at 0 (50_clock_and_timers.md R174, R175). -/
theorem DividerAfter.edge (h : DividerAfter divisor n count due) :
    DividerAfter divisor (n + 1) (dividerNext count divisor) (due + if count = 0 then 1 else 0) := by
  obtain ⟨hlt, hsum⟩ := h
  refine ⟨dividerNext_lt hlt, ?_⟩
  unfold dividerNext
  split
  · rw [Nat.mul_succ]; omega
  · rw [Nat.add_zero, ← hsum]; omega

/-- One step is due per `divisor` edges. -/
theorem DividerAfter.due_eq (h : DividerAfter divisor n count due) : due = n / divisor := by
  obtain ⟨hlt, hsum⟩ := h
  rw [Nat.mul_succ] at hsum
  refine (Nat.div_eq_of_lt_le ?_ ?_).symm
  · rw [Nat.mul_comm]; omega
  · rw [Nat.succ_mul, Nat.mul_comm]; omega

end

/-- After `n` clock edges in a row each divider has made the steps due that the schedule holds. -/
def EdgesTaken (s : State) (keysIn : Keys) (quitIn : Bool) (n : Nat) (t : State) : Prop :=
  t.params = s.params ∧
  DividerAfter s.params.tickDiv n t.tdiv (t.schedule.count (.tick keysIn quitIn)) ∧
  DividerAfter s.params.instrDiv n t.idiv (t.schedule.count .instruction)

section
variable {s t : State} {keysIn : Keys} {quitIn : Bool} {n : Nat}

theorem EdgesTaken.edge (h : EdgesTaken s keysIn quitIn n t) :
    EdgesTaken s keysIn quitIn (n + 1) (clockEdge keysIn quitIn t) := by
  obtain ⟨hparams, htick, hinstr⟩ := h
  have ticks : (clockEdge keysIn quitIn t).schedule.count (.tick keysIn quitIn) =
      t.schedule.count (.tick keysIn quitIn) + if t.tdiv = 0 then 1 else 0 := by
    by_cases ht : t.tdiv = 0 <;> by_cases hi : t.idiv = 0 <;> simp [clockEdge, ht, hi]
  have instructions : (clockEdge keysIn quitIn t).schedule.count .instruction =
      t.schedule.count .instruction + if t.idiv = 0 then 1 else 0 := by
    by_cases ht : t.tdiv = 0 <;> by_cases hi : t.idiv = 0 <;> simp [clockEdge, ht, hi]
  refine ⟨hparams, ?_, ?_⟩
  · rw [ticks]; exact hparams ▸ htick.edge
  · rw [instructions]; exact hparams ▸ hinstr.edge

theorem edgesTaken_iterate (h : EdgesTaken s keysIn quitIn 0 s) (n : Nat) :
    EdgesTaken s keysIn quitIn n ((clockEdge keysIn quitIn)^[n] s) := by
  induction n with
  | zero => exact h
  | succ n ih => rw [Function.iterate_succ_apply']; exact ih.edge

end

/-- Settles O59, by induction on the number of edges. -/
theorem clockEdgesSpaceTheSteps : Obligations.ClockEdgesSpaceTheSteps := by
  intro s keysIn quitIn n hs htick hinstr ht hi
  have start : EdgesTaken s keysIn quitIn 0 s := by
    refine ⟨rfl, ?_, ?_⟩
    · rw [hs, ht]; exact .start htick
    · rw [hs, hi]; exact .start hinstr
  obtain ⟨-, ticks, instructions⟩ := edgesTaken_iterate start n
  exact ⟨ticks.due_eq, instructions.due_eq⟩

end Sys2Proof.Machine
end

section
/-! Faults (60_exceptions.md R260 to R267): which instruction raises which, and what a step that faults records. -/

namespace Sys2Proof.Machine

/-- Settles O48: an instruction that does not keep `RUN` has raised one of the faults the table lists for it. -/
theorem faultsOnlyWhereTheTableSays : Obligations.FaultsOnlyWhereTheTableSays := by
  intro i s t h hs ht
  rcases exec_keepsOrFaults h with ⟨hrun, -⟩ | ⟨cause, addr, hmay, -, hfault, -⟩
  · exact absurd (hrun ▸ ht) hs
  · rw [hfault]
    cases cause with
    | none => exact hmay.elim
    | boundsFault => exact .inl ⟨rfl, hmay⟩
    | stackUnderflow => exact .inr (.inl ⟨rfl, hmay⟩)
    | stackOverflow => exact .inr (.inr ⟨rfl, hmay⟩)

/-- The word `FAULT.instr` holds after a fault at `pc` (10_state.md R35). -/
def State.faultWord (s : State) : Option Word := if s.pc.toNat ≤ 0xFFE then some (s.wordAt s.pc.toNat) else none

/-- An instruction step leaves `RUN` and `FAULT` alone or enters FAULTED with a cause and the fetched word
(60_exceptions.md R266, R267). -/
theorem instructionStep_keepsOrFaults {s t : State} (h : instructionStep s = .next t) :
    (t.run = s.run ∧ t.fault = s.fault) ∨
      ∃ cause addr, cause ≠ .none ∧ FaultedWith s t cause addr s.faultWord := by
  unfold State.faultWord
  rcases instructionStep_next_cases h with ⟨hpc, a, rfl⟩ | ⟨hpc, i, hd, hexec⟩ | ⟨-, op, -, rfl⟩
  · rw [if_neg (by omega)]
    exact .inr ⟨.boundsFault, a, nofun, rfl, rfl, rfl⟩
  · rw [if_pos hpc, (decode_eq_instr_iff.mp hd).2]
    exact (exec_keepsOrFaults hexec).imp_right fun ⟨cause, addr, hmay, hf⟩ => ⟨cause, addr, hmay.ne_none, hf⟩
  · exact .inl ⟨rfl, rfl⟩

/-- Settles O49: the move taken leaves `pc`, memory, `RUN` and `FAULT` alone. -/
theorem faultKeepsPc : Obligations.FaultKeepsPc := by
  rintro s t ⟨u, hn⟩ h
  have hu : instructionStep u = .next t := (step_of_nextMove hn).symm.trans h
  have hrunning : s.run = .running := hn.1
  obtain ⟨ms, rs, rfl⟩ := hn.eq_with
  rcases instructionStep_keepsOrFaults hu with ⟨hrun, hfault⟩ | ⟨cause, addr, hcause, hrun, hfault, hpc⟩
  · have ht : t.run = .running := hrun.trans hrunning
    exact ⟨fun hf => (nomatch ht.symm.trans hf), fun _ => ⟨ht, hfault⟩⟩
  · rw [hfault]
    exact ⟨fun _ => ⟨hpc, rfl, hcause, rfl⟩, fun hne => absurd hrun hne⟩

end Sys2Proof.Machine
end

section
/-! The reset request (70_reset_and_hazards.md R290, R292): it is answered in any run state, by a refusal or by the
reset state. -/

namespace Sys2Proof.Machine

/-- A reset request that is the next move is answered whatever `RUN` is (70_reset_and_hazards.md R290). -/
theorem step_of_reset {s : State} {image : List Byte} {rest : List Move} (h : s.schedule = .reset image :: rest) :
    step s = resetRequest image { s with schedule := rest } := by
  cases hr : s.run with
  | running => exact step_of_nextMove ⟨hr, s.nextMove_cons h⟩
  | faulted | stopped => simp only [step, agentStep, hr, h, haltedStep]

/-- Settles O12: the length is checked first, then its parity. -/
theorem resetRefusesBadImage : Obligations.ResetRefusesBadImage := by
  intro s image rest h
  rw [step_of_reset h]
  refine ⟨fun hlong => if_pos hlong, fun hle hodd => ?_⟩
  exact (if_neg (Nat.not_lt.mpr hle)).trans (if_pos hodd)

/-! ### The memory a reset leaves -/

/-- What the loads of a reset leave at an address: the image, else the font, else zero (70_reset_and_hazards.md
R290). -/
theorem read_resetMem (font : Vector Byte 80) (image : List Byte) (a : Nat) : (resetMem font image).read a =
    if 0x200 ≤ a ∧ a < 0x200 + image.length then image.getD (a - 0x200) 0
    else if 0x050 ≤ a ∧ a < 0x0A0 then font.toList.getD (a - 0x050) 0 else 0 := by
  have hunlisted : ¬(0x050 ≤ a ∧ a < 0x0A0) → Mem.read [] a = 0 := fun h => resetByte_of_not_font (by omega)
  simp only [resetMem, Mem.read_load, Config.progBase, Config.fontBase, Vector.length_toList, List.length_replicate]
  split
  · rfl
  · split
    · rfl
    · next h => exact hunlisted h

theorem read_resetMem_font (font : Vector Byte 80) (image : List Byte) {j : Nat} (h : j < 80) :
    (resetMem font image).read (0x050 + j) = font[j] := by
  rw [read_resetMem, if_neg (by omega), if_pos (by omega), Nat.add_sub_cancel_left,
    List.getD_eq_getElem _ _ (by simpa using h), Vector.getElem_toList]

theorem read_resetMem_image (font : Vector Byte 80) (image : List Byte) {j : Nat} (h : j < image.length) :
    (resetMem font image).read (0x200 + j) = image[j] := by
  rw [read_resetMem, if_pos (by omega), Nat.add_sub_cancel_left, List.getD_eq_getElem _ _ h]

theorem read_resetMem_zero (font : Vector Byte 80) (image : List Byte) {a : Nat}
    (h : a < 0x050 ∨ (0x0A0 ≤ a ∧ a < 0x200) ∨ 0x200 + image.length ≤ a) : (resetMem font image).read a = 0 := by
  rw [read_resetMem, if_neg (by omega), if_neg (by omega)]

/-- Settles O11: an admissible image is answered by the reset state, with the memory the three loads leave. -/
theorem resetRequestRebuildsState : Obligations.ResetRequestRebuildsState := by
  intro s image rest h hlen heven
  refine ⟨_, (step_of_reset h).trans (resetRequest_next.mpr ⟨hlen, heven, rfl⟩), ?_, rfl, rfl, rfl, rfl, rfl, ?_, ?_,
    rfl, rfl, rfl, rfl, rfl, rfl, rfl, rfl, rfl, rfl, rfl, ?_, ?_, ?_⟩
  · intro r; simp [State.resetWith, State.getV]
  · intro px py; simp [State.resetWith, State.pixel]
  · intro k; simp [State.resetWith, State.key]
  · exact fun j hj => read_resetMem_font s.params.font image hj
  · exact fun j hj => read_resetMem_image s.params.font image hj
  · exact fun a ha => read_resetMem_zero s.params.font image ha

end Sys2Proof.Machine
end

section
/-! Both clocks run for as long as the core does (50_clock_and_timers.md R179): every step uses up moves of the
schedule, every round holds an instruction step and a tick, so both are always still to come. -/

namespace Sys2Proof.Machine

/-! ### What is reached eventually -/

/-- Some number of steps leads from `s` to a state with `P`. -/
def Eventually (P : State → Prop) (s : State) : Prop := ∃ n t, Reaches n s t ∧ P t

section
variable {P Q : State → Prop} {s t : State}

theorem Eventually.now (h : P s) : Eventually P s := ⟨0, s, rfl, h⟩

theorem Eventually.step (hst : step s = .next t) (h : Eventually P t) : Eventually P s := by
  obtain ⟨n, u, hu, hp⟩ := h
  exact ⟨n + 1, u, ⟨t, hst, hu⟩, hp⟩

theorem Eventually.bind (h : Eventually P s) (g : ∀ t, P t → Eventually Q t) : Eventually Q s := by
  obtain ⟨m, t, ht, hp⟩ := h
  obtain ⟨n, u, hu, hq⟩ := g t hp
  exact ⟨m + n, u, ht.trans hu, hq⟩

/-- What leads eventually to `P` or to a lower measure leads to `P` in the end. -/
theorem eventually_of_measure {G : State → Prop} (μ : State → Nat)
    (h : ∀ s, G s → Eventually (fun t => P t ∨ (G t ∧ μ t < μ s)) s) (hs : G s) : Eventually P s := by
  induction hμ : μ s using Nat.strong_induction_on generalizing s with
  | h k ih =>
    refine (h s hs).bind ?_
    rintro t (hp | ⟨ht, hlt⟩)
    · exact .now hp
    · exact ih (μ t) (hμ ▸ hlt) ht rfl

end

/-! ### Every step uses up moves -/

/-- A move counts more than all the moves it may make due: a clock edge makes at most two. -/
def Move.weight : Move → Nat
  | .clockEdge _ _ => 3
  | _ => 1

/-- The weight of all the moves of a list. -/
def movesWeight (ms : List Move) : Nat := (ms.map Move.weight).sum

theorem movesWeight_cons (m : Move) (ms : List Move) : movesWeight (m :: ms) = m.weight + movesWeight ms := by
  simp only [movesWeight, List.map_cons, List.sum_cons]

theorem movesWeight_append (ms ns : List Move) : movesWeight (ms ++ ns) = movesWeight ms + movesWeight ns := by
  simp only [movesWeight, List.map_append, List.sum_append]

section
variable {s t u : State} {m : Move}

theorem movesWeight_due_lt (s : State) (m : Move) : movesWeight (s.due m) < m.weight := by
  cases m with
  | clockEdge keysIn quitIn =>
    simp only [State.due, movesWeight_append]
    split <;> split <;> simp [movesWeight, Move.weight]
  | instruction | tick _ _ | reset _ => exact Nat.zero_lt_one

theorem runMove_weight_lt (h : runMove m u = .next t) : movesWeight t.schedule < movesWeight (m :: u.schedule) := by
  rw [(runMove_moves h).1, movesWeight_append, movesWeight_cons]
  exact Nat.add_lt_add_right (movesWeight_due_lt u m) _

/-- A halted core that answers goes on after the reset request it answers (10_state.md R34). -/
theorem haltedStep_next_suffix {why : Fault} {ms : List Move} (h : haltedStep why s ms = .next t) :
    ∃ image, .reset image :: t.schedule <:+ ms := by
  induction ms with
  | nil => cases h
  | cons m ms ih =>
    cases m with
    | reset image =>
      obtain ⟨-, -, rfl⟩ := resetRequest_next.mp h
      exact ⟨image, List.suffix_refl _⟩
    | instruction | tick _ _ | clockEdge _ _ =>
      obtain ⟨image, hsuffix⟩ := ih h
      exact ⟨image, hsuffix.trans (List.suffix_cons _ _)⟩

/-- A step of a core whose schedule is not empty uses up some of it, whatever `RUN` is. -/
theorem step_weight_lt (h : step s = .next t) (hne : s.schedule ≠ []) :
    movesWeight t.schedule < movesWeight s.schedule := by
  have halted {why : Fault} (hh : haltedStep why s s.schedule = .next t) :
      movesWeight t.schedule < movesWeight s.schedule := by
    obtain ⟨image, ms, hms⟩ := haltedStep_next_suffix hh
    have hreset : (Move.reset image).weight = 1 := rfl
    rw [← hms, movesWeight_append, movesWeight_cons, hreset]
    omega
  cases hr : s.run with
  | running =>
    obtain ⟨m, u, hn⟩ := State.exists_nextMove hr
    rw [← State.ahead_of_ne_nil hne, hn.ahead_eq]
    exact runMove_weight_lt ((step_of_nextMove hn).symm.trans h)
  | faulted | stopped => exact halted (by simpa only [step, agentStep, hr] using h)

/-! ### A running core steps -/

theorem instructionStep_answers_next (s : State) : ∃ t, instructionStep s = .next t := by
  rcases Nat.lt_or_ge 0xFFE s.pc.toNat with hpc | hpc
  · exact ⟨_, instructionStep_of_fetch_error (fetch_of_ge hpc)⟩
  · rcases decode_cases s.params.profile (s.wordAt s.pc.toNat) with ⟨i, hd⟩ | hd
    · rw [instructionStep_of_decode hpc hd]
      exact everyInstructionAnswersNext i s
    · exact ⟨_, instructionStep_of_unimplemented hpc hd⟩

/-- With no reset request to come, which may be refused, the next move answers a next state. -/
theorem State.NextMove.answers_next (hn : s.NextMove m u) (hno : s.NoResetAhead) :
    ∃ t, runMove m u = .next t := by
  cases m with
  | instruction => exact instructionStep_answers_next u
  | tick _ _ | clockEdge _ _ => exact ⟨_, rfl⟩
  | reset image => exact absurd hn.mem_ahead (hno.notMem_ahead image)

end

/-- `I` is kept along a run without reset requests until `P` holds, and a core halts only where `P` holds. -/
structure HoldsUntil (I P : State → Prop) : Prop where
  step : ∀ {s t}, I s → s.NoResetAhead → step s = .next t → P s ∨ I t
  halted : ∀ {s}, I s → s.NoResetAhead → s.run ≠ .running → P s

section
variable {I P : State → Prop} {Q : Move → Prop} {s : State}

/-- Unless `P` holds, the next move is taken and keeps `I`. -/
theorem HoldsUntil.next (h : HoldsUntil I P) (hI : I s) (hno : s.NoResetAhead) :
    P s ∨ ∃ m u t, s.NextMove m u ∧ runMove m u = .next t ∧ Machine.step s = .next t ∧ I t ∧ t.NoResetAhead := by
  by_cases hr : s.run = .running
  · obtain ⟨m, u, hn⟩ := State.exists_nextMove hr
    obtain ⟨t, ht⟩ := hn.answers_next hno
    have hst := (step_of_nextMove hn).trans ht
    exact (h.step hI hno hst).imp_right fun hIt => ⟨m, u, t, hn, ht, hst, hIt, hno.step hst⟩
  · exact .inl (h.halted hI hno hr)

/-- The schedule is used up. -/
theorem HoldsUntil.eventually_nil (h : HoldsUntil I P) (hI : I s) (hno : s.NoResetAhead) :
    Eventually (fun t => P t ∨ (I t ∧ t.schedule = [])) s := by
  refine eventually_of_measure (G := fun t => I t ∧ t.NoResetAhead) (fun t => movesWeight t.schedule) ?_ ⟨hI, hno⟩
  rintro s ⟨hI, hno⟩
  by_cases hnil : s.schedule = []
  · exact .now (.inl (.inr ⟨hI, hnil⟩))
  · rcases h.next hI hno with hp | ⟨m, u, t, -, -, hst, hIt, hnot⟩
    · exact .now (.inl (.inl hp))
    · exact .step hst (.now (.inr ⟨⟨hIt, hnot⟩, step_weight_lt hst hnil⟩))

/-- A move ahead becomes the next move. -/
theorem HoldsUntil.eventually_of_mem_ahead (h : HoldsUntil I P) (hI : I s) (hno : s.NoResetAhead) {x : Move}
    (hx : x ∈ s.ahead) : Eventually (fun t => P t ∨ (I t ∧ t.NoResetAhead ∧ ∃ u, t.NextMove x u)) s := by
  refine eventually_of_measure (G := fun t => I t ∧ t.NoResetAhead ∧ x ∈ t.ahead) (fun t => movesWeight t.ahead) ?_
    ⟨hI, hno, hx⟩
  rintro s ⟨hI, hno, hx⟩
  rcases h.next hI hno with hp | ⟨m, u, t, hn, ht, hst, hIt, hnot⟩
  · exact .now (.inl (.inl hp))
  · rw [hn.ahead_eq] at hx
    rcases List.mem_cons.mp hx with rfl | hx
    · exact .now (.inl (.inr ⟨hI, hno, u, hn⟩))
    · have hxt : x ∈ t.schedule := by rw [(runMove_moves ht).1]; exact List.mem_append_right _ hx
      have hahead := State.ahead_of_ne_nil (List.ne_nil_of_mem hxt)
      refine .step hst (.now (.inr ⟨⟨hIt, hnot, by rwa [hahead]⟩, ?_⟩))
      rw [hahead, hn.ahead_eq]
      exact runMove_weight_lt ht

/-- What every round holds becomes the next move (50_clock_and_timers.md R179). -/
theorem HoldsUntil.eventually_next (h : HoldsUntil I P) (hQ : ∀ r, ∃ x ∈ Move.ofRound r, Q x) (hI : I s)
    (hno : s.NoResetAhead) :
    Eventually (fun t => P t ∨ (I t ∧ t.NoResetAhead ∧ ∃ x u, Q x ∧ t.NextMove x u)) s := by
  refine (h.eventually_nil hI hno).bind ?_
  rintro t (hp | ⟨hIt, hnil⟩)
  · exact .now (.inl hp)
  · obtain ⟨x, hx, hq⟩ := hQ (t.rounds.nth 0)
    rw [← State.ahead_of_nil hnil] at hx
    refine (h.eventually_of_mem_ahead hIt (by simp [State.NoResetAhead, hnil]) hx).bind ?_
    rintro v (hp | ⟨hIv, hnov, u, hn⟩)
    · exact .now (.inl hp)
    · exact .now (.inr ⟨hIv, hnov, x, u, hq, hn⟩)

end

/-- The move is a timer tick. -/
def Move.IsTick (m : Move) : Prop := ∃ keysIn quitIn, m = .tick keysIn quitIn

theorem Move.exists_isTick_mem_ofRound (r : Round) : ∃ x ∈ Move.ofRound r, x.IsTick :=
  ⟨_, Move.tick_mem_ofRound r, _, _, rfl⟩

/-! ### Unbounded runs -/

section
variable {run : Nat → State}

/-- The schedule, and with it every reset request in it, is used up in the course of an unbounded run. -/
theorem UnboundedRun.exists_nil (h : UnboundedRun run) (n : Nat) : ∃ m, n ≤ m ∧ (run m).schedule = [] := by
  induction hw : movesWeight (run n).schedule using Nat.strong_induction_on generalizing n with
  | h k ih =>
    by_cases hnil : (run n).schedule = []
    · exact ⟨n, Nat.le_refl n, hnil⟩
    · obtain ⟨m, hm, hnil'⟩ := ih _ (hw ▸ step_weight_lt (h n) hnil) (n + 1) rfl
      exact ⟨m, Nat.le_of_succ_le hm, hnil'⟩

/-- An unbounded run goes on, and its core does not halt once no reset request is to come. -/
theorem UnboundedRun.holdsUntil (h : UnboundedRun run) (n : Nat) :
    HoldsUntil (fun t => ∃ m, n ≤ m ∧ t = run m) fun _ => False where
  step := by
    rintro _ t ⟨m, hm, rfl⟩ - hst
    exact .inr ⟨m + 1, Nat.le_succ_of_le hm, Host.Outcome.next.inj (hst.symm.trans (h m))⟩
  halted := by
    rintro _ ⟨m, -, rfl⟩ hno hr
    obtain ⟨_, _, hn, -⟩ := exists_nextMove_of_step hno (h m)
    exact hr hn.1

/-- What every round holds is still to come after every step of an unbounded run. -/
theorem UnboundedRun.exists_next (h : UnboundedRun run) {Q : Move → Prop}
    (hQ : ∀ r, ∃ x ∈ Move.ofRound r, Q x) (n : Nat) : ∃ m, n ≤ m ∧ ∃ x u, Q x ∧ (run m).NextMove x u := by
  obtain ⟨k, hk, hnil⟩ := h.exists_nil n
  have hnext := (h.holdsUntil k).eventually_next hQ ⟨k, Nat.le_refl k, rfl⟩ (by simp [State.NoResetAhead, hnil])
  obtain ⟨_, _, -, hfalse | ⟨⟨m, hm, rfl⟩, -, hx⟩⟩ := hnext
  · exact hfalse.elim
  · exact ⟨m, hk.trans hm, hx⟩

end

/-! ### Timers run out -/

/-- `f` reads a timer: a tick counts it down and it is no part of the moves to come (50_clock_and_timers.md R171). -/
structure IsTimer (f : State → Byte) : Prop where
  tick : ∀ keysIn quitIn s, f (timerTick keysIn quitIn s) = countDown (f s)
  moves : ∀ (s : State) ms rs, f { s with schedule := ms, rounds := rs } = f s

theorem isTimer_dt : IsTimer State.dt := ⟨fun _ _ _ => rfl, fun _ _ _ => rfl⟩
theorem isTimer_st : IsTimer State.st := ⟨fun _ _ _ => rfl, fun _ _ _ => rfl⟩

/-- The timer is 0, or the core has halted, or the next step raises the timer. -/
def RunsOut (f : State → Byte) (t : State) : Prop :=
  t.run ≠ .running ∨ f t = 0 ∨ ∃ u, step t = .next u ∧ f t < f u

section
variable {f : State → Byte}

/-- Every tick takes 1 from a timer that is not 0 (50_clock_and_timers.md R171). -/
theorem IsTimer.toNat_foldl (hf : IsTimer f) (s : State) (inputs : List Keys) :
    (f (inputs.foldl (fun u k => timerTick k false u) s)).toNat = (f s).toNat - inputs.length := by
  induction inputs generalizing s with
  | nil => rfl
  | cons k ks ih =>
    rw [List.foldl_cons, ih, hf.tick, toNat_countDown, List.length_cons]
    omega

/-- A timer stays at most `k` until a step raises it. -/
theorem holdsUntil_runsOut (f : State → Byte) (k : Nat) : HoldsUntil (fun t => (f t).toNat ≤ k) (RunsOut f) where
  step := by
    intro s t hs _ hst
    by_cases hraise : f s < f t
    · exact .inl (.inr (.inr ⟨t, hst, hraise⟩))
    · exact .inr ((BitVec.not_lt.mp hraise).trans hs)
  halted := fun _ _ hr => .inl hr

/-- A timer runs out, since the ticks to come have no end (10_state.md R25, 50_clock_and_timers.md R179). -/
theorem IsTimer.eventually_runsOut (hf : IsTimer f) {s : State} (hno : s.NoResetAhead) : Eventually (RunsOut f) s := by
  refine eventually_of_measure (G := State.NoResetAhead) (fun t => (f t).toNat) ?_ hno
  intro s hno
  by_cases hzero : f s = 0
  · exact .now (.inl (.inr (.inl hzero)))
  · refine ((holdsUntil_runsOut f (f s).toNat).eventually_next Move.exists_isTick_mem_ofRound (Nat.le_refl _)
      hno).bind ?_
    rintro t (hout | ⟨hle, hnot, _, u, ⟨keysIn, quitIn, rfl⟩, hn⟩)
    · exact .now (.inl hout)
    · have hst : step t = .next (timerTick keysIn quitIn u) := step_of_nextMove hn
      have hcount : (f (timerTick keysIn quitIn u)).toNat = (f t).toNat - 1 := by
        obtain ⟨ms, rs, rfl⟩ := hn.eq_with
        rw [hf.tick, hf.moves, toNat_countDown]
      refine .step hst (.now (.inr ⟨hnot.step hst, ?_⟩))
      have hpos : (f s).toNat ≠ 0 := fun h => hzero (BitVec.eq_of_toNat_eq h)
      omega

end

/-! ### A quit request that is held is seen -/

section
variable {s t u : State} {m : Move}

/-- The rounds after the first are the rounds from the second on (log 5). -/
theorem Rounds.nth_next (r : Rounds) (n : Nat) : r.next.nth n = r.nth (n + 1) := by
  cases r with
  | free k => exact congrArg Config.freeRound (by omega)
  | same _ => rfl

theorem State.QuitHeld.ahead (h : s.QuitHeld) (hm : m ∈ s.ahead) : m.quitHeld = true := by
  obtain ⟨hschedule, hrounds⟩ := h
  by_cases hnil : s.schedule = []
  · rw [State.ahead_of_nil hnil] at hm; exact hrounds 0 m hm
  · rw [State.ahead_of_ne_nil hnil] at hm; exact hschedule m hm

/-- Taking a move leaves the rounds or begins the next one. -/
theorem State.QuitHeld.rounds (h : s.QuitHeld) (hn : s.NextMove m u) (n : Nat) :
    ∀ d ∈ Move.ofRound (u.rounds.nth n), d.quitHeld = true := by
  obtain ⟨-, hrounds⟩ := h
  rcases hn.cases with ⟨rest, -, rfl⟩ | ⟨rest, -, -, rfl⟩
  · exact hrounds n
  · rw [Rounds.nth_next]; exact hrounds (n + 1)

/-- A quit request that is held stays so: what a clock edge makes due samples the edge's own `QUIT_IN`. -/
theorem State.QuitHeld.step (h : s.QuitHeld) (hn : s.NextMove m u) (ht : runMove m u = .next t) : t.QuitHeld := by
  obtain ⟨hschedule, hrounds⟩ := runMove_moves ht
  have held : ∀ d ∈ m :: u.schedule, d.quitHeld = true := fun d hd => h.ahead (hn.ahead_eq ▸ hd)
  refine ⟨fun d hd => ?_, fun n => by rw [hrounds]; exact h.rounds hn n⟩
  rw [hschedule] at hd
  rcases List.mem_append.mp hd with hdue | hrest
  · rcases State.mem_due hdue with rfl | ⟨keysIn, quitIn, rfl, rfl⟩
    · rfl
    · exact held (.clockEdge keysIn quitIn) List.mem_cons_self
  · exact held d (List.mem_cons_of_mem m hrest)

theorem holdsUntil_quitHeld : HoldsUntil State.QuitHeld fun t => t.run = .faulted ∨ t.run = .stopped where
  step := by
    intro s t h hno hst
    obtain ⟨m, u, hn, ht⟩ := exists_nextMove_of_step hno hst
    exact .inr (h.step hn ht)
  halted := by
    intro s _ _ hr
    cases h : s.run with
    | running => exact absurd h hr
    | faulted => exact .inl rfl
    | stopped => exact .inr rfl

/-- The tick that is to come sees the request (50_clock_and_timers.md R171, R177). -/
theorem State.QuitHeld.eventually_halts (h : s.QuitHeld) (hno : s.NoResetAhead) :
    Eventually (fun t => t.run = .faulted ∨ t.run = .stopped) s := by
  refine (holdsUntil_quitHeld.eventually_next Move.exists_isTick_mem_ofRound h hno).bind ?_
  rintro t (hhalt | ⟨hheld, -, _, u, ⟨keysIn, quitIn, rfl⟩, hn⟩)
  · exact .now hhalt
  · have hseen : (Move.tick keysIn quitIn).quitHeld = true := hheld.ahead hn.mem_ahead
    obtain rfl : quitIn = true := hseen
    exact .step (step_of_nextMove hn) (.now (.inr rfl))

end

/-- Settles O57: an instruction step and a tick are in every round, and the schedule before the rounds is finite. -/
theorem clocksNeverCease : Obligations.ClocksNeverCease := by
  refine ⟨fun s inputs => ⟨isTimer_dt.toNat_foldl s inputs, isTimer_st.toNat_foldl s inputs⟩,
    fun run h n => ⟨?_, ?_⟩, fun s _ hno => ⟨isTimer_dt.eventually_runsOut hno, isTimer_st.eventually_runsOut hno,
      fun hquit => hquit.eventually_halts hno⟩⟩
  · obtain ⟨m, hm, _, u, rfl, hn⟩ :=
      h.exists_next (Q := (· = .instruction)) (fun r => ⟨_, Move.instruction_mem_ofRound r, rfl⟩) n
    exact ⟨m, hm, u, hn⟩
  · obtain ⟨m, hm, _, u, ⟨keysIn, quitIn, rfl⟩, hn⟩ := h.exists_next Move.exists_isTick_mem_ofRound n
    exact ⟨m, hm, keysIn, quitIn, u, hn⟩

end Sys2Proof.Machine
end
